-- ==== Sys2Proof/Word.lean ====
section
/-!
DEFINITION. The widths of the block (00_scope R11): nothing but names for bit vectors.
-/

namespace Sys2Proof

/-- A symbol or a buffer byte (00_scope R9). -/
abbrev Byte := BitVec 8

/-- A host bus word, a CSR, a count of FREQ (00_scope R11: FREQ_W, LEN_W, host data width). -/
abbrev Word := BitVec 32

/-- An index into the node memory (00_scope R11: NODE_IDX_W = 9). -/
abbrev NodeIdx := BitVec 9

/-- A node weight (00_scope R11: WEIGHT_W = 40). -/
abbrev Weight := BitVec 40

end Sys2Proof
end

