-- ==== Sys2Proof/Syntax.lean ====
section
/-!
DEFINITION. The commands of the block (30_encoding R113), one constructor per row of spec/opcode_table.json,
and the two ways a command word is illegal (30_encoding R114).
-/

namespace Sys2Proof

/-- A command (30_encoding R113). Only BUILD_STEP has an operand, its merge count (30_encoding R111). -/
inductive Instr where
  | nop
  | clear
  | scan
  | build
  | buildInit
  | buildStep (count : Nat)
  | assign
  | pack
  | parse
  | decode
  | compress
  | decompress
  deriving DecidableEq, Repr

/-- Why a word is no command (30_encoding R114): case (a) is BAD_OPCODE, cases (b) and (c) are BAD_FIELD. -/
inductive Illegal where
  | badOpcode
  | badField
  deriving DecidableEq, Repr

/-- The mnemonic a command is written with (30_encoding R116). -/
def Instr.mnemonic : Instr → String
  | .nop => "NOP"
  | .clear => "CLEAR"
  | .scan => "SCAN"
  | .build => "BUILD"
  | .buildInit => "BUILD_INIT"
  | .buildStep _ => "BUILD_STEP"
  | .assign => "ASSIGN"
  | .pack => "PACK"
  | .parse => "PARSE"
  | .decode => "DECODE"
  | .compress => "COMPRESS"
  | .decompress => "DECOMPRESS"

end Sys2Proof
end

