-- ==== Sys2Proof/WellFormed.lean ====
section
/-!
DEFINITION. Which commands have a word: the merge count of BUILD_STEP fits ARG (30_encoding R111).
-/

namespace Sys2Proof

/-- A command is well formed when its operand fits its field: a merge count is 0 to 65535 (30_encoding R111). -/
def Instr.wf : Instr → Bool
  | .buildStep count => count < 65536
  | .nop | .clear | .scan | .build | .buildInit | .assign | .pack | .parse | .decode | .compress
  | .decompress => true

end Sys2Proof
end

