-- ==== Sys2Proof/Decode.lean ====
section
/-!
DEFINITION. The command word (30_encoding R110 to R114): the decoder, total on every 32-bit word, and the encoder,
both written from the opcode map of 30_encoding R113.
-/

namespace Sys2Proof

/-- OP, bits 7:0 of the command word (30_encoding R110). -/
def opField (w : Word) : Byte := w.extractLsb' 0 8

/-- ARG, bits 23:8 of the command word (30_encoding R110). -/
def argField (w : Word) : BitVec 16 := w.extractLsb' 8 16

/-- RSV, bits 31:24 of the command word (30_encoding R110). -/
def rsvField (w : Word) : Byte := w.extractLsb' 24 8

/-- The command an opcode of 30_encoding R113 names, given the merge count ARG; none for the 244 other values of OP
(30_encoding R114 (a)). -/
def commandOf (op : Byte) (count : Nat) : Option Instr :=
  if op = 0x00 then some .nop
  else if op = 0x01 then some .clear
  else if op = 0x10 then some .scan
  else if op = 0x20 then some .build
  else if op = 0x21 then some .buildInit
  else if op = 0x22 then some (.buildStep count)
  else if op = 0x30 then some .assign
  else if op = 0x40 then some .pack
  else if op = 0x50 then some .parse
  else if op = 0x51 then some .decode
  else if op = 0x80 then some .compress
  else if op = 0x81 then some .decompress
  else none

/-- Decoding (30_encoding R112, R114): OP first, then RSV = 0, and ARG = 0 for every opcode but BUILD_STEP. -/
def decode (w : Word) : Except Illegal Instr :=
  match commandOf (opField w) (argField w).toNat with
  | none => .error .badOpcode
  | some i =>
    if rsvField w ≠ 0 then .error .badField
    else if opField w ≠ 0x22 ∧ argField w ≠ 0 then .error .badField
    else .ok i

/-- The opcode of a command (30_encoding R113). -/
def Instr.opcode : Instr → Byte
  | .nop => 0x00
  | .clear => 0x01
  | .scan => 0x10
  | .build => 0x20
  | .buildInit => 0x21
  | .buildStep _ => 0x22
  | .assign => 0x30
  | .pack => 0x40
  | .parse => 0x50
  | .decode => 0x51
  | .compress => 0x80
  | .decompress => 0x81

/-- The operand of a command as ARG holds it (30_encoding R110, R111): the merge count, else 0. -/
def Instr.arg : Instr → BitVec 16
  | .buildStep count => BitVec.ofNat 16 count
  | .nop | .clear | .scan | .build | .buildInit | .assign | .pack | .parse | .decode | .compress
  | .decompress => 0

/-- The word of a command (30_encoding R110): RSV = 0, ARG, OP. -/
def encode (i : Instr) : Word := (0 : Byte) ++ i.arg ++ i.opcode

/-- The command word that the opcode table numbers w, its bits from nbits up being 0 (30_encoding R110: one format,
32 bits, bit 0 the least significant). -/
def tableWord (nbits w : Nat) : Word := BitVec.ofNat 32 (w % 2 ^ nbits)

/-- What the decoder reads from the word that the opcode table numbers w. -/
def decodeTableWord (nbits w : Nat) : Option Instr :=
  match decode (tableWord nbits w) with
  | .ok i => some i
  | .error _ => none

end Sys2Proof
end

