-- ==== Sys2Proof/Config.lean ====
section
/-!
DEFINITION. What the spec leaves open: the two buffer capacities that State.reset is given, and the free values,
each an opaque function that nothing can evaluate. The arguments of a free value say what it may depend on.
-/

namespace Sys2Proof

/-- IN_CAP of the block that State.reset is (00_scope R12 leaves it open: DESIGN CHOICE, log 3). No step reads
this constant: it reads the field capIn of the state. -/
def Config.inCap : Word := 4096

/-- OUT_CAP of the block that State.reset is (00_scope R12 leaves it open: DESIGN CHOICE, log 3). No step reads
this constant: it reads the field capOut of the state. -/
def Config.outCap : Word := 4096

/-- The word a busy read returns where 20_memory R87 says unspecified, for each draw (log 6). -/
opaque Config.busyWord : Nat → Word

/-- The choice among the phases of the running command that a busy STATUS read shows, for each draw (log 7). -/
opaque Config.busyPhase : Nat → Nat

/-- WEIGHT of a node slot not written since reset (10_state R52, R61), by era and index (log 4). -/
opaque Config.resetWeight : Nat → NodeIdx → Weight

/-- KIND of a node slot not written since reset, true for internal (log 4). -/
opaque Config.resetInternal : Nat → NodeIdx → Bool

/-- ACTIVE of a node slot not written since reset (log 4). -/
opaque Config.resetActive : Nat → NodeIdx → Bool

/-- SYMBOL of a node slot not written since reset (log 4). -/
opaque Config.resetSymbol : Nat → NodeIdx → Byte

/-- ZERO of a node slot not written since reset (log 4). -/
opaque Config.resetZero : Nat → NodeIdx → NodeIdx

/-- ONE of a node slot not written since reset (log 4). -/
opaque Config.resetOne : Nat → NodeIdx → NodeIdx

/-- CODE_LEN of a symbol before the first ASSIGN since reset (10_state R53), by era and symbol (log 4). -/
opaque Config.resetCodeLen : Nat → Byte → Byte

/-- CODE_BITS of a symbol before the first ASSIGN since reset (10_state R54), by era and symbol (log 4). -/
opaque Config.resetCodeBits : Nat → Byte → BitVec 256

/-- A byte of IN_BUF that the host has not written since reset (10_state R55), by era and offset (log 4). -/
opaque Config.resetInByte : Nat → Nat → Byte

/-- A payload bit that DECODE takes from past the input, where the block does not read IN_BUF (10_state R55), by era, payload
offset and bit number (log 13). -/
opaque Config.unreadBit : Nat → Nat → Nat → Bool

/-- A byte of OUT_BUF with no specified content (10_state R56, 60_exceptions R313), by draw and offset (log 5). -/
opaque Config.outByte : Nat → Nat → Byte

/-- The node a merge step selects from an empty set, by draw and selection (42_tree_builder R184 excludes it: log 9). -/
opaque Config.emptySelection : Nat → Nat → NodeIdx

end Sys2Proof
end

