-- ==== Sys2Proof/Machine/State.lean ====
section
/-!
DEFINITION. The architectural state as plain data (10_state R30 to R61), the reasons a step can stop, the outcomes of a
command body (00_scope R19), and the state right after reset (10_state R61).
-/

namespace Sys2Proof.Machine

/-- Sparse contents by key: only the places with a specified content are listed, keys strictly rising. -/
abbrev Cells (α : Type) := List (Nat × α)

/-- KIND of a node slot (10_state R52). -/
inductive Kind where
  | leaf
  | internal
  deriving DecidableEq, Repr

/-- One slot of the node memory (10_state R52). -/
structure NodeSlot where
  weight : Weight
  kind   : Kind
  active : Bool
  symbol : Byte
  zero   : NodeIdx
  one    : NodeIdx
  deriving DecidableEq, Repr

/-- One entry of the code table: CODE_LEN (10_state R53) and CODE_BITS (10_state R54), c[0] the most significant
of the 256 bits. -/
structure Code where
  len  : Byte
  bits : BitVec 256
  deriving DecidableEq, Repr

/-- BSTATE (10_state R58): its value 3 is never taken, so it has no name. -/
inductive BState where
  | idle
  | merge
  | done
  deriving DecidableEq, Repr

/-- The size of a host access (10_state R60). -/
inductive Size where
  | byte
  | word
  deriving DecidableEq, Repr

/-- What moves next (20_memory R89): a host access, the rst input (70_reset R340), or the controller, which completes
the running command (40_control R141). -/
inductive Turn where
  | read (size : Size) (addr : Word)
  | write (size : Size) (addr : Word) (data : Word)
  | rst
  | controller
  deriving DecidableEq, Repr

/-- The sub-causes of 60_exceptions R310, one name each. -/
inductive Cause where
  | emptyMap | noCode
  | shortCount | zeroCount | countRange | shortHeader | zeroFreq | dupSymbol | padRange | padEmpty
  | midWalk
  | badOpcode | badField
  | outputOverflow
  | noTree | noCodes | noHeader | notMerging
  deriving DecidableEq, Repr

/-- The architectural state. Each field's docstring names its rule; the reset values are 10_state R61's. -/
structure State where
  /-- CMD (10_state R32): the last accepted command word. -/
  cmd : Word
  /-- STATUS.BUSY (10_state R33). -/
  busy : Bool
  /-- STATUS.DONE (10_state R33). -/
  done : Bool
  /-- STATUS.ERR (10_state R33). -/
  err : Bool
  /-- STATUS.CODES_VALID (10_state R33, R53). -/
  codesValid : Bool
  /-- STATUS.HDR_VALID (10_state R33, 45_container_decode R262). -/
  hdrValid : Bool
  /-- STATUS.SINGLE (10_state R50). -/
  single : Bool
  /-- STATUS.HOST_VIOL (10_state R33, 20_memory R84). -/
  hostViol : Bool
  /-- STATUS.BSTATE (10_state R58). -/
  bstate : BState
  /-- STATUS.PHASE while idle (10_state R59). -/
  phase : BitVec 3
  /-- ERRCODE.CODE (10_state R35). -/
  errCode : BitVec 4
  /-- ERRCODE.SUB (10_state R35). -/
  errSub : Byte
  /-- ERRCODE.OP (10_state R35). -/
  errOp : Byte
  /-- ERR_INFO (10_state R36). -/
  errInfo : Word
  /-- CONFIG.STRICT (10_state R37). -/
  strict : Bool
  /-- CONFIG.IRQ_EN (10_state R37). -/
  irqEn : Bool
  /-- IN_LEN (10_state R38). -/
  inLen : Word
  /-- OUT_LEN (10_state R39). -/
  outLen : Word
  /-- NODE_COUNT (10_state R41), range 0 to 511. -/
  nodeCount : NodeIdx
  /-- ACTIVE_COUNT (10_state R42), range 0 to 256. -/
  activeCount : NodeIdx
  /-- ROOT (10_state R43). -/
  root : NodeIdx
  /-- PADDING (10_state R44). -/
  padding : BitVec 3
  /-- PAYLOAD_OFF (10_state R45). -/
  payloadOff : Word
  /-- PAYLOAD_BITS (10_state R46). -/
  payloadBits : BitVec 64
  /-- CAP_IN (10_state R47): the parameter IN_CAP of this block, which no step changes. -/
  capIn : Word
  /-- CAP_OUT (10_state R47): the parameter OUT_CAP of this block, which no step changes. -/
  capOut : Word
  /-- FREQ (10_state R51). -/
  freq : Vector Word 256
  /-- The slots of NODE written since reset (10_state R52), by index. -/
  node : Cells NodeSlot
  /-- The entries of CODE_LEN and CODE_BITS written since reset (10_state R53, R54), by symbol. -/
  code : Cells Code
  /-- The bytes of IN_BUF written since reset (10_state R55), by offset. -/
  inBuf : List Host.Cell
  /-- The bytes of OUT_BUF with a specified content (10_state R56), by offset. -/
  outBuf : List Host.Cell
  /-- The host bus's read data (10_state R60): what the last read returned. -/
  rdata : Word
  /-- The model's own: what moves next, in order (log 2). -/
  turns : List Turn
  /-- The model's own: a counter that free values are applied to (log 10). -/
  draw : Nat
  /-- The model's own: the number of resets so far, which the contents that reset leaves are applied to (log 10). -/
  era : Nat
  deriving DecidableEq, Repr

/-- Why the machine stops. -/
inductive Fault where
  /-- Raised by ASSIGN, and by COMPRESS in its ASSIGN stage, when the node memory below ROOT is no tree of at most 256
  leaves, so that the walk of 43_codec_table R210 goes below 255 edges (43_codec_table R213 says that it never does);
  no run from reset reaches such a state. Safe: the model stops where the spec gives no effect (log 9). -/
  | endlessWalk
  deriving DecidableEq, Repr

/-- Why an instruction has no meaning. -/
inductive Refusal where
  /-- Raised by nothing in this model: every row of the opcode table has its meaning. Safe. -/
  | notModelled (mnemonic : String)
  deriving DecidableEq, Repr

/-- How a command body ends (00_scope R19, 40_control R141): with its writes made, with a raise after the writes made
before it, or stuck. -/
inductive Result where
  | ok (s : State)
  | raised (cause : Cause) (info : Word) (s : State)
  | stuck (f : Fault)
  deriving DecidableEq, Repr

/-- The reset state of the block whose capacities are inCap and outCap (10_state R61). What reset leaves unspecified is
not listed (log 4, log 5). -/
def State.resetOf (inCap outCap : Word) : State where
  cmd := 0
  busy := false
  done := false
  err := false
  codesValid := false
  hdrValid := false
  single := false
  hostViol := false
  bstate := .idle
  phase := 0
  errCode := 0
  errSub := 0
  errOp := 0
  errInfo := 0
  strict := false
  irqEn := false
  inLen := 0
  outLen := 0
  nodeCount := 0
  activeCount := 0
  root := 0
  padding := 0
  payloadOff := 0
  payloadBits := 0
  capIn := inCap
  capOut := outCap
  freq := Vector.replicate 256 0
  node := []
  code := []
  inBuf := []
  outBuf := []
  rdata := 0
  turns := []
  draw := 0
  era := 0

/-- The machine right after reset (10_state R61), with the capacities of Config (log 3). -/
def State.reset : State := State.resetOf Config.inCap Config.outCap

end Sys2Proof.Machine
end

