-- ==== Sys2Proof/Machine/Ops.lean ====
section
/-!
DEFINITION. The named operations: sparse memory, the accessors of the tables and buffers, and the two transitions every
command has, accept (40_control R140) and complete (40_control R141), with completion on error (60_exceptions R313) as
one shared operation, and reset (70_reset R340).
-/

namespace Sys2Proof.Machine

/-- The specified content at a key, none where the key is not listed. -/
def Cells.get? {α : Type} : Cells α → Nat → Option α
  | [], _ => none
  | (k, v) :: m, a => if k = a then some v else Cells.get? m a

/-- Write a content at a key, keeping the keys strictly rising. -/
def Cells.set {α : Type} : Cells α → Nat → α → Cells α
  | [], a, v => [(a, v)]
  | (k, w) :: m, a, v =>
    if a < k then (a, v) :: (k, w) :: m
    else if a = k then (a, v) :: m
    else (k, w) :: Cells.set m a v

/-- The cells that hold a list of contents from a key on. -/
def Cells.ofList {α : Type} : Nat → List α → Cells α
  | _, [] => []
  | a, v :: vs => (a, v) :: Cells.ofList (a + 1) vs

/-- The canonical form: keys strictly rising. An unlisted key has no specified content, so no listed one equals it. -/
abbrev Cells.wf {α : Type} (m : Cells α) : Prop := (m.map Prod.fst).Pairwise (· < ·)

/-- The canonical form of a buffer memory. -/
abbrev Memory.wf (m : List Host.Cell) : Prop := Cells.wf m

/-- The entry FREQ[b] (10_state R51). -/
def State.freqAt (s : State) (b : Byte) : Word := s.freq[b.toNat]'b.isLt

/-- A frequency table with one entry written (10_state R51). -/
def setFreqEntry (t : Vector Word 256) (b : Byte) (v : Word) : Vector Word 256 := t.set b.toNat v b.isLt

/-- The frequency map with every count 0. -/
def zeroFreq : Vector Word 256 := Vector.replicate 256 0

/-- The slot that reads as 0 in every word (10_state R52, slot 511). -/
def zeroSlot : NodeSlot := ⟨0, .leaf, false, 0, 0, 0⟩

/-- What a slot not written since reset holds (10_state R61, log 4). -/
def resetSlot (era : Nat) (i : NodeIdx) : NodeSlot where
  weight := Config.resetWeight era i
  kind := if Config.resetInternal era i then .internal else .leaf
  active := Config.resetActive era i
  symbol := Config.resetSymbol era i
  zero := Config.resetZero era i
  one := Config.resetOne era i

/-- The slot NODE[i] (10_state R52): slot 511 always reads 0, a slot not written since reset is unspecified. -/
def State.nodeAt (s : State) (i : NodeIdx) : NodeSlot :=
  if i = 511 then zeroSlot else (Cells.get? s.node i.toNat).getD (resetSlot s.era i)

/-- Write NODE[i] (10_state R52): slot 511 is never written. -/
def State.setNode (s : State) (i : NodeIdx) (v : NodeSlot) : State :=
  { s with node := if i = 511 then s.node else Cells.set s.node i.toNat v }

/-- CODE_LEN[b] and CODE_BITS[b] (10_state R53, R54): unspecified before the first ASSIGN since reset. -/
def State.codeAt (s : State) (b : Byte) : Code :=
  (Cells.get? s.code b.toNat).getD ⟨Config.resetCodeLen s.era b, Config.resetCodeBits s.era b⟩

/-- IN_BUF[j] (10_state R55): unspecified where the host has not written since reset. -/
def State.inByte (s : State) (j : Nat) : Byte :=
  (Cells.get? s.inBuf j).getD (Config.resetInByte s.era j)

/-- OUT_BUF[j] (10_state R56): unspecified at OUT_LEN and above, and where nothing specified is stored. -/
def State.outByte (s : State) (j : Nat) : Byte :=
  if j < s.outLen.toNat then (Cells.get? s.outBuf j).getD (Config.outByte s.draw j) else Config.outByte s.draw j

/-- ERRCODE.CODE of a sub-cause (60_exceptions R310). -/
def Cause.code : Cause → BitVec 4
  | .emptyMap | .noCode => 1
  | .shortCount | .zeroCount | .countRange | .shortHeader | .zeroFreq | .dupSymbol | .padRange | .padEmpty => 2
  | .midWalk => 3
  | .badOpcode | .badField => 4
  | .outputOverflow => 5
  | .noTree | .noCodes | .noHeader | .notMerging => 6

/-- ERRCODE.SUB of a sub-cause (60_exceptions R310). -/
def Cause.sub : Cause → Byte
  | .emptyMap => 1
  | .noCode => 2
  | .shortCount => 1
  | .zeroCount => 2
  | .countRange => 3
  | .shortHeader => 4
  | .zeroFreq => 5
  | .dupSymbol => 6
  | .padRange => 7
  | .padEmpty => 8
  | .midWalk => 1
  | .badOpcode => 1
  | .badField => 2
  | .outputOverflow => 1
  | .noTree => 1
  | .noCodes => 2
  | .noHeader => 3
  | .notMerging => 4

/-- Accept of the word w (40_control R140). -/
def State.accept (s : State) (w : Word) : State :=
  { s with
    cmd := w, done := false, err := false, errCode := 0, errSub := 0, errOp := 0, errInfo := 0, busy := true }

/-- The writes of every complete transition (40_control R141); the bytes of OUT_BUF without a specified content are
drawn again (log 5). -/
def State.completed (s : State) : State :=
  { s with busy := false, phase := 0, done := true, draw := s.draw + 1 }

/-- Completion on error (60_exceptions R313), in addition to the writes of 40_control R141. spoils says that the command
is one of PACK, DECODE, COMPRESS and DECOMPRESS, which leave OUT_BUF unspecified. -/
def State.takeError (s : State) (spoils : Bool) (cause : Cause) (info : Word) : State :=
  { s.completed with
    errCode := cause.code, errSub := cause.sub, errOp := opField s.cmd, errInfo := info, err := true, outLen := 0,
    outBuf := if spoils then [] else s.outBuf }

/-- Run one body after another; a raise ends the whole command (40_control R145, 00_scope R19). -/
def Result.andThen (r : Result) (f : State → Result) : Result :=
  match r with
  | .ok s => f s
  | .raised c info s => .raised c info s
  | .stuck e => .stuck e

/-- The complete transition after a body (40_control R141, 60_exceptions R313). -/
def Result.finish (spoils : Bool) (r : Result) : Host.Outcome State Fault Refusal :=
  match r with
  | .ok s => .next s.completed
  | .raised c info s => .next (s.takeError spoils c info)
  | .stuck e => .fault e

/-- The reset transition (70_reset R340, R341): every state element takes its reset value, whatever was running. The
capacities are constants of the block; what the reset leaves unspecified is drawn anew. -/
def State.rst (s : State) : State :=
  { State.resetOf s.capIn s.capOut with turns := s.turns, draw := s.draw + 1, era := s.era + 1 }

/-- The command the running word selects (40_control R141, 20_memory R93): the block fetches nothing else. -/
def State.command (s : State) : Except Illegal Instr := decode s.cmd

end Sys2Proof.Machine
end

