-- ==== Sys2Proof/Machine/Flags.lean ====
section
/-!
DEFINITION. The status and error words (10_state R33, R35), the interrupt line (60_exceptions R316), the phases of a
command (10_state R59), and the flag changes that several rules share.
-/

namespace Sys2Proof.Machine

/-- BSTATE as STATUS shows it (10_state R58). -/
def BState.bits : BState → BitVec 2
  | .idle => 0
  | .merge => 1
  | .done => 2

/-- TREE_VALID (10_state R49): not stored, it reads as BSTATE = 2. -/
def State.treeValid (s : State) : Bool := s.bstate = .done

/-- A STATUS word laid out from its fields (10_state R33); the reserved bits read 0. -/
def statusLayout (phase : BitVec 3) (bstate : BitVec 2)
    (hostViol single hdrValid codesValid treeValid err done busy : Bool) : Word :=
  (0 : BitVec 17) ++ phase ++ (0 : BitVec 2) ++ bstate ++ BitVec.ofBool hostViol ++ BitVec.ofBool single ++
    BitVec.ofBool hdrValid ++ BitVec.ofBool codesValid ++ BitVec.ofBool treeValid ++ BitVec.ofBool err ++
    BitVec.ofBool done ++ BitVec.ofBool busy

/-- STATUS as an idle read returns it (10_state R33). -/
def State.statusWord (s : State) : Word :=
  statusLayout s.phase s.bstate.bits s.hostViol s.single s.hdrValid s.codesValid s.treeValid s.err s.done s.busy

/-- ERRCODE (10_state R35); the reserved bits read 0. -/
def State.errcodeWord (s : State) : Word := (0 : Byte) ++ s.errOp ++ s.errSub ++ (0 : BitVec 4) ++ s.errCode

/-- CONFIG (10_state R37); the reserved bits read 0. -/
def State.configWord (s : State) : Word := (0 : BitVec 30) ++ BitVec.ofBool s.irqEn ++ BitVec.ofBool s.strict

/-- The interrupt output (60_exceptions R316). -/
def State.irq (s : State) : Bool := s.done && s.irqEn

/-- The phases a running command passes through (10_state R59 and the command rules of files 41 to 46). The spec lists
none for NOP and CLEAR: any phase that is taken (log 7). -/
def Instr.phases : Instr → List (BitVec 3)
  | .nop | .clear => [0, 1, 2, 3, 4, 5, 6]
  | .scan => [1]
  | .build | .buildInit | .buildStep _ => [2]
  | .assign => [3]
  | .pack => [4]
  | .parse => [5]
  | .decode => [6]
  | .compress => [1, 2, 3, 4]
  | .decompress => [5, 2, 6]

/-- The phases of the running word; the spec lists none for an illegal word: any phase that is taken (log 7). -/
def State.runningPhases (s : State) : List (BitVec 3) :=
  match s.command with
  | .ok i => Instr.phases i
  | .error _ => [0, 1, 2, 3, 4, 5, 6]

/-- One of the given phases, chosen freely (10_state R59). -/
def pickPhase (ps : List (BitVec 3)) (choice : Nat) : BitVec 3 := ps.getD (choice % ps.length) 0

/-- STATUS as a read while BUSY = 1 returns it (10_state R34): BUSY = 1, DONE = 0, ERR = 0, the current HOST_VIOL, a phase
of the running command, every other field unspecified; the reserved bits read 0 (10_state R48). -/
def State.busyStatusWord (s : State) : Word :=
  let u := Config.busyWord s.draw
  statusLayout (pickPhase s.runningPhases (Config.busyPhase s.draw)) (u.extractLsb' 8 2) s.hostViol (u.getLsbD 6)
    (u.getLsbD 5) (u.getLsbD 4) (u.getLsbD 3) false false true

/-- A change of FREQ drops the tree and the codes (10_state R51, 41_frequency_scan R160, 45_container_decode R260). -/
def State.dropTree (s : State) : State := { s with bstate := .idle, single := false, codesValid := false }

/-- A host violation (20_memory R84). -/
def State.violate (s : State) : State := { s with hostViol := true }

end Sys2Proof.Machine
end

