-- ==== Sys2Proof/Machine/Operands.lean ====
section
/-!
DEFINITION. What the command bodies read and compute from the state: SYM_COUNT, the input bytes, big-endian fields
(00_scope R17), payload bits (00_scope R18), code strings (10_state R54) and the container's sizes (44_bitstream_pack).
-/

namespace Sys2Proof.Machine

/-- The symbols, counted from i on, whose entry in a list of counts is not zero. -/
def presentFrom : Nat → List Word → List Byte
  | _, [] => []
  | i, f :: fs => if f = 0 then presentFrom (i + 1) fs else BitVec.ofNat 8 i :: presentFrom (i + 1) fs

/-- The symbols with a non-zero count, in ascending order (42_tree_builder R183, 44_bitstream_pack R232). -/
def State.presentSymbols (s : State) : List Byte := presentFrom 0 s.freq.toList

/-- SYM_COUNT (10_state R40), computed and not stored. -/
def State.symCount (s : State) : Nat := s.presentSymbols.length

/-- IN_BUF[0 .. IN_LEN-1] in order. -/
def State.inBytes (s : State) : List Byte := (List.range s.inLen.toNat).map s.inByte

/-- BE16(a) of IN_BUF (00_scope R17). -/
def State.be16 (s : State) (a : Nat) : Nat := (s.inByte a).toNat * 2 ^ 8 + (s.inByte (a + 1)).toNat

/-- BE32(a) of IN_BUF (00_scope R17). -/
def State.be32 (s : State) (a : Nat) : Word :=
  s.inByte a ++ s.inByte (a + 1) ++ s.inByte (a + 2) ++ s.inByte (a + 3)

/-- PBit(IN_BUF, base, j) (00_scope R18): bit 0 of the payload is the most significant bit of its first byte. -/
def State.payloadBit (s : State) (base j : Nat) : Bool := (s.inByte (base + j / 8)).getLsbD (7 - j % 8)

/-- The two bytes MemWrite writes for a 16-bit value, most significant first (00_scope R17). -/
def bytes16 (k : Nat) : List Byte := [BitVec.ofNat 8 (k / 2 ^ 8), BitVec.ofNat 8 k]

/-- The four bytes MemWrite writes for a 32-bit value, most significant first (00_scope R17). -/
def bytes32 (v : Word) : List Byte :=
  [v.extractLsb' 24 8, v.extractLsb' 16 8, v.extractLsb' 8 8, v.extractLsb' 0 8]

/-- CODE_BITS of a code string (10_state R54): c[0] is the most significant of the 256 bits, and so on down; the bits
past the string's end are 0. -/
def bitsOfPath : List Bool → BitVec 256
  | [] => 0
  | b :: p => bitsOfPath p >>> 1 ||| (if b then BitVec.twoPow 256 255 else 0)

/-- The code table entry of a code string (43_codec_table R210). -/
def codeOfPath (p : List Bool) : Code := ⟨BitVec.ofNat 8 p.length, bitsOfPath p⟩

/-- The code string of an entry (10_state R54): its first CODE_LEN bits, c[0] first. -/
def Code.string (c : Code) : List Bool := (List.range c.len.toNat).map fun t => c.bits.getMsbD t

/-- The header size of a container with k entries (44_bitstream_pack R234). -/
def headerSize (k : Nat) : Nat := 2 + 5 * k + 1

/-- The padding count of a payload of n bits (44_bitstream_pack R235). -/
def padCount (n : Nat) : Nat := (8 - n % 8) % 8

/-- The byte whose bits, most significant first, are given (44_bitstream_pack R237). -/
def byteOfBits (b7 b6 b5 b4 b3 b2 b1 b0 : Bool) : Byte :=
  BitVec.ofBool b7 ++ BitVec.ofBool b6 ++ BitVec.ofBool b5 ++ BitVec.ofBool b4 ++ BitVec.ofBool b3 ++ BitVec.ofBool b2 ++
    BitVec.ofBool b1 ++ BitVec.ofBool b0

/-- The bytes of a bit string whose length is a multiple of 8 (44_bitstream_pack R237). -/
def bytesOfBits : List Bool → List Byte
  | b7 :: b6 :: b5 :: b4 :: b3 :: b2 :: b1 :: b0 :: rest => byteOfBits b7 b6 b5 b4 b3 b2 b1 b0 :: bytesOfBits rest
  | _ => []

end Sys2Proof.Machine
end

