-- ==== Sys2Proof/Machine/Bus.lean ====
section
/-!
DEFINITION. The host's side (20_memory): the address map, reads and writes while idle and while a command runs, host
violations.
-/

namespace Sys2Proof.Machine

/-- The CSRs by name (10_state R31). -/
inductive Csr where
  | id | cmd | status | errcode | errInfo | config | inLen | outLen | symCount | nodeCount | activeCount | root | padding
  | payloadOff | payloadBitsLo | payloadBitsHi | capIn | capOut
  deriving DecidableEq, Repr

/-- What an address names (20_memory R80). -/
inductive Place where
  | csr (r : Csr)
  /-- A reserved CSR offset, 0x048 to 0x0FC (10_state R48). -/
  | reserved
  | freq (b : Byte)
  | codeLen (b : Byte)
  | node (i : NodeIdx) (w : BitVec 2)
  | codeBits (b : Byte) (w : BitVec 3)
  | inBuf (j : Nat)
  | outBuf (j : Nat)
  deriving DecidableEq, Repr

/-- The offset of a CSR (10_state R31). -/
def Csr.offset : Csr → Nat
  | .id => 0x000
  | .cmd => 0x004
  | .status => 0x008
  | .errcode => 0x00C
  | .errInfo => 0x010
  | .config => 0x014
  | .inLen => 0x018
  | .outLen => 0x01C
  | .symCount => 0x020
  | .nodeCount => 0x024
  | .activeCount => 0x028
  | .root => 0x02C
  | .padding => 0x030
  | .payloadOff => 0x034
  | .payloadBitsLo => 0x038
  | .payloadBitsHi => 0x03C
  | .capIn => 0x040
  | .capOut => 0x044

/-- Every CSR (10_state R31). -/
def allCsrs : List Csr :=
  [.id, .cmd, .status, .errcode, .errInfo, .config, .inLen, .outLen, .symCount, .nodeCount, .activeCount, .root, .padding,
    .payloadOff, .payloadBitsLo, .payloadBitsHi, .capIn, .capOut]

/-- What a word-aligned offset of the CSR window names (10_state R31, R48). -/
def csrPlace (offset : Nat) : Place :=
  match allCsrs.find? fun r => r.offset = offset with
  | some r => .csr r
  | none => .reserved

/-- The base of the IN_BUF window (20_memory R80). -/
def inBase : Nat := 0x10000000

/-- The base of the OUT_BUF window (20_memory R80). -/
def outBase : Nat := 0x20000000

/-- What an access of the given size names at an address (20_memory R80): none when the address is unmapped, or the window
does not take the size or the alignment (20_memory R84 (a), (b), (c)). That a byte or misaligned write to a reserved CSR offset is
among these, by R84 (b) and against 10_state R48, is the model's choice (log 16). -/
def State.place (s : State) (size : Size) (addr : Word) : Option Place :=
  let a := addr.toNat
  if a < 0x6000 then
    if size = .word ∧ a % 4 = 0 then
      if a < 0x100 then some (csrPlace a)
      else if a < 0x400 then none
      else if a < 0x800 then some (.freq (BitVec.ofNat 8 ((a - 0x400) / 4)))
      else if a < 0xC00 then some (.codeLen (BitVec.ofNat 8 ((a - 0x800) / 4)))
      else if a < 0x2000 then none
      else if a < 0x4000 then some (.node (BitVec.ofNat 9 ((a - 0x2000) / 16)) (BitVec.ofNat 2 (a / 4 % 4)))
      else some (.codeBits (BitVec.ofNat 8 ((a - 0x4000) / 32)) (BitVec.ofNat 3 (a / 4 % 8)))
    else none
  else if inBase ≤ a ∧ a < inBase + s.capIn.toNat then
    if size = .byte then some (.inBuf (a - inBase)) else none
  else if outBase ≤ a ∧ a < outBase + s.capOut.toNat then
    if size = .byte then some (.outBuf (a - outBase)) else none
  else none

/-- Word w of a node slot (10_state R52). -/
def NodeSlot.word (n : NodeSlot) (w : BitVec 2) : Word :=
  if w = 0 then n.weight.setWidth 32
  else if w = 1 then
    (0 : Byte) ++ n.symbol ++ (0 : BitVec 6) ++ BitVec.ofBool n.active ++ BitVec.ofBool (n.kind = .internal) ++
      n.weight.extractLsb' 32 8
  else if w = 2 then (0 : BitVec 7) ++ n.one ++ (0 : BitVec 7) ++ n.zero
  else 0

/-- Word w of the CODE_BITS of an entry (10_state R54): c[32w] is its bit 31. -/
def Code.word (c : Code) (w : BitVec 3) : Word := c.bits.extractLsb' (224 - 32 * w.toNat) 32

/-- The value of a CSR while idle (10_state R31 to R47). -/
def State.csrValue (s : State) : Csr → Word
  | .id => 0x48554631
  | .cmd => s.cmd
  | .status => s.statusWord
  | .errcode => s.errcodeWord
  | .errInfo => s.errInfo
  | .config => s.configWord
  | .inLen => s.inLen
  | .outLen => s.outLen
  | .symCount => BitVec.ofNat 32 s.symCount
  | .nodeCount => s.nodeCount.setWidth 32
  | .activeCount => s.activeCount.setWidth 32
  | .root => s.root.setWidth 32
  | .padding => s.padding.setWidth 32
  | .payloadOff => s.payloadOff
  | .payloadBitsLo => s.payloadBits.extractLsb' 0 32
  | .payloadBitsHi => s.payloadBits.extractLsb' 32 32
  | .capIn => s.capIn
  | .capOut => s.capOut

/-- What a read returns while idle (20_memory R88); a byte is zero-extended (log 8). -/
def State.idleValue (s : State) : Place → Word
  | .csr r => s.csrValue r
  | .reserved => 0
  | .freq b => s.freqAt b
  | .codeLen b => (s.codeAt b).len.setWidth 32
  | .node i w => (s.nodeAt i).word w
  | .codeBits b w => (s.codeAt b).word w
  | .inBuf j => (s.inByte j).setWidth 32
  | .outBuf j => (s.outByte j).setWidth 32

/-- What a read returns while BUSY = 1 (20_memory R87): exact for ID, CMD, CONFIG, IN_LEN, CAP_IN and CAP_OUT, STATUS by
10_state R34, every other one unspecified, a reserved offset and slot 511 of NODE among them (log 6). -/
def State.busyValue (s : State) : Place → Word
  | .csr .id => s.csrValue .id
  | .csr .cmd => s.csrValue .cmd
  | .csr .config => s.csrValue .config
  | .csr .inLen => s.csrValue .inLen
  | .csr .capIn => s.csrValue .capIn
  | .csr .capOut => s.csrValue .capOut
  | .csr .status => s.busyStatusWord
  | .csr _ => Config.busyWord s.draw
  | .reserved => Config.busyWord s.draw
  | .freq _ => Config.busyWord s.draw
  | .codeLen _ => Config.busyWord s.draw
  | .node _ _ => Config.busyWord s.draw
  | .codeBits _ _ => Config.busyWord s.draw
  | .inBuf _ => ((Config.busyWord s.draw).extractLsb' 0 8).setWidth 32
  | .outBuf _ => ((Config.busyWord s.draw).extractLsb' 0 8).setWidth 32

/-- A host read (20_memory R84, R87, R88): a violating read returns 0; each busy read is a draw of its own. That a read of an
unmapped address while BUSY = 1 is a violation, by R84 (a) and against R87's first sentence, is the model's choice (log 15). -/
def State.hostRead (s : State) (size : Size) (addr : Word) : State :=
  match s.place size addr with
  | none => { s.violate with rdata := 0 }
  | some p =>
    if s.busy then { s with rdata := s.busyValue p, draw := s.draw + 1 } else { s with rdata := s.idleValue p }

/-- A write to STATUS while idle (10_state R33): write-one-to-clear of DONE and HOST_VIOL. -/
def State.writeStatus (s : State) (data : Word) : State :=
  { s with done := s.done && !data.getLsbD 1, hostViol := s.hostViol && !data.getLsbD 7 }

/-- A write to CONFIG while idle (10_state R37). -/
def State.writeConfig (s : State) (data : Word) : State :=
  { s with strict := data.getLsbD 0, irqEn := data.getLsbD 1 }

/-- A write to IN_LEN while idle (10_state R38): above IN_CAP it is a violation (20_memory R84 (f)). -/
def State.writeInLen (s : State) (data : Word) : State :=
  if data ≤ s.capIn then { s with inLen := data, hdrValid := false } else s.violate

/-- A write to FREQ[b] while idle (10_state R51). -/
def State.writeFreq (s : State) (b : Byte) (data : Word) : State :=
  { s.dropTree with freq := setFreqEntry s.freq b data }

/-- A write to IN_BUF[j] while idle (10_state R55). -/
def State.writeInBuf (s : State) (j : Nat) (data : Byte) : State :=
  { s with inBuf := Cells.set s.inBuf j data, hdrValid := false }

/-- A write while idle (20_memory R88); a write to a read-only place is a violation (20_memory R84 (d)). -/
def State.idleWrite (s : State) (data : Word) : Place → State
  | .csr .cmd => s.accept data
  | .csr .status => s.writeStatus data
  | .csr .config => s.writeConfig data
  | .csr .inLen => s.writeInLen data
  | .csr _ => s.violate
  | .reserved => s
  | .freq b => s.writeFreq b data
  | .inBuf j => s.writeInBuf j (data.extractLsb' 0 8)
  | .codeLen _ | .node _ _ | .codeBits _ _ | .outBuf _ => s.violate

/-- A host write (20_memory R84, R86): while BUSY = 1 every write is a violation. That this takes in a write to a reserved CSR
offset, as R86 says and against 10_state R48, is the model's choice (log 14). -/
def State.hostWrite (s : State) (size : Size) (addr data : Word) : State :=
  if s.busy then s.violate
  else
    match s.place size addr with
    | none => s.violate
    | some p => s.idleWrite data p

/-- The next turn is taken off the list (log 2). -/
def State.popTurn (s : State) : State := { s with turns := s.turns.tail }

/-- The state in which the word w has been accepted and the controller moves next (40_control R140; log 1). -/
def State.withAccepted (s : State) (w : Word) : State := { s.accept w with turns := .controller :: s.turns }

end Sys2Proof.Machine
end

