-- ==== Sys2Proof/Machine/Codec.lean ====
section
/-!
DEFINITION. ASSIGN (43_codec_table R210): the code table by a walk of the tree.
-/

namespace Sys2Proof.Machine

/-- The code table with no codes: CODE_LEN 0 and CODE_BITS 0 for all 256 symbols (43_codec_table R210). -/
def emptyCodes : Cells Code := Cells.ofList 0 (List.replicate 256 ⟨0, 0⟩)

/-- Walk(i, p) of 43_codec_table R210, adding to the table: none when the walk goes below the given number of levels. -/
def walk (s : State) : Nat → NodeIdx → List Bool → Cells Code → Option (Cells Code)
  | 0, _, _, _ => none
  | levels + 1, i, p, t =>
    match (s.nodeAt i).kind with
    | .leaf => some (Cells.set t (s.nodeAt i).symbol.toNat (codeOfPath p))
    | .internal =>
      match walk s levels (s.nodeAt i).zero (p ++ [false]) t with
      | none => none
      | some t' => walk s levels (s.nodeAt i).one (p ++ [true]) t'

/-- The code table of the current tree (43_codec_table R210): the single-leaf code "0" (R215), else the walk, whose
paths have at most 255 edges (R213), so 256 levels. -/
def State.codeTable (s : State) : Option (Cells Code) :=
  if s.single then some (Cells.set emptyCodes (s.nodeAt s.root).symbol.toNat (codeOfPath [false]))
  else walk s 256 s.root [] emptyCodes

/-- The body of ASSIGN (43_codec_table R210). -/
def assignBody (s : State) : Result :=
  if s.bstate = .done then
    match s.codeTable with
    | some t => .ok { s with code := t, codesValid := true }
    | none => .stuck .endlessWalk
  else .raised .noTree 0 s

/-- ASSIGN (43_codec_table R210). -/
def execAssign (s : State) : Host.Outcome State Fault Refusal := Result.finish false (assignBody s)

end Sys2Proof.Machine
end

