-- ==== Sys2Proof/Machine/Container.lean ====
section
/-!
DEFINITION. PARSE (45_container_decode R260) and DECODE (45_container_decode R270).
-/

namespace Sys2Proof.Machine

/-- The entries of the header's symbol table (45_container_decode R260): n more from entry i on, after the entries seen.
A defect is reported with the offset of its entry, a zero count before a repeated symbol (60_exceptions R312). -/
def State.parseEntries (s : State) : Nat → Nat → List (Byte × Word) → Except (Cause × Nat) (List (Byte × Word))
  | 0, _, seen => .ok seen
  | n + 1, i, seen =>
    let e := 2 + 5 * i
    let b := s.inByte e
    let f := s.be32 (e + 1)
    if f = 0 then .error (.zeroFreq, e)
    else if seen.any (·.1 = b) then .error (.dupSymbol, e)
    else s.parseEntries n (i + 1) (seen ++ [(b, f)])

/-- The frequency map of a list of entries (45_container_decode R262): 0 for the symbols not listed. -/
def freqOfEntries (es : List (Byte × Word)) : Vector Word 256 :=
  es.foldl (fun t e => setFreqEntry t e.1 e.2) zeroFreq

/-- What the header says, all its checks made: the entries and the padding count. -/
def State.parseHeader (s : State) : Except (Cause × Nat) (List (Byte × Word) × Nat) :=
  let n := s.inLen.toNat
  let k := s.be16 0
  if n < 2 then .error (.shortCount, n)
  else if k = 0 then .error (.zeroCount, 0)
  else if 256 < k then .error (.countRange, 0)
  else if n < headerSize k then .error (.shortHeader, n)
  else
    match s.parseEntries k 0 [] with
    | .error d => .error d
    | .ok entries =>
      let pad := (s.inByte (2 + 5 * k)).toNat
      if 7 < pad then .error (.padRange, 2 + 5 * k)
      else if n = headerSize k ∧ pad ≠ 0 then .error (.padEmpty, 2 + 5 * k)
      else .ok (entries, pad)

/-- The body of PARSE (45_container_decode R260): HDR_VALID is cleared first, and every check precedes every other write. -/
def parseBody (s : State) : Result :=
  match s.parseHeader with
  | .error (c, info) => .raised c (BitVec.ofNat 32 info) { s with hdrValid := false }
  | .ok (entries, pad) =>
    let k := s.be16 0
    .ok { s.dropTree with
      freq := freqOfEntries entries
      padding := BitVec.ofNat 3 pad
      payloadOff := BitVec.ofNat 32 (headerSize k)
      payloadBits := BitVec.ofNat 64 (8 * (s.inLen.toNat - headerSize k) - pad)
      hdrValid := true }

/-- Where the decode walk stands (45_container_decode R270): the cursor, the number of bits since the last emitted
symbol, and the symbols emitted so far. -/
structure Cursor where
  cur     : NodeIdx
  pending : Nat
  out     : List Byte
  deriving DecidableEq, Repr

/-- Emit(s) of 45_container_decode R270: a symbol past OUT_CAP raises OutputOverflow (R274); the walk restarts at ROOT. -/
def State.emit (s : State) (c : Cursor) (b : Byte) : Except Cause Cursor :=
  if c.out.length = s.capOut.toNat then .error .outputOverflow else .ok ⟨s.root, 0, c.out ++ [b]⟩

/-- One payload bit of the decode walk (45_container_decode R270, R271; R272 for a single-leaf tree). -/
def State.decodeBit (s : State) (c : Cursor) (bit : Bool) : Except Cause Cursor :=
  if s.single then s.emit c (s.nodeAt s.root).symbol
  else
    let next := if bit then (s.nodeAt c.cur).one else (s.nodeAt c.cur).zero
    match (s.nodeAt next).kind with
    | .leaf => s.emit c (s.nodeAt next).symbol
    | .internal => .ok ⟨next, c.pending + 1, c.out⟩

/-- Payload bit j of the input as DECODE takes it (45_container_decode R270): the block reads only IN_BUF[0 .. IN_LEN-1]
(10_state R55, 70_reset R343), so a bit that stands past it, which only a PACK after the PARSE asks for, is a free value
(log 13). -/
def State.inputBit (s : State) (base j : Nat) : Bool :=
  if base + j / 8 < s.inLen.toNat then s.payloadBit base j else Config.unreadBit s.era base j

/-- The depadded payload (45_container_decode R270, R273): PAYLOAD_BITS bits from PAYLOAD_OFF on. -/
def State.payloadBitList (s : State) : List Bool :=
  (List.range s.payloadBits.toNat).map (s.inputBit s.payloadOff.toNat)

/-- The body of DECODE (45_container_decode R270). -/
def decodeBody (s : State) : Result :=
  if s.hdrValid = false then .raised .noHeader 0 s
  else if s.bstate ≠ .done then .raised .noTree 0 s
  else
    match s.payloadBitList.foldlM s.decodeBit ⟨s.root, 0, []⟩ with
    | .error c => .raised c 0 s
    | .ok c =>
      if c.cur ≠ s.root ∧ s.strict then .raised .midWalk (BitVec.ofNat 32 c.pending) s
      else .ok { s with outBuf := Cells.ofList 0 c.out, outLen := BitVec.ofNat 32 c.out.length }

/-- PARSE (45_container_decode R260). -/
def execParse (s : State) : Host.Outcome State Fault Refusal := Result.finish false (parseBody s)

/-- DECODE (45_container_decode R270). -/
def execDecode (s : State) : Host.Outcome State Fault Refusal := Result.finish true (decodeBody s)

end Sys2Proof.Machine
end

