-- ==== Sys2Proof/Machine/Pack.lean ====
section
/-!
DEFINITION. PACK (44_bitstream_pack R230) and the container it writes (44_bitstream_pack R233).
-/

namespace Sys2Proof.Machine

/-- The offset of the first byte of a sequence that has no code (44_bitstream_pack R230), counted from j. -/
def State.firstWithoutCode (s : State) : List Byte → Nat → Option Nat
  | [], _ => none
  | b :: bs, j => if (s.codeAt b).len = 0 then some j else s.firstWithoutCode bs (j + 1)

/-- The encoded payload of a byte sequence (44_bitstream_pack R231): the codes in input order, without separators. -/
def State.payloadOf (s : State) (bs : List Byte) : List Bool := bs.flatMap fun b => (s.codeAt b).string

/-- The payload with its padding bits of value 0 (44_bitstream_pack R236). -/
def padded (p : List Bool) : List Bool := p ++ List.replicate (padCount p.length) false

/-- The symbol table of a container (44_bitstream_pack R232, R233): the present symbols in ascending order, each with its
count, big-endian. -/
def State.tableBytes (s : State) : List Byte := s.presentSymbols.flatMap fun b => b :: bytes32 (s.freqAt b)

/-- The container of FREQ and an encoded payload (44_bitstream_pack R233). -/
def State.container (s : State) (p : List Bool) : List Byte :=
  bytes16 s.symCount ++ s.tableBytes ++ [BitVec.ofNat 8 (padCount p.length)] ++ bytesOfBits (padded p)

/-- The container's size in bytes as PACK computes it before writing (44_bitstream_pack R230, R235). -/
def containerSize (k n : Nat) : Nat := headerSize k + (n + padCount n) / 8

/-- The body of PACK (44_bitstream_pack R230): the three raises come before any write. -/
def packBody (s : State) : Result :=
  if s.codesValid = false then .raised .noCodes 0 s
  else
    match s.firstWithoutCode s.inBytes 0 with
    | some j => .raised .noCode (BitVec.ofNat 32 j) s
    | none =>
      let p := s.payloadOf s.inBytes
      let total := containerSize s.symCount p.length
      if s.capOut.toNat < total then .raised .outputOverflow 0 s
      else
        .ok { s with
          outBuf := Cells.ofList 0 (s.container p)
          outLen := BitVec.ofNat 32 total
          padding := BitVec.ofNat 3 (padCount p.length)
          payloadOff := BitVec.ofNat 32 (headerSize s.symCount)
          payloadBits := BitVec.ofNat 64 p.length }

/-- PACK (44_bitstream_pack R230). -/
def execPack (s : State) : Host.Outcome State Fault Refusal := Result.finish true (packBody s)

end Sys2Proof.Machine
end

