-- ==== Sys2Proof/Machine/Scan.lean ====
section
/-!
DEFINITION. SCAN (41_frequency_scan R160).
-/

namespace Sys2Proof.Machine

/-- Count one more occurrence of a byte (41_frequency_scan R160). -/
def countByte (t : Vector Word 256) (b : Byte) : Vector Word 256 := setFreqEntry t b (t[b.toNat]'b.isLt + 1)

/-- The serial count of a byte sequence (41_frequency_scan R160, R163). -/
def countBytes (bs : List Byte) : Vector Word 256 := bs.foldl countByte zeroFreq

/-- The body of SCAN (41_frequency_scan R160): it cannot raise. -/
def scanBody (s : State) : State := { s.dropTree with freq := countBytes s.inBytes }

/-- SCAN (41_frequency_scan R160). -/
def execScan (s : State) : Host.Outcome State Fault Refusal := Result.finish false (.ok (scanBody s))

end Sys2Proof.Machine
end

