-- ==== Sys2Proof/Machine/Tree.lean ====
section
/-!
DEFINITION. The tree builder (42_tree_builder): BUILD_INIT, the merge step, BUILD_STEP and BUILD.
-/

namespace Sys2Proof.Machine

/-- The leaf of a symbol (42_tree_builder R183). -/
def leafSlot (b : Byte) (count : Word) : NodeSlot := ⟨count.setWidth 40, .leaf, true, b, 0, 0⟩

/-- Write the leaves of the given symbols to the slots from i on (42_tree_builder R183). -/
def loadLeaves : List Byte → Nat → State → State
  | [], _, s => s
  | b :: bs, i, s => loadLeaves bs (i + 1) (s.setNode (BitVec.ofNat 9 i) (leafSlot b (s.freqAt b)))

/-- The body of BUILD_INIT (42_tree_builder R183). -/
def buildInitBody (s : State) : Result :=
  let k := s.symCount
  if k = 0 then
    .raised .emptyMap 0 { s with codesValid := false, bstate := .idle, single := false }
  else
    .ok { loadLeaves s.presentSymbols 0 s with
      codesValid := false
      nodeCount := BitVec.ofNat 9 k
      activeCount := BitVec.ofNat 9 k
      single := k = 1
      root := if k = 1 then 0 else s.root
      bstate := if k = 1 then .done else .merge }

/-- The active set (42_tree_builder R181), by ascending index. -/
def State.activeSet (s : State) : List NodeIdx :=
  ((List.range s.nodeCount.toNat).map (BitVec.ofNat 9)).filter fun i => (s.nodeAt i).active

/-- key(i) < key(j) (00_scope R20): the smaller weight, then the smaller index. -/
def State.keyLt (s : State) (i j : NodeIdx) : Bool :=
  (s.nodeAt i).weight < (s.nodeAt j).weight || ((s.nodeAt i).weight = (s.nodeAt j).weight && i < j)

/-- argmin_key (00_scope R20): none for the empty set. -/
def State.argmin (s : State) : List NodeIdx → Option NodeIdx
  | [] => none
  | i :: rest =>
    match s.argmin rest with
    | none => some i
    | some j => if s.keyLt j i then some j else some i

/-- The two nodes a merge step selects (42_tree_builder R184): the first removed a and the second removed b. An empty set,
which 42_tree_builder R184 excludes, gives a free index (log 9). -/
def State.selection (s : State) : NodeIdx × NodeIdx :=
  let a := (s.argmin s.activeSet).getD (Config.emptySelection s.draw (2 * s.nodeCount.toNat))
  let b := (s.argmin (s.activeSet.filter (· ≠ a))).getD (Config.emptySelection s.draw (2 * s.nodeCount.toNat + 1))
  (a, b)

/-- NODE[i].ACTIVE ← 0 (42_tree_builder R185). -/
def State.deactivate (s : State) (i : NodeIdx) : State := s.setNode i { s.nodeAt i with active := false }

/-- The internal node that replaces a (first removed) and b (second removed): ZERO is b, ONE is a (42_tree_builder R185). -/
def State.parentOf (s : State) (a b : NodeIdx) : NodeSlot :=
  ⟨(s.nodeAt a).weight + (s.nodeAt b).weight, .internal, true, 0, b, a⟩

/-- The node memory after the selected nodes a and b have left the active set and their parent is written at NODE_COUNT
(42_tree_builder R185). -/
def State.mergedNodes (s : State) (a b : NodeIdx) : Cells NodeSlot :=
  (((s.deactivate a).deactivate b).setNode s.nodeCount (s.parentOf a b)).node

/-- MergeStep (42_tree_builder R185). -/
def mergeStep (s : State) : State :=
  let left := s.activeCount - 1
  { s with
    node := s.mergedNodes s.selection.1 s.selection.2
    nodeCount := s.nodeCount + 1
    activeCount := left
    root := if left = 1 then s.nodeCount else s.root
    bstate := if left = 1 then .done else s.bstate }

/-- Up to n merge steps, stopping when the tree is complete (42_tree_builder R186). -/
def mergeSteps : Nat → State → State
  | 0, s => s
  | n + 1, s => if s.bstate = .merge then mergeSteps n (mergeStep s) else s

/-- The body of BUILD_STEP n (42_tree_builder R186). -/
def buildStepBody (n : Nat) (s : State) : Result :=
  if s.bstate = .merge then .ok (mergeSteps n s) else .raised .notMerging 0 s

/-- The body of BUILD (42_tree_builder R188): its loop runs while BSTATE = 1, which is k - 1 merge steps. -/
def buildBody (s : State) : Result := (buildInitBody s).andThen fun t => .ok (mergeSteps (s.symCount - 1) t)

/-- BUILD_INIT (42_tree_builder R183). -/
def execBuildInit (s : State) : Host.Outcome State Fault Refusal := Result.finish false (buildInitBody s)

/-- BUILD_STEP (42_tree_builder R186). -/
def execBuildStep (count : Nat) (s : State) : Host.Outcome State Fault Refusal :=
  Result.finish false (buildStepBody count s)

/-- BUILD (42_tree_builder R188). -/
def execBuild (s : State) : Host.Outcome State Fault Refusal := Result.finish false (buildBody s)

end Sys2Proof.Machine
end

