-- ==== Sys2Proof/Machine/Composite.lean ====
section
/-!
DEFINITION. The composite commands (46_composite): fixed sequences of the bodies, in which a raise ends the whole.
-/

namespace Sys2Proof.Machine

/-- The body of COMPRESS (46_composite R290). -/
def compressBody (s : State) : Result :=
  ((buildBody (scanBody s)).andThen assignBody).andThen packBody

/-- The body of DECOMPRESS (46_composite R291). -/
def decompressBody (s : State) : Result := ((parseBody s).andThen buildBody).andThen decodeBody

/-- COMPRESS (46_composite R290). -/
def execCompress (s : State) : Host.Outcome State Fault Refusal := Result.finish true (compressBody s)

/-- DECOMPRESS (46_composite R291). -/
def execDecompress (s : State) : Host.Outcome State Fault Refusal := Result.finish true (decompressBody s)

end Sys2Proof.Machine
end

