-- ==== Sys2Proof/Machine/Control.lean ====
section
/-!
DEFINITION. The control commands NOP and CLEAR (40_control R143, R144), and the completion of an illegal word
(30_encoding R114).
-/

namespace Sys2Proof.Machine

/-- The body of CLEAR (40_control R144). -/
def clearBody (s : State) : State :=
  { s.dropTree with
    freq := zeroFreq, hdrValid := false, nodeCount := 0, activeCount := 0, root := 0, outLen := 0, padding := 0,
    payloadOff := 0, payloadBits := 0 }

/-- NOP (40_control R143): no body. -/
def execNop (s : State) : Host.Outcome State Fault Refusal := Result.finish false (.ok s)

/-- CLEAR (40_control R144). -/
def execClear (s : State) : Host.Outcome State Fault Refusal := Result.finish false (.ok (clearBody s))

/-- The sub-cause of an illegal word (60_exceptions R310). -/
def Illegal.cause : Illegal → Cause
  | .badOpcode => .badOpcode
  | .badField => .badField

/-- An illegal word completes at once with IllegalCommand and ERR_INFO 0 (30_encoding R114). -/
def execIllegal (e : Illegal) (s : State) : Host.Outcome State Fault Refusal :=
  Result.finish false (.raised (Illegal.cause e) 0 s)

end Sys2Proof.Machine
end

