-- ==== Sys2Proof/Machine/Dispatch.lean ====
section
/-!
DEFINITION. The complete transition of each command (40_control R141): one arm per constructor of Instr.
-/

namespace Sys2Proof.Machine

def exec (i : Instr) (s : State) : Host.Outcome State Fault Refusal :=
  match i with
  | .nop => Sys2Proof.Machine.execNop s
  | .clear => Sys2Proof.Machine.execClear s
  | .scan => Sys2Proof.Machine.execScan s
  | .build => Sys2Proof.Machine.execBuild s
  | .buildInit => Sys2Proof.Machine.execBuildInit s
  | .buildStep count => Sys2Proof.Machine.execBuildStep count s
  | .assign => Sys2Proof.Machine.execAssign s
  | .pack => Sys2Proof.Machine.execPack s
  | .parse => Sys2Proof.Machine.execParse s
  | .decode => Sys2Proof.Machine.execDecode s
  | .compress => Sys2Proof.Machine.execCompress s
  | .decompress => Sys2Proof.Machine.execDecompress s

end Sys2Proof.Machine
end

