-- ==== Sys2Proof/Machine/Step.lean ====
section
/-!
DEFINITION. One step of the machine (20_memory R89): the next turn is a host access, the rst input, or the controller,
which completes the running command. When no turn is listed the controller moves (70_reset R353); an idle block waits.
-/

namespace Sys2Proof.Machine

/-- The complete transition of the running word (40_control R141). -/
def State.complete (s : State) : Host.Outcome State Fault Refusal :=
  match s.command with
  | .ok i => exec i s
  | .error e => execIllegal e s

/-- The controller's turn: it completes the running command; while idle it does nothing (60_exceptions R323). -/
def State.controllerTurn (s : State) : Host.Outcome State Fault Refusal :=
  if s.busy then s.complete else .next s

/-- One step (20_memory R89). -/
def step (s : State) : Host.Outcome State Fault Refusal :=
  match s.turns with
  | [] => s.controllerTurn
  | .controller :: _ => s.popTurn.controllerTurn
  | .read size addr :: _ => .next (s.popTurn.hostRead size addr)
  | .write size addr data :: _ => .next (s.popTurn.hostWrite size addr data)
  | .rst :: _ => .next s.popTurn.rst

/-- The state whose very next step runs the word that the opcode table numbers w: the word has been accepted
(40_control R140) and the controller moves next (log 1). -/
def State.withFetchWord (s : State) (nbits w : Nat) : State := s.withAccepted (tableWord nbits w)

end Sys2Proof.Machine
end

