-- ==== Sys2Proof/Safety.lean ====
section
/-!
DEFINITION. The invariants of the machine, from the spec's own statements about all its reachable states, and what a run
that goes on is.
-/

namespace Sys2Proof.Machine

/-- The capacities are legal (00_scope R12), and the two lengths are within them (10_state R38, 44_bitstream_pack R240). -/
structure State.CapsInv (s : State) : Prop where
  capIn_pos : 1 ≤ s.capIn.toNat
  capIn_le : s.capIn.toNat ≤ 2 ^ 28
  capOut_pos : 1 ≤ s.capOut.toNat
  capOut_le : s.capOut.toNat ≤ 2 ^ 28
  inLen_le : s.inLen.toNat ≤ s.capIn.toNat
  outLen_le : s.outLen.toNat ≤ s.capOut.toNat

/-- The memories are in canonical form and lie inside the tables and buffers of 10_state R52 to R56; slot 511 is never
written. -/
structure State.MemInv (s : State) : Prop where
  node_wf : Cells.wf s.node
  node_lt : ∀ k ∈ s.node.map Prod.fst, k < 511
  code_wf : Cells.wf s.code
  code_lt : ∀ k ∈ s.code.map Prod.fst, k < 256
  in_wf : Memory.wf s.inBuf
  in_lt : ∀ k ∈ s.inBuf.map Prod.fst, k < s.capIn.toNat
  out_wf : Memory.wf s.outBuf
  out_lt : ∀ k ∈ s.outBuf.map Prod.fst, k < s.capOut.toNat

/-- The flags and the error registers: DONE and ERR are 0 while BUSY (10_state R33, R34), PHASE is stored as 0 (10_state
R59), ERRCODE is 0 exactly when no error stands (10_state R35, R36), and a failed command leaves OUT_LEN 0 (60_exceptions
R313). -/
structure State.FlagInv (s : State) : Prop where
  busy_done : s.busy = true → s.done = false ∧ s.err = false
  phase_zero : s.phase = 0
  err_code : s.err = true ↔ s.errCode ≠ 0
  no_err : s.err = false → s.errSub = 0 ∧ s.errOp = 0 ∧ s.errInfo = 0
  code_le : s.errCode.toNat ≤ 6
  err_out : s.err = true → s.outLen = 0

/-- An index of an internal node of the current forest (42_tree_builder R182). -/
def State.isInternal (s : State) (i : NodeIdx) : Prop := s.symCount ≤ i.toNat ∧ i.toNat < s.nodeCount.toNat

/-- p is an internal node with the child i. -/
def State.parent (s : State) (p i : NodeIdx) : Prop :=
  s.isInternal p ∧ ((s.nodeAt p).zero = i ∨ (s.nodeAt p).one = i)

/-- The nodes of a build in progress or complete (42_tree_builder R189, stated for the merge state too). -/
structure State.Forest (s : State) : Prop where
  /-- k leaves and one internal node for each merge so far (10_state R41). -/
  size : s.nodeCount.toNat + s.activeCount.toNat = 2 * s.symCount
  active_pos : 1 ≤ s.activeCount.toNat
  active_le : s.activeCount.toNat ≤ s.symCount
  /-- The leaves are the symbols with a non-zero count, in ascending order, with their counts (42_tree_builder R183). -/
  leaf : ∀ (i : NodeIdx) (b : Byte), s.presentSymbols[i.toNat]? = some b →
    ∃ active, s.nodeAt i = { leafSlot b (s.freqAt b) with active := active }
  /-- An internal node's weight is the exact sum of its children's, which have smaller indices (42_tree_builder R189). -/
  internal : ∀ i, s.isInternal i →
    (s.nodeAt i).kind = .internal ∧ (s.nodeAt i).symbol = 0 ∧ (s.nodeAt i).zero.toNat < i.toNat ∧
      (s.nodeAt i).one.toNat < i.toNat ∧ (s.nodeAt i).zero ≠ (s.nodeAt i).one ∧
      (s.nodeAt i).weight.toNat =
        (s.nodeAt (s.nodeAt i).zero).weight.toNat + (s.nodeAt (s.nodeAt i).one).weight.toNat
  /-- ACTIVE_COUNT counts the active set (10_state R42). -/
  active_count : s.activeSet.length = s.activeCount.toNat
  /-- A node is active exactly while it has no parent. -/
  active_iff : ∀ i : NodeIdx, i.toNat < s.nodeCount.toNat → ((s.nodeAt i).active = true ↔ ∀ p, ¬ s.parent p i)
  /-- No node has two parents (42_tree_builder R189 (e)). -/
  parent_unique : ∀ p q i, s.parent p i → s.parent q i → p = q
  /-- The weights of the active set add up to the counts (42_tree_builder R187). -/
  total : (s.activeSet.map fun i => (s.nodeAt i).weight.toNat).sum =
    (s.presentSymbols.map fun b => (s.freqAt b).toNat).sum

/-- The tree builder's state (10_state R50, R58; 42_tree_builder R189). -/
structure State.TreeInv (s : State) : Prop where
  idle : s.bstate = .idle → s.single = false
  forest : s.bstate ≠ .idle → s.Forest
  single : s.bstate ≠ .idle → s.single = decide (s.symCount = 1)
  merge : s.bstate = .merge → 2 ≤ s.activeCount.toNat
  done : s.bstate = .done → s.activeCount = 1 ∧ s.root.toNat + 1 = s.nodeCount.toNat

/-- CODES_VALID means that the code tables are those of the current tree (10_state R33, R53). -/
def State.CodesInv (s : State) : Prop :=
  s.codesValid = true → s.bstate = .done ∧ s.codeTable = some s.code

/-- The invariant of the machine. -/
structure State.Inv (s : State) : Prop where
  caps : s.CapsInv
  mem : s.MemInv
  flags : s.FlagInv
  tree : s.TreeInv
  codes : s.CodesInv

/-- The code string of a symbol (10_state R53, R54). -/
def State.codeString (s : State) (b : Byte) : List Bool := (s.codeAt b).string

/-- A symbol has a code when its CODE_LEN is not 0 (43_codec_table R210). -/
def State.hasCode (s : State) (b : Byte) : Prop := (s.codeAt b).len ≠ 0

/-- The node that a bit string leads to from a node of the tree, 0 taking the zero-branch and 1 the one-branch
(43_codec_table R212, 45_container_decode R271). -/
def State.follow (s : State) : NodeIdx → List Bool → NodeIdx
  | i, [] => i
  | i, b :: p => s.follow (if b then (s.nodeAt i).one else (s.nodeAt i).zero) p

/-- n steps of the machine, stopping at a fault or a refusal. -/
def runSteps : Nat → State → Host.Outcome State Fault Refusal
  | 0, s => .next s
  | n + 1, s =>
    match step s with
    | .next t => runSteps n t
    | .fault f => .fault f
    | .refused r => .refused r

/-! What claims about a command name: how it ends, and the spec's own counts, sets and bit strings. -/

/-- The writes of a complete transition (40_control R141); draw is the model's own (log 10). -/
def State.succeeded (s : State) : State := { s with busy := false, phase := 0, done := true, draw := s.draw + 1 }

/-- The writes of a complete transition on a raise (40_control R141, 60_exceptions R313). -/
def State.failed (s : State) (code : BitVec 4) (sub : Byte) (info : Word) : State :=
  { s.succeeded with
    errCode := code, errSub := sub, errOp := s.cmd.extractLsb' 0 8, errInfo := info, err := true, outLen := 0 }

/-- The same for PACK, DECODE, COMPRESS and DECOMPRESS, which leave every byte of OUT_BUF unspecified (60_exceptions
R313). -/
def State.spoiled (s : State) (code : BitVec 4) (sub : Byte) (info : Word) : State :=
  { s.failed code sub info with outBuf := [] }

/-- The controller moves next. -/
def State.controllerMoves (s : State) : Prop := s.turns = [] ∨ s.turns.head? = some .controller

/-- A command of a step's controller turn: the block runs it and the step completes it. -/
def State.completes (s : State) (i : Instr) : Prop := s.busy = true ∧ s.controllerMoves ∧ decode s.cmd = .ok i

/-- The number of symbols with a non-zero count (10_state R40). -/
def State.alphabetSize (s : State) : Nat := (List.range 256).countP fun n => s.freqAt (BitVec.ofNat 8 n) ≠ 0

/-- The number of symbols below b with a non-zero count: the index of b's leaf (42_tree_builder R182) and of b's entry in a
symbol table (44_bitstream_pack R232). -/
def State.rank (s : State) (b : Byte) : Nat := (List.range b.toNat).countP fun n => s.freqAt (BitVec.ofNat 8 n) ≠ 0

/-- A member of the active set (42_tree_builder R181). -/
def State.isActive (s : State) (i : NodeIdx) : Prop := i.toNat < s.nodeCount.toNat ∧ (s.nodeAt i).active = true

/-- key(i) < key(j) (00_scope R20). -/
def State.keyBelow (s : State) (i j : NodeIdx) : Prop :=
  (s.nodeAt i).weight.toNat < (s.nodeAt j).weight.toNat ∨
    ((s.nodeAt i).weight = (s.nodeAt j).weight ∧ i.toNat < j.toNat)

/-- The path from ROOT to a leaf of the symbol b (43_codec_table R212): not empty, at internal nodes before its end. -/
structure State.IsPath (s : State) (p : List Bool) (b : Byte) : Prop where
  nonempty : p ≠ []
  inner : ∀ m < p.length, (s.nodeAt (s.follow s.root (p.take m))).kind = .internal
  leaf : (s.nodeAt (s.follow s.root p)).kind = .leaf
  symbol : (s.nodeAt (s.follow s.root p)).symbol = b

/-- The length in bits of the encoded payload of the input (44_bitstream_pack R231). -/
def State.payloadLength (s : State) : Nat :=
  ((List.range s.inLen.toNat).map fun j => (s.codeAt (s.inByte j)).len.toNat).sum

/-- The container size for k symbols and a payload of n bits (44_bitstream_pack R240). -/
def sizeOfContainer (k n : Nat) : Nat := 2 + 5 * k + 1 + (n + 7) / 8

/-- PBit(IN_BUF, base, j) (00_scope R18) inside the input, and past it, where the block reads no byte (10_state R55), a free
value: the model's choice (log 13). -/
def State.inBit (s : State) (base j : Nat) : Bool :=
  if base + j / 8 < s.inLen.toNat then (s.inByte (base + j / 8)).getLsbD (7 - j % 8) else Config.unreadBit s.era base j

/-- PBit(OUT_BUF, base, j) (00_scope R18). -/
def State.outBit (s : State) (base j : Nat) : Bool := (s.outByte (base + j / 8)).getLsbD (7 - j % 8)

/-- symbol_count of the container in IN_BUF (44_bitstream_pack R233). -/
def State.headerCount (s : State) : Nat := (s.inByte 0).toNat * 2 ^ 8 + (s.inByte 1).toNat

/-- freq_i of the container in IN_BUF (44_bitstream_pack R233). -/
def State.headerFreq (s : State) (i : Nat) : Nat :=
  (s.inByte (3 + 5 * i)).toNat * 2 ^ 24 + (s.inByte (4 + 5 * i)).toNat * 2 ^ 16 + (s.inByte (5 + 5 * i)).toNat * 2 ^ 8 +
    (s.inByte (6 + 5 * i)).toNat

/-- Entry i of the container's symbol table repeats the symbol of an earlier one (45_container_decode R260). -/
def State.entryRepeats (s : State) (i : Nat) : Prop := ∃ j < i, s.inByte (2 + 5 * j) = s.inByte (2 + 5 * i)

/-- Entry i of the container's symbol table has no defect (45_container_decode R260). -/
def State.entryOk (s : State) (i : Nat) : Prop := s.headerFreq i ≠ 0 ∧ ¬ s.entryRepeats i

/-- A mapped address (20_memory R80). -/
def State.mapped (s : State) (a : Nat) : Prop :=
  a ≤ 0xFF ∨ (0x400 ≤ a ∧ a ≤ 0xBFF) ∨ (0x2000 ≤ a ∧ a ≤ 0x5FFF) ∨
    (0x10000000 ≤ a ∧ a < 0x10000000 + s.capIn.toNat) ∨ (0x20000000 ≤ a ∧ a < 0x20000000 + s.capOut.toNat)

/-- Host violations (a), (b) and (c) of 20_memory R84. That they take in an unmapped read while BUSY = 1, and a byte or misaligned
write to a reserved CSR offset, is the model's choice (logs 15, 16). -/
def State.badAccess (s : State) (size : Size) (a : Nat) : Prop :=
  ¬ s.mapped a ∨ (a < 0x6000 ∧ (size ≠ .word ∨ a % 4 ≠ 0)) ∨ (0x10000000 ≤ a ∧ size ≠ .byte)

/-- The read-only locations of host violation (d) of 20_memory R84, among the mapped and aligned addresses. -/
def readOnlyAddr (a : Nat) : Prop :=
  a = 0x000 ∨ a = 0x00C ∨ a = 0x010 ∨ (0x01C ≤ a ∧ a ≤ 0x047) ∨ (0x800 ≤ a ∧ a ≤ 0xBFF) ∨
    (0x2000 ≤ a ∧ a ≤ 0x5FFF) ∨ 0x20000000 ≤ a

/-- A violating write (20_memory R84 (a) to (f)). That (e) takes in a write to a reserved CSR offset is the model's choice
(log 14). -/
def State.badWrite (s : State) (size : Size) (a : Nat) (data : Word) : Prop :=
  s.badAccess size a ∨ readOnlyAddr a ∨ s.busy = true ∨ (a = 0x018 ∧ s.capIn.toNat < data.toNat)

/-- The rows of the error table (60_exceptions R310): CODE, SUB and the opcodes of the commands that raise it, the two rows of
illegal words apart. -/
def errorRows : List (BitVec 4 × Byte × List Byte) :=
  [(1, 1, [0x21, 0x20, 0x80]), (1, 2, [0x40]), (2, 1, [0x50, 0x81]), (2, 2, [0x50, 0x81]), (2, 3, [0x50, 0x81]),
    (2, 4, [0x50, 0x81]), (2, 5, [0x50, 0x81]), (2, 6, [0x50, 0x81]), (2, 7, [0x50, 0x81]), (2, 8, [0x50, 0x81]),
    (3, 1, [0x51, 0x81]), (5, 1, [0x40, 0x51, 0x80, 0x81]), (6, 1, [0x30, 0x51]), (6, 2, [0x40]), (6, 3, [0x51]),
    (6, 4, [0x22])]

end Sys2Proof.Machine
end

