-- ==== Sys2Proof/Certificates/Slice0/Obligations.lean ====
section
/-!
DEFINITION. The statements for the provers. Each docstring names the rules it formalises; where a clause rests on the model's
own choice, it names the log entry.
-/

open Sys2Proof Sys2Proof.Machine

/-! ### The command word (30_encoding) -/

/-- R110, R111, R113: the decoder reads back every command the encoder writes. -/
def Obligations.DecodeOfEncode : Prop := ∀ i : Instr, i.wf = true → decode (encode i) = .ok i

/-- R110 to R114: a word that decodes is the word of the command it decodes to, so no bit of it is dropped. -/
def Obligations.EncodeOfDecode : Prop :=
  ∀ (w : Word) (i : Instr), decode w = .ok i → i.wf = true ∧ encode i = w

/-- R113: each row of the opcode map, as its match and mask words. -/
def Obligations.OpcodeMapRows : Prop :=
  ∀ w : Word,
    (decode w = .ok .nop ↔ w &&& 0xFFFFFFFF = 0x00000000) ∧
    (decode w = .ok .clear ↔ w &&& 0xFFFFFFFF = 0x00000001) ∧
    (decode w = .ok .scan ↔ w &&& 0xFFFFFFFF = 0x00000010) ∧
    (decode w = .ok .build ↔ w &&& 0xFFFFFFFF = 0x00000020) ∧
    (decode w = .ok .buildInit ↔ w &&& 0xFFFFFFFF = 0x00000021) ∧
    (∀ n, decode w = .ok (.buildStep n) ↔
      w &&& 0xFF0000FF = 0x00000022 ∧ n = (w.extractLsb' 8 16).toNat) ∧
    (decode w = .ok .assign ↔ w &&& 0xFFFFFFFF = 0x00000030) ∧
    (decode w = .ok .pack ↔ w &&& 0xFFFFFFFF = 0x00000040) ∧
    (decode w = .ok .parse ↔ w &&& 0xFFFFFFFF = 0x00000050) ∧
    (decode w = .ok .decode ↔ w &&& 0xFFFFFFFF = 0x00000051) ∧
    (decode w = .ok .compress ↔ w &&& 0xFFFFFFFF = 0x00000080) ∧
    (decode w = .ok .decompress ↔ w &&& 0xFFFFFFFF = 0x00000081)

/-- R113, R116: words written out bit by bit, one of each family. -/
def Obligations.WrittenOutWords : Prop :=
  decodeTableWord 32 0b00000000000000000000000000000000 = some .nop ∧
  decodeTableWord 32 0b00000000000000000000000000000001 = some .clear ∧
  decodeTableWord 32 0b00000000000000000000000000010000 = some .scan ∧
  decodeTableWord 32 0b00000000000000000000001100100010 = some (.buildStep 3) ∧
  decodeTableWord 32 0b00000000000000000000000000110000 = some .assign ∧
  decodeTableWord 32 0b00000000000000000000000001000000 = some .pack ∧
  decodeTableWord 32 0b00000000000000000000000001010001 = some .decode ∧
  decodeTableWord 32 0b00000000000000000000000010000001 = some .decompress

/-- R114: the illegal words, their two sub-causes, that they are accepted, and that they complete changing nothing but what
R140 and R313 change. -/
def Obligations.IllegalWords : Prop :=
  ∀ w : Word,
    (decode w = .error .badOpcode ↔ w.extractLsb' 0 8 ∉
      ([0x00, 0x01, 0x10, 0x20, 0x21, 0x22, 0x30, 0x40, 0x50, 0x51, 0x80, 0x81] : List Byte)) ∧
    (decode w = .error .badField ↔
      w.extractLsb' 0 8 ∈ ([0x00, 0x01, 0x10, 0x20, 0x21, 0x22, 0x30, 0x40, 0x50, 0x51, 0x80, 0x81] : List Byte) ∧
        (w.extractLsb' 24 8 ≠ 0 ∨ (w.extractLsb' 0 8 ≠ 0x22 ∧ w.extractLsb' 8 16 ≠ 0))) ∧
    ∀ s : State, s.busy = false → ∀ e, decode w = .error e →
      ∃ a : State, s.hostWrite .word 0x004 w = a ∧ a.busy = true ∧
        a = { s with cmd := w, done := false, err := false, errCode := 0, errSub := 0, errOp := 0, errInfo := 0,
                     busy := true } ∧
        (s.controllerMoves →
          step a = .next (State.failed { a with turns := s.turns.tail } 4 (if e = .badOpcode then 1 else 2) 0))

/-! ### Steps and transitions (20_memory R89, 40_control R140, R141) -/

/-- R89, R93, R141: what each turn does: a host access, or the controller, which waits while the block is idle and otherwise
runs the whole of the command in CMD. The list of turns is the model's own (log 2). -/
def Obligations.StepRunsDecodedCommand : Prop :=
  ∀ s : State,
    (∀ i, s.busy = true → s.controllerMoves → decode s.cmd = .ok i → step s = exec i { s with turns := s.turns.tail }) ∧
    (s.busy = false → s.controllerMoves → step s = .next { s with turns := s.turns.tail }) ∧
    (∀ size addr rest, s.turns = .read size addr :: rest →
      step s = .next (State.hostRead { s with turns := rest } size addr)) ∧
    ∀ size addr data rest, s.turns = .write size addr data :: rest →
      step s = .next (State.hostWrite { s with turns := rest } size addr data)

/-- R140, R141: after a word of the opcode table is placed, the very next step runs its command in the state that accept leaves
(log 1). -/
def Obligations.PlacedWordRuns : Prop :=
  ∀ (s : State) (nbits w : Nat) (i : Instr), decodeTableWord nbits w = some i →
    step (s.withFetchWord nbits w) = exec i { s with
      cmd := BitVec.ofNat 32 (w % 2 ^ nbits), done := false, err := false, errCode := 0, errSub := 0, errOp := 0,
      errInfo := 0, busy := true }

/-- R140: accept, and a CMD write while a command runs. -/
def Obligations.AcceptWrites : Prop :=
  ∀ (s : State) (w : Word),
    (s.busy = false → s.hostWrite .word 0x004 w = { s with
      cmd := w, done := false, err := false, errCode := 0, errSub := 0, errOp := 0, errInfo := 0, busy := true }) ∧
    (s.busy = true → s.hostWrite .word 0x004 w = { s with hostViol := true })

/-- R81, R93, R141, R164: what no command changes, and what every completion writes; and only the four commands that write
OUT_BUF change a byte of it that has a specified content and stays below OUT_LEN. The fields turns, draw and era are the
model's own (logs 2, 10). -/
def Obligations.CommandFrame : Prop :=
  ∀ (i : Instr) (s t : State), exec i s = .next t →
    t.busy = false ∧ t.done = true ∧ t.phase = 0 ∧
    t.cmd = s.cmd ∧ t.hostViol = s.hostViol ∧ t.strict = s.strict ∧ t.irqEn = s.irqEn ∧ t.inLen = s.inLen ∧
    t.capIn = s.capIn ∧ t.capOut = s.capOut ∧ t.inBuf = s.inBuf ∧ t.rdata = s.rdata ∧ t.turns = s.turns ∧
    t.era = s.era ∧ t.draw = s.draw + 1 ∧ (∀ j, t.inByte j = s.inByte j) ∧
    (i ≠ .pack → i ≠ .decode → i ≠ .compress → i ≠ .decompress →
      ∀ j < t.outLen.toNat, (Cells.get? s.outBuf j).isSome = true → t.outByte j = s.outByte j)

/-- R310, R141: a command that records an error records a row of the error table that names it, with its opcode; a command
that records none leaves the error registers alone. -/
def Obligations.ErrorRowsOnly : Prop :=
  ∀ (i : Instr) (s t : State), decode s.cmd = .ok i → s.err = false → exec i s = .next t →
    (t.err = true → ∃ row ∈ errorRows, t.errCode = row.1 ∧ t.errSub = row.2.1 ∧ s.cmd.extractLsb' 0 8 ∈ row.2.2 ∧
      t.errOp = s.cmd.extractLsb' 0 8 ∧ t.outLen = 0) ∧
    (t.err = false → t.errCode = s.errCode ∧ t.errSub = s.errSub ∧ t.errOp = s.errOp ∧ t.errInfo = s.errInfo)

/-! ### The host's side (20_memory, 10_state) -/

/-- R80: where each table entry and buffer byte stands in the address map. -/
def Obligations.AddressMap : Prop :=
  ∀ s : State,
    (∀ b : Byte, s.place .word (BitVec.ofNat 32 (0x400 + 4 * b.toNat)) = some (.freq b)) ∧
    (∀ b : Byte, s.place .word (BitVec.ofNat 32 (0x800 + 4 * b.toNat)) = some (.codeLen b)) ∧
    (∀ (i : NodeIdx) (w : BitVec 2),
      s.place .word (BitVec.ofNat 32 (0x2000 + 16 * i.toNat + 4 * w.toNat)) = some (.node i w)) ∧
    (∀ (b : Byte) (w : BitVec 3),
      s.place .word (BitVec.ofNat 32 (0x4000 + 32 * b.toNat + 4 * w.toNat)) = some (.codeBits b w)) ∧
    (∀ j : Nat, j < s.capIn.toNat → s.capIn.toNat ≤ 2 ^ 28 →
      s.place .byte (BitVec.ofNat 32 (0x10000000 + j)) = some (.inBuf j)) ∧
    (∀ j : Nat, j < s.capOut.toNat → s.capOut.toNat ≤ 2 ^ 28 → s.capIn.toNat ≤ 2 ^ 28 →
      s.place .byte (BitVec.ofNat 32 (0x20000000 + j)) = some (.outBuf j)) ∧
    (∀ a : Nat, 0x048 ≤ a → a ≤ 0x0FC → a % 4 = 0 → s.place .word (BitVec.ofNat 32 a) = some .reserved)

/-- R84, R86: the violating reads and writes and what they do, and that no other access sets HOST_VIOL. That a write to a reserved
CSR offset while a command runs is a violation, by R86 and against R48, is the model's choice (log 14); so is that a read of an
unmapped address while a command runs is one, by R84 (a) and against R87 (log 15), and a byte or misaligned write to a reserved CSR
offset, by R84 (b) and against R48 (log 16). -/
def Obligations.HostViolations : Prop :=
  ∀ (s : State) (size : Size) (addr data : Word), s.capIn.toNat ≤ 2 ^ 28 → s.capOut.toNat ≤ 2 ^ 28 →
    (s.badAccess size addr.toNat → s.hostRead size addr = { s with hostViol := true, rdata := 0 }) ∧
    (s.badWrite size addr.toNat data → s.hostWrite size addr data = { s with hostViol := true }) ∧
    (¬ s.badAccess size addr.toNat → (s.hostRead size addr).hostViol = s.hostViol) ∧
    (¬ s.badWrite size addr.toNat data → (s.hostWrite size addr data).hostViol = true → s.hostViol = true)

/-- R33: HOST_VIOL is sticky: only a write of 1 to bit 7 of STATUS while idle, or reset, clears it. -/
def Obligations.HostViolSticky : Prop :=
  ∀ s t : State, step s = .next t → s.hostViol = true → t.hostViol = false →
    s.turns.head? = some .rst ∨
      (s.busy = false ∧ ∃ data : Word, s.turns.head? = some (.write .word 0x008 data) ∧ data.getLsbD 7 = true)

/-- R87, R34: what a read returns while a command runs, and what it changes (the counter draw is the model's own, log 10). What
is left open there is a free value (logs 6, 7). -/
def Obligations.BusyReads : Prop :=
  ∀ s : State, s.busy = true →
    (s.hostRead .word 0x000).rdata = 0x48554631 ∧
    (s.hostRead .word 0x004).rdata = s.cmd ∧
    (s.hostRead .word 0x014).rdata.toNat = (if s.strict then 1 else 0) + (if s.irqEn then 2 else 0) ∧
    (s.hostRead .word 0x018).rdata = s.inLen ∧
    (s.hostRead .word 0x040).rdata = s.capIn ∧
    (s.hostRead .word 0x044).rdata = s.capOut ∧
    (s.hostRead .word 0x008).rdata.getLsbD 0 = true ∧
    (s.hostRead .word 0x008).rdata.getLsbD 1 = false ∧
    (s.hostRead .word 0x008).rdata.getLsbD 2 = false ∧
    (s.hostRead .word 0x008).rdata.getLsbD 7 = s.hostViol ∧
    (∀ i, decode s.cmd = .ok i → (s.hostRead .word 0x008).rdata.extractLsb' 12 3 ∈ (match i with
      | .nop | .clear => [0, 1, 2, 3, 4, 5, 6]
      | .scan => [1]
      | .build | .buildInit | .buildStep _ => [2]
      | .assign => [3]
      | .pack => [4]
      | .parse => [5]
      | .decode => [6]
      | .compress => [1, 2, 3, 4]
      | .decompress => [5, 2, 6] : List (BitVec 3))) ∧
    ∀ size addr, (s.place size addr).isSome = true →
      s.hostRead size addr = { s with rdata := (s.hostRead size addr).rdata, draw := s.draw + 1 }

/-- R31, R32, R35, R36, R38 to R47: what the CSRs other than STATUS read while idle; the read changes nothing else (R88). -/
def Obligations.IdleCsrReads : Prop :=
  ∀ s : State, s.busy = false →
    s.hostRead .word 0x000 = { s with rdata := 0x48554631 } ∧
    s.hostRead .word 0x004 = { s with rdata := s.cmd } ∧
    s.hostRead .word 0x00C = { s with
      rdata := BitVec.ofNat 32 (s.errCode.toNat + 2 ^ 8 * s.errSub.toNat + 2 ^ 16 * s.errOp.toNat) } ∧
    s.hostRead .word 0x010 = { s with rdata := s.errInfo } ∧
    s.hostRead .word 0x014 = { s with
      rdata := BitVec.ofNat 32 ((if s.strict then 1 else 0) + (if s.irqEn then 2 else 0)) } ∧
    s.hostRead .word 0x018 = { s with rdata := s.inLen } ∧
    s.hostRead .word 0x01C = { s with rdata := s.outLen } ∧
    s.hostRead .word 0x020 = { s with rdata := BitVec.ofNat 32 s.alphabetSize } ∧
    s.hostRead .word 0x024 = { s with rdata := BitVec.ofNat 32 s.nodeCount.toNat } ∧
    s.hostRead .word 0x028 = { s with rdata := BitVec.ofNat 32 s.activeCount.toNat } ∧
    s.hostRead .word 0x02C = { s with rdata := BitVec.ofNat 32 s.root.toNat } ∧
    s.hostRead .word 0x030 = { s with rdata := BitVec.ofNat 32 s.padding.toNat } ∧
    s.hostRead .word 0x034 = { s with rdata := s.payloadOff } ∧
    s.hostRead .word 0x038 = { s with rdata := BitVec.ofNat 32 (s.payloadBits.toNat % 2 ^ 32) } ∧
    s.hostRead .word 0x03C = { s with rdata := BitVec.ofNat 32 (s.payloadBits.toNat / 2 ^ 32) } ∧
    s.hostRead .word 0x040 = { s with rdata := s.capIn } ∧
    s.hostRead .word 0x044 = { s with rdata := s.capOut }

/-- R33, R49, R58: the fields of STATUS as an idle read returns them, and a write to STATUS while idle, which clears DONE and
HOST_VIOL where it writes 1, and nothing else. -/
def Obligations.StatusRegister : Prop :=
  ∀ s : State, s.busy = false →
    (∃ v : Word, s.hostRead .word 0x008 = { s with rdata := v } ∧
      v.getLsbD 0 = s.busy ∧ v.getLsbD 1 = s.done ∧ v.getLsbD 2 = s.err ∧
      v.getLsbD 3 = decide (v.extractLsb' 8 2 = 2) ∧ v.getLsbD 4 = s.codesValid ∧ v.getLsbD 5 = s.hdrValid ∧
      v.getLsbD 6 = s.single ∧ v.getLsbD 7 = s.hostViol ∧
      (v.extractLsb' 8 2 = 0 ↔ s.bstate = .idle) ∧ (v.extractLsb' 8 2 = 1 ↔ s.bstate = .merge) ∧
      (v.extractLsb' 8 2 = 2 ↔ s.bstate = .done) ∧
      v.extractLsb' 10 2 = 0 ∧ v.extractLsb' 12 3 = s.phase ∧ v.extractLsb' 15 17 = 0) ∧
    ∀ data : Word, s.hostWrite .word 0x008 data =
      { s with done := if data.getLsbD 1 then false else s.done,
               hostViol := if data.getLsbD 7 then false else s.hostViol }

/-- R51 to R56: what the tables and buffers read while idle, word by word. That a buffer byte stands in bits 7:0 of the read data,
zero-extended, is the model's choice (log 8). -/
def Obligations.IdleTableReads : Prop :=
  ∀ s : State, s.busy = false →
    (∀ b : Byte, s.hostRead .word (BitVec.ofNat 32 (0x400 + 4 * b.toNat)) = { s with rdata := s.freqAt b }) ∧
    (∀ b : Byte, s.hostRead .word (BitVec.ofNat 32 (0x800 + 4 * b.toNat)) =
      { s with rdata := BitVec.ofNat 32 (s.codeAt b).len.toNat }) ∧
    (∀ i : NodeIdx,
      s.hostRead .word (BitVec.ofNat 32 (0x2000 + 16 * i.toNat)) =
        { s with rdata := BitVec.ofNat 32 ((s.nodeAt i).weight.toNat % 2 ^ 32) } ∧
      s.hostRead .word (BitVec.ofNat 32 (0x2004 + 16 * i.toNat)) =
        { s with rdata := BitVec.ofNat 32 ((s.nodeAt i).weight.toNat / 2 ^ 32 +
          (if (s.nodeAt i).kind = .internal then 2 ^ 8 else 0) + (if (s.nodeAt i).active then 2 ^ 9 else 0) +
          2 ^ 16 * (s.nodeAt i).symbol.toNat) } ∧
      s.hostRead .word (BitVec.ofNat 32 (0x2008 + 16 * i.toNat)) =
        { s with rdata := BitVec.ofNat 32 ((s.nodeAt i).zero.toNat + 2 ^ 16 * (s.nodeAt i).one.toNat) } ∧
      s.hostRead .word (BitVec.ofNat 32 (0x200C + 16 * i.toNat)) = { s with rdata := 0 }) ∧
    s.nodeAt 511 = ⟨0, .leaf, false, 0, 0, 0⟩ ∧
    (∀ (b : Byte) (w : BitVec 3) (j : Nat), j < 32 →
      (s.hostRead .word (BitVec.ofNat 32 (0x4000 + 32 * b.toNat + 4 * w.toNat))).rdata.getLsbD (31 - j) =
        (s.codeAt b).bits.getMsbD (32 * w.toNat + j)) ∧
    (∀ j : Nat, j < s.capIn.toNat → s.capIn.toNat ≤ 2 ^ 28 →
      s.hostRead .byte (BitVec.ofNat 32 (0x10000000 + j)) = { s with rdata := BitVec.ofNat 32 (s.inByte j).toNat }) ∧
    (∀ j : Nat, j < s.capOut.toNat → s.capOut.toNat ≤ 2 ^ 28 → s.capIn.toNat ≤ 2 ^ 28 →
      s.hostRead .byte (BitVec.ofNat 32 (0x20000000 + j)) = { s with rdata := BitVec.ofNat 32 (s.outByte j).toNat })

/-- R37: a write to CONFIG while idle, whose bits 31:2 are ignored, and what CONFIG then reads. -/
def Obligations.ConfigWrite : Prop :=
  ∀ (s : State) (data : Word), s.busy = false →
    s.hostWrite .word 0x014 data = { s with strict := data.getLsbD 0, irqEn := data.getLsbD 1 } ∧
    ((s.hostWrite .word 0x014 data).hostRead .word 0x014).rdata = data &&& 0x00000003

/-- R38: a write to IN_LEN while idle. -/
def Obligations.InLenWrite : Prop :=
  ∀ (s : State) (v : Word), s.busy = false →
    (v.toNat ≤ s.capIn.toNat → s.hostWrite .word 0x018 v = { s with inLen := v, hdrValid := false }) ∧
    (s.capIn.toNat < v.toNat → s.hostWrite .word 0x018 v = { s with hostViol := true })

/-- R51: a write of FREQ[b] while idle drops the tree and the codes, even when the value is unchanged. -/
def Obligations.FreqWrite : Prop :=
  ∀ (s : State) (b : Byte) (v : Word), s.busy = false →
    ∃ t : State, s.hostWrite .word (BitVec.ofNat 32 (0x400 + 4 * b.toNat)) v = t ∧
      t = { s with freq := t.freq, bstate := .idle, single := false, codesValid := false } ∧
      t.freqAt b = v ∧ ∀ c, c ≠ b → t.freqAt c = s.freqAt c

/-- R55, R88: a write of IN_BUF[j] while idle stores the byte, drops the parsed header, and nothing else; the other bytes read as
before. That the byte is data bits 7:0 is the model's choice (log 8). -/
def Obligations.InBufWrite : Prop :=
  ∀ (s : State) (j : Nat) (data : Word), s.busy = false → j < s.capIn.toNat → s.capIn.toNat ≤ 2 ^ 28 →
    ∃ t : State, s.hostWrite .byte (BitVec.ofNat 32 (0x10000000 + j)) data = t ∧
      t = { s with inBuf := t.inBuf, hdrValid := false } ∧
      t.inByte j = data.extractLsb' 0 8 ∧ ∀ n, n ≠ j → t.inByte n = s.inByte n

/-- R48: reserved CSR offsets read 0 while idle, and writes to them are then ignored and are no violations. That a read while a
command runs is the draw of R87 and not the 0 of R48 is the model's choice (log 6); that read is no violation either. -/
def Obligations.ReservedCsrs : Prop :=
  ∀ (s : State) (a : Nat) (data : Word), 0x048 ≤ a → a ≤ 0x0FC → a % 4 = 0 →
    (s.busy = false → s.hostRead .word (BitVec.ofNat 32 a) = { s with rdata := 0 } ∧
      s.hostWrite .word (BitVec.ofNat 32 a) data = s) ∧
    (s.busy = true → ∃ v : Word, s.hostRead .word (BitVec.ofNat 32 a) = { s with rdata := v, draw := s.draw + 1 })

/-- R316, R317: irq is DONE AND IRQ_EN: what raises and lowers it, and that no other event raises it. -/
def Obligations.IrqLine : Prop :=
  (∀ s : State, s.irq = true ↔ s.done = true ∧ s.irqEn = true) ∧
  (∀ (s : State) (data : Word), s.busy = false →
    (s.hostWrite .word 0x014 data).irq = (s.done && data.getLsbD 1) ∧
    (s.hostWrite .word 0x008 data).irq = (s.irq && !data.getLsbD 1) ∧
    (s.hostWrite .word 0x004 data).irq = false) ∧
  (∀ (i : Instr) (s t : State), exec i s = .next t → t.irq = s.irqEn) ∧
  ∀ s t : State, step s = .next t → s.irq = false → t.irq = true →
    (s.busy = true ∧ s.controllerMoves ∧ s.irqEn = true) ∨
      (s.busy = false ∧ s.done = true ∧
        ∃ data : Word, s.turns.head? = some (.write .word 0x014 data) ∧ data.getLsbD 1 = true)

/-! ### Reset (10_state R61, 70_reset) -/

/-- R61: the reset value of every state element that the spec gives one, whatever the capacities are. -/
def Obligations.ResetValues : Prop :=
  ∀ cin cout : Word, ∃ s : State, State.resetOf cin cout = s ∧
    s.cmd = 0 ∧ s.busy = false ∧ s.done = false ∧ s.err = false ∧ s.bstate = .idle ∧ s.treeValid = false ∧
    s.codesValid = false ∧ s.hdrValid = false ∧ s.single = false ∧ s.hostViol = false ∧ s.phase = 0 ∧
    s.errCode = 0 ∧ s.errSub = 0 ∧ s.errOp = 0 ∧ s.errInfo = 0 ∧ s.strict = false ∧ s.irqEn = false ∧
    s.inLen = 0 ∧ s.outLen = 0 ∧ s.symCount = 0 ∧ s.nodeCount = 0 ∧ s.activeCount = 0 ∧ s.root = 0 ∧
    s.padding = 0 ∧ s.payloadOff = 0 ∧ s.payloadBits = 0 ∧ s.capIn = cin ∧ s.capOut = cout ∧
    (∀ b, s.freqAt b = 0) ∧ s.nodeAt 511 = ⟨0, .leaf, false, 0, 0, 0⟩ ∧ s.irq = false ∧
    (s.hostRead .word 0x000).rdata = 0x48554631

/-- R340, R341: the rst input takes the reset values in any state, a running command abandoned. That the read data rdata returns to
0, a value the spec does not state, is the model's choice (logs 8, 11); the fields turns, draw and era are the model's own (logs
2, 10, 11). -/
def Obligations.ResetTurn : Prop :=
  ∀ (s : State) (rest : List Turn), s.turns = .rst :: rest →
    step s = .next { State.resetOf s.capIn s.capOut with turns := rest, draw := s.draw + 1, era := s.era + 1 }

/-- R342: right after reset the block is idle, the builder IDLE and irq low, every CMD write is accepted, and these commands raise
an error. -/
def Obligations.CommandsAfterReset : Prop :=
  ∀ (cin cout : Word) (w : Word), ∃ r s : State, State.resetOf cin cout = r ∧ r.hostWrite .word 0x004 w = s ∧
    r.busy = false ∧ r.bstate = .idle ∧ (∀ b, r.freqAt b = 0) ∧ r.hdrValid = false ∧ r.irq = false ∧
    s.busy = true ∧ s.cmd = w ∧
    exec .build s = .next (s.failed 1 1 0) ∧
    exec .assign s = .next (s.failed 6 1 0) ∧
    exec .pack s = .next (s.spoiled 6 2 0) ∧
    exec .decode s = .next (s.spoiled 6 3 0) ∧
    ∀ n, exec (.buildStep n) s = .next (s.failed 6 4 0)

/-! ### NOP and CLEAR (40_control) -/

/-- R143: NOP, run whole: its CMD write and its completion clear ERR and the error registers and set DONE, and nothing else;
its own completion writes only what every completion does. -/
def Obligations.NopClearsErrorOnly : Prop :=
  ∀ s : State,
    exec .nop s = .next s.succeeded ∧
    (∀ rest, s.busy = false → s.turns = .write .word 0x004 0x00000000 :: .controller :: rest →
      runSteps 2 s = .next (State.succeeded { s with
        cmd := 0, err := false, errCode := 0, errSub := 0, errOp := 0, errInfo := 0, turns := rest }))

/-- R144: CLEAR, and that SYM_COUNT is then 0 and BUILD raises InvalidInput. -/
def Obligations.ClearEmptiesDataPath : Prop :=
  ∀ s : State, ∃ t : State, exec .clear s = .next t ∧
    t = State.succeeded { s with
      freq := t.freq, bstate := .idle, single := false, codesValid := false, hdrValid := false, nodeCount := 0,
      activeCount := 0, root := 0, outLen := 0, padding := 0, payloadOff := 0, payloadBits := 0 } ∧
    (∀ b, t.freqAt b = 0) ∧ t.symCount = 0 ∧ exec .build t = .next (t.failed 1 1 0)

/-! ### SCAN (41_frequency_scan) -/

/-- R160, R162: SCAN counts the input exactly, drops the tree and the codes, and nothing else. -/
def Obligations.ScanCounts : Prop :=
  ∀ s : State, ∃ t : State, exec .scan s = .next t ∧
    t = State.succeeded { s with freq := t.freq, bstate := .idle, single := false, codesValid := false } ∧
    ∀ b : Byte, (t.freqAt b).toNat = (List.range s.inLen.toNat).countP fun j => s.inByte j = b

/-! ### The tree builder (42_tree_builder) -/

/-- R40: SYM_COUNT is the number of symbols with a non-zero count, 0 to 256. -/
def Obligations.SymCountCounts : Prop :=
  ∀ s : State, s.symCount = s.alphabetSize ∧ s.symCount ≤ 256

/-- R183: BUILD_INIT: the empty map, else one leaf for each present symbol, in ascending order, every other slot as before. -/
def Obligations.BuildInitLoadsLeaves : Prop :=
  ∀ s : State,
    (s.alphabetSize = 0 →
      exec .buildInit s =
        .next (State.failed { s with codesValid := false, bstate := .idle, single := false } 1 1 0)) ∧
    (s.alphabetSize ≠ 0 → ∃ t : State, exec .buildInit s = .next t ∧
      t = State.succeeded { s with
        node := t.node, codesValid := false,
        nodeCount := BitVec.ofNat 9 s.alphabetSize, activeCount := BitVec.ofNat 9 s.alphabetSize,
        single := decide (s.alphabetSize = 1), root := if s.alphabetSize = 1 then 0 else s.root,
        bstate := if s.alphabetSize = 1 then .done else .merge } ∧
      (∀ b : Byte, s.freqAt b ≠ 0 →
        t.nodeAt (BitVec.ofNat 9 (s.rank b)) = ⟨(s.freqAt b).setWidth 40, .leaf, true, b, 0, 0⟩) ∧
      ∀ i : NodeIdx, s.alphabetSize ≤ i.toNat → t.nodeAt i = s.nodeAt i)

/-- R184, R185, R187: one merge step: the two least keys, their parent with the exact sum of the weights, every other slot as
before. -/
def Obligations.MergeStepMakesParent : Prop :=
  ∀ s : State, s.Inv → s.bstate = .merge → ∃ (a b : NodeIdx) (t : State), exec (.buildStep 1) s = .next t ∧
    s.isActive a ∧ s.isActive b ∧ s.keyBelow a b ∧ (∀ c, s.isActive c → c ≠ a → c ≠ b → s.keyBelow b c) ∧
    t = State.succeeded { s with
      node := t.node, nodeCount := s.nodeCount + 1, activeCount := s.activeCount - 1,
      root := if s.activeCount = 2 then s.nodeCount else s.root,
      bstate := if s.activeCount = 2 then .done else .merge } ∧
    t.nodeAt a = { s.nodeAt a with active := false } ∧ t.nodeAt b = { s.nodeAt b with active := false } ∧
    t.nodeAt s.nodeCount = ⟨(s.nodeAt a).weight + (s.nodeAt b).weight, .internal, true, 0, b, a⟩ ∧
    (t.nodeAt s.nodeCount).weight.toNat = (s.nodeAt a).weight.toNat + (s.nodeAt b).weight.toNat ∧
    ∀ i, i ≠ a → i ≠ b → i ≠ s.nodeCount → t.nodeAt i = s.nodeAt i

/-- R186: BUILD_STEP n raises NOT_MERGING outside BSTATE = 1, does nothing for n = 0, and does n merge steps or as many as
complete the tree. -/
def Obligations.BuildStepCounts : Prop :=
  ∀ (s : State) (n : Nat),
    (s.bstate ≠ .merge → exec (.buildStep n) s = .next (s.failed 6 4 0)) ∧
    (s.bstate = .merge → exec (.buildStep 0) s = .next s.succeeded) ∧
    (s.Inv → s.bstate = .merge → ∃ t : State, exec (.buildStep n) s = .next t ∧
      t = State.succeeded { s with
        node := t.node, root := t.root,
        nodeCount := BitVec.ofNat 9 (s.nodeCount.toNat + min n (s.activeCount.toNat - 1)),
        activeCount := BitVec.ofNat 9 (s.activeCount.toNat - min n (s.activeCount.toNat - 1)),
        bstate := if s.activeCount.toNat ≤ n + 1 then .done else .merge } ∧
      t.root = if s.activeCount.toNat ≤ n + 1 then t.nodeCount - 1 else s.root)

/-- R186: any split of the merges into BUILD_STEP commands gives the same tree (draw is the model's own counter, log 10). -/
def Obligations.BuildStepSplits : Prop :=
  ∀ (s : State) (m n : Nat), s.Inv → s.bstate = .merge →
    ∃ t u : State, exec (.buildStep (m + n)) s = .next t ∧ exec (.buildStep m) s = .next u ∧
      (u.bstate = .merge → exec (.buildStep n) u = .next { t with draw := t.draw + 1 }) ∧
      (u.bstate ≠ .merge → t = u)

/-- R188: BUILD: the empty map, else a complete tree of 2k - 1 nodes, which BUILD_INIT and k - 1 merge steps make too (draw is
the model's own counter, log 10). -/
def Obligations.BuildMakesTree : Prop :=
  ∀ s : State,
    (s.alphabetSize = 0 →
      exec .build s = .next (State.failed { s with codesValid := false, bstate := .idle, single := false } 1 1 0)) ∧
    (s.alphabetSize ≠ 0 → ∃ t u : State, exec .build s = .next t ∧
      t = State.succeeded { s with
        node := t.node, codesValid := false, nodeCount := BitVec.ofNat 9 (2 * s.alphabetSize - 1), activeCount := 1,
        root := BitVec.ofNat 9 (2 * s.alphabetSize - 2), single := decide (s.alphabetSize = 1), bstate := .done } ∧
      exec .buildInit s = .next u ∧ (s.alphabetSize = 1 → u = t) ∧
      (s.alphabetSize ≠ 1 →
        exec (.buildStep (s.alphabetSize - 1)) u = .next { t with draw := t.draw + 1 }))

/-- R189 (a) to (f): what a complete tree is. -/
def Obligations.CompleteTree : Prop :=
  ∀ s : State, s.Inv → s.treeValid = true →
    (s.nodeCount.toNat + 1 = 2 * s.symCount ∧
      ∀ i : NodeIdx, i.toNat < s.nodeCount.toNat → ((s.nodeAt i).kind = .leaf ↔ i.toNat < s.symCount)) ∧
    (∀ i : NodeIdx, i.toNat < s.symCount → (s.nodeAt i).weight.toNat = (s.freqAt (s.nodeAt i).symbol).toNat) ∧
    (∀ i : NodeIdx, s.symCount ≤ i.toNat → i.toNat < s.nodeCount.toNat →
      (s.nodeAt i).weight.toNat =
        (s.nodeAt (s.nodeAt i).zero).weight.toNat + (s.nodeAt (s.nodeAt i).one).weight.toNat) ∧
    (∀ b : Byte, s.freqAt b ≠ 0 ↔ ∃ i : NodeIdx, i.toNat < s.symCount ∧ (s.nodeAt i).symbol = b) ∧
    ((∀ i : NodeIdx, i.toNat < s.nodeCount.toNat → i ≠ s.root → ∃! p, s.parent p i) ∧
      ∀ p i : NodeIdx, s.parent p i → i.toNat < p.toNat) ∧
    s.activeCount = 1 ∧ ∀ i : NodeIdx, s.isActive i ↔ i = s.root

/-- R190: the tree is a function of FREQ alone. -/
def Obligations.TreeDependsOnFreqOnly : Prop :=
  ∀ s r t u : State, s.freq = r.freq → s.alphabetSize ≠ 0 → exec .build s = .next t → exec .build r = .next u →
    t.nodeCount = u.nodeCount ∧ t.root = u.root ∧ t.single = u.single ∧ t.bstate = u.bstate ∧
      t.activeCount = u.activeCount ∧ ∀ i : NodeIdx, i.toNat < t.nodeCount.toNat → t.nodeAt i = u.nodeAt i

/-! ### ASSIGN (43_codec_table) -/

/-- R210, R211, R212, R215: ASSIGN: NO_TREE, else all 256 entries: no code for an absent symbol, "0" for the symbol of a
single-leaf tree, else the path to the symbol's leaf; and a second ASSIGN writes the same tables. -/
def Obligations.AssignWritesPaths : Prop :=
  ∀ s : State,
    (s.bstate ≠ .done → exec .assign s = .next (s.failed 6 1 0)) ∧
    (s.Inv → s.bstate = .done → ∃ t u : State, exec .assign s = .next t ∧
      t = State.succeeded { s with code := t.code, codesValid := true } ∧
      (∀ b, s.freqAt b = 0 → t.codeAt b = ⟨0, 0⟩) ∧
      (∀ b, s.freqAt b ≠ 0 → s.symCount = 1 → t.codeAt b = ⟨1, 0⟩) ∧
      (∀ b, s.freqAt b ≠ 0 → s.symCount ≠ 1 → ∃ p, s.IsPath p b ∧ (t.codeAt b).len.toNat = p.length ∧
        ∀ j < 256, (t.codeAt b).bits.getMsbD j = p.getD j false) ∧
      exec .assign t = .next u ∧ u.code = t.code)

/-- R213: every code has a length of 1 to k - 1 bits, or 1 bit for a single-leaf tree, so at most 255. -/
def Obligations.CodeLengthBound : Prop :=
  ∀ (s : State) (b : Byte), s.Inv → s.codesValid = true → s.hasCode b →
    1 ≤ (s.codeAt b).len.toNat ∧ (s.codeAt b).len.toNat ≤ max 1 (s.symCount - 1)

/-- R214: the codes are prefix-free. -/
def Obligations.PrefixFree : Prop :=
  ∀ (s : State) (a b : Byte), s.Inv → s.codesValid = true → a ≠ b → s.hasCode a → s.hasCode b →
    ¬ s.codeString a <+: s.codeString b

/-- R216, R241: while CODES_VALID = 1 the tree is complete, and exactly the symbols with a non-zero count have codes. -/
def Obligations.ValidCodesMatchFreq : Prop :=
  ∀ s : State, s.Inv → s.codesValid = true →
    s.treeValid = true ∧ 1 ≤ s.symCount ∧ ∀ b, s.hasCode b ↔ s.freqAt b ≠ 0

/-! ### PACK (44_bitstream_pack) -/

/-- R230, R312: PACK's three errors, in their order. -/
def Obligations.PackErrors : Prop :=
  ∀ s : State,
    (s.codesValid = false → exec .pack s = .next (s.spoiled 6 2 0)) ∧
    (s.codesValid = true → ∀ j, j < s.inLen.toNat → ¬ s.hasCode (s.inByte j) → (∀ i < j, s.hasCode (s.inByte i)) →
      exec .pack s = .next (s.spoiled 1 2 (BitVec.ofNat 32 j))) ∧
    (s.codesValid = true → (∀ j < s.inLen.toNat, s.hasCode (s.inByte j)) →
      s.capOut.toNat < sizeOfContainer s.alphabetSize s.payloadLength → exec .pack s = .next (s.spoiled 5 1 0))

/-- R230 to R240: PACK writes the container: k, the table in ascending order, the padding count, the codes in input order from
the most significant bit of the first payload byte on, and zero bits to the byte's end. -/
def Obligations.PackWritesContainer : Prop :=
  ∀ (s : State) (k n : Nat), k = s.alphabetSize → n = s.payloadLength → s.codesValid = true →
    (∀ j < s.inLen.toNat, s.hasCode (s.inByte j)) → sizeOfContainer k n ≤ s.capOut.toNat →
    ∃ t : State, exec .pack s = .next t ∧
      t = State.succeeded { s with
        outBuf := t.outBuf, outLen := BitVec.ofNat 32 (sizeOfContainer k n),
        padding := BitVec.ofNat 3 ((8 - n % 8) % 8), payloadOff := BitVec.ofNat 32 (2 + 5 * k + 1),
        payloadBits := BitVec.ofNat 64 n } ∧
      t.outLen.toNat = sizeOfContainer k n ∧ t.payloadBits.toNat = n ∧
      (t.outByte 0).toNat * 2 ^ 8 + (t.outByte 1).toNat = k ∧
      (∀ b, s.freqAt b ≠ 0 → t.outByte (2 + 5 * s.rank b) = b ∧
        t.outByte (3 + 5 * s.rank b) ++ t.outByte (4 + 5 * s.rank b) ++ t.outByte (5 + 5 * s.rank b) ++
          t.outByte (6 + 5 * s.rank b) = s.freqAt b) ∧
      (t.outByte (2 + 5 * k)).toNat = (8 - n % 8) % 8 ∧
      ((List.range s.inLen.toNat).flatMap fun j => s.codeString (s.inByte j)).length = n ∧
      (∀ q < n, ((List.range s.inLen.toNat).flatMap fun j => s.codeString (s.inByte j))[q]? =
        some (t.outBit (2 + 5 * k + 1) q)) ∧
      ∀ q, n ≤ q → q < n + (8 - n % 8) % 8 → t.outBit (2 + 5 * k + 1) q = false

/-! ### PARSE and DECODE (45_container_decode) -/

/-- R260, R310, R312: PARSE's eight errors, the first that applies, each leaving FREQ, the tree and the payload registers. -/
def Obligations.ParseErrors : Prop :=
  ∀ (s : State) (n k : Nat) (r : BitVec 4 → Byte → Nat → State), n = s.inLen.toNat → k = s.headerCount →
    (∀ c u x, r c u x = State.failed { s with hdrValid := false } c u (BitVec.ofNat 32 x)) →
    (n < 2 → exec .parse s = .next (r 2 1 n)) ∧
    (2 ≤ n → k = 0 → exec .parse s = .next (r 2 2 0)) ∧
    (2 ≤ n → 256 < k → exec .parse s = .next (r 2 3 0)) ∧
    (2 ≤ n → 1 ≤ k → k ≤ 256 → n < 2 + 5 * k + 1 → exec .parse s = .next (r 2 4 n)) ∧
    (1 ≤ k → k ≤ 256 → 2 + 5 * k + 1 ≤ n →
      (∀ i < k, (∀ j < i, s.entryOk j) → s.headerFreq i = 0 → exec .parse s = .next (r 2 5 (2 + 5 * i))) ∧
      (∀ i < k, (∀ j < i, s.entryOk j) → s.headerFreq i ≠ 0 → s.entryRepeats i →
        exec .parse s = .next (r 2 6 (2 + 5 * i))) ∧
      ((∀ i < k, s.entryOk i) → 7 < (s.inByte (2 + 5 * k)).toNat → exec .parse s = .next (r 2 7 (2 + 5 * k))) ∧
      ((∀ i < k, s.entryOk i) → (s.inByte (2 + 5 * k)).toNat ≤ 7 → s.inByte (2 + 5 * k) ≠ 0 → n = 2 + 5 * k + 1 →
        exec .parse s = .next (r 2 8 (2 + 5 * k))))

/-- R260, R262: PARSE of a good header: FREQ is the header's map, whatever the order of its entries, and the payload registers
describe the payload. -/
def Obligations.ParseReadsHeader : Prop :=
  ∀ (s : State) (n k pad : Nat), n = s.inLen.toNat → k = s.headerCount → pad = (s.inByte (2 + 5 * k)).toNat →
    1 ≤ k → k ≤ 256 → 2 + 5 * k + 1 ≤ n → (∀ i < k, s.entryOk i) → pad ≤ 7 → (n = 2 + 5 * k + 1 → pad = 0) →
    ∃ t : State, exec .parse s = .next t ∧
      t = State.succeeded { s with
        freq := t.freq, padding := BitVec.ofNat 3 pad, payloadOff := BitVec.ofNat 32 (2 + 5 * k + 1),
        payloadBits := BitVec.ofNat 64 (8 * (n - (2 + 5 * k + 1)) - pad), bstate := .idle, single := false,
        codesValid := false, hdrValid := true } ∧
      (∀ i < k, (t.freqAt (s.inByte (2 + 5 * i))).toNat = s.headerFreq i) ∧
      ∀ b, (∀ i < k, s.inByte (2 + 5 * i) ≠ b) → t.freqAt b = 0

/-- R270, R312: DECODE's two SequenceErrors, in their order. -/
def Obligations.DecodeNeedsHeaderAndTree : Prop :=
  ∀ s : State,
    (s.hdrValid = false → exec .decode s = .next (s.spoiled 6 3 0)) ∧
    (s.hdrValid = true → s.bstate ≠ .done → exec .decode s = .next (s.spoiled 6 1 0))

/-- R270, R271, R274 to R277: DECODE on a tree of two or more symbols, its payload split into whole codes and a rest that
ends inside one: the symbols in order, OutputOverflow past OUT_CAP, and the rest discarded or Truncated by STRICT. After a PARSE
and then a PACK, that DECODE follows PACK's payload registers, and that a bit past IN_LEN is a free value, are the model's choice
(log 13). -/
def Obligations.DecodeWalksTree : Prop :=
  ∀ (s : State) (codes : List (Byte × List Bool)) (rest : List Bool), s.Inv → s.hdrValid = true → s.bstate = .done →
    s.single = false → (∀ c ∈ codes, s.IsPath c.2 c.1) →
    (∀ m, 1 ≤ m → m ≤ rest.length → (s.nodeAt (s.follow s.root (rest.take m))).kind = .internal) →
    (codes.flatMap Prod.snd ++ rest) = (List.range s.payloadBits.toNat).map (s.inBit s.payloadOff.toNat) →
    (s.capOut.toNat < codes.length → exec .decode s = .next (s.spoiled 5 1 0)) ∧
    (codes.length ≤ s.capOut.toNat → rest ≠ [] → s.strict = true →
      exec .decode s = .next (s.spoiled 3 1 (BitVec.ofNat 32 rest.length))) ∧
    (codes.length ≤ s.capOut.toNat → (rest = [] ∨ s.strict = false) →
      ∃ t : State, exec .decode s = .next t ∧
        t = State.succeeded { s with outBuf := t.outBuf, outLen := BitVec.ofNat 32 codes.length } ∧
        t.outLen.toNat = codes.length ∧ ∀ j c, codes[j]? = some c → t.outByte j = c.1)

/-- R271: on a complete tree of two or more symbols every bit string splits so, and the incomplete code is at most 254 bits
long (R275): DecodeWalksTree shuts no payload out. -/
def Obligations.EveryPayloadSplits : Prop :=
  ∀ (s : State) (bits : List Bool), s.Inv → s.bstate = .done → s.single = false →
    ∃ (codes : List (Byte × List Bool)) (rest : List Bool), bits = codes.flatMap Prod.snd ++ rest ∧
      (∀ c ∈ codes, s.IsPath c.2 c.1) ∧ rest.length ≤ 254 ∧
      ∀ m, 1 ≤ m → m ≤ rest.length → (s.nodeAt (s.follow s.root (rest.take m))).kind = .internal

/-- R272, R274: DECODE on a single-leaf tree: each payload bit, whatever its value, gives the one symbol. After a PARSE and then a
PACK, that the number of bits is PACK's PAYLOAD_BITS is the model's choice (log 13). -/
def Obligations.DecodeSingleLeaf : Prop :=
  ∀ s : State, s.hdrValid = true → s.bstate = .done → s.single = true →
    (s.capOut.toNat < s.payloadBits.toNat → exec .decode s = .next (s.spoiled 5 1 0)) ∧
    (s.payloadBits.toNat ≤ s.capOut.toNat → ∃ t : State, exec .decode s = .next t ∧
      t = State.succeeded { s with outBuf := t.outBuf, outLen := BitVec.ofNat 32 s.payloadBits.toNat } ∧
      t.outLen.toNat = s.payloadBits.toNat ∧ ∀ j < s.payloadBits.toNat, t.outByte j = (s.nodeAt s.root).symbol)

/-! ### COMPRESS and DECOMPRESS (46_composite) -/

/-- R290, R293: COMPRESS is SCAN, BUILD, ASSIGN and PACK in one transition (draw is the model's own counter, log 10), with
ERRCODE.OP its own opcode; on the empty input it stops in its BUILD stage, and where the container fits OUT_CAP it succeeds. -/
def Obligations.CompressRunsStages : Prop :=
  ∀ s : State,
    (s.inLen = 0 → exec .compress s =
      .next (State.spoiled { s with freq := Vector.replicate 256 0, bstate := .idle, single := false, codesValid := false }
        1 1 0)) ∧
    (s.inLen ≠ 0 → ∃ a b c d : State, exec .scan s = .next a ∧ exec .build a = .next b ∧ exec .assign b = .next c ∧
      exec .pack c = .next d ∧ exec .compress s = .next { d with draw := s.draw + 1 } ∧
      b.bstate = .done ∧ c.codesValid = true ∧ (∀ j < s.inLen.toNat, c.hasCode (s.inByte j)) ∧
      (s.err = false → sizeOfContainer c.alphabetSize c.payloadLength ≤ s.capOut.toNat →
        d.err = false ∧ d.outLen.toNat = sizeOfContainer c.alphabetSize c.payloadLength))

/-- R291, R293: DECOMPRESS is PARSE, BUILD and DECODE in one transition (draw is the model's own counter, log 10), with
ERRCODE.OP its own opcode; where PARSE raises, it stops there, and a good header with no more payload bits than OUT_CAP has bytes
succeeds under STRICT = 0. -/
def Obligations.DecompressRunsStages : Prop :=
  ∀ s : State, ∃ a t : State, exec .parse s = .next a ∧ exec .decompress s = .next t ∧
    (a.hdrValid = false → t = { a with outBuf := [] }) ∧
    (a.hdrValid = true → ∃ b d : State, exec .build a = .next b ∧ b.bstate = .done ∧ b.hdrValid = true ∧
      exec .decode b = .next d ∧ t = { d with draw := s.draw + 1 } ∧
      (s.err = false → s.strict = false → a.payloadBits.toNat ≤ s.capOut.toNat → t.err = false))

/-- R292: decompressing what COMPRESS wrote gives the input back, under either STRICT setting; for the empty input COMPRESS
raises InvalidInput instead. -/
def Obligations.RoundTrip : Prop :=
  (∀ s c r : State, s.inLen ≠ 0 → s.err = false → exec .compress s = .next c → c.err = false →
    r.inLen = c.outLen → (∀ j < c.outLen.toNat, r.inByte j = c.outByte j) → s.inLen.toNat ≤ r.capOut.toNat →
    r.err = false →
    ∃ d : State, exec .decompress r = .next d ∧ d.err = false ∧ d.outLen = s.inLen ∧
      ∀ j < s.inLen.toNat, d.outByte j = s.inByte j) ∧
  ∀ s : State, s.inLen = 0 → ∃ t : State, exec .compress s = .next t ∧ t.err = true ∧ t.errCode = 1 ∧ t.errSub = 1

/-! ### The whole machine -/

/-- R39: the only writers of OUT_LEN. -/
def Obligations.OutLenWriters : Prop :=
  ∀ s t : State, step s = .next t → t.outLen ≠ s.outLen →
    s.turns.head? = some .rst ∨
      (s.busy = true ∧ s.controllerMoves ∧
        (s.completes .pack ∨ s.completes .decode ∨ s.completes .compress ∨ s.completes .decompress ∨
          (s.completes .clear ∧ t.outLen = 0) ∨ (t.err = true ∧ t.outLen = 0)))

/-- R53, R54: only ASSIGN (or COMPRESS in its ASSIGN stage) writes the code tables, for all 256 entries, and reset. -/
def Obligations.CodeTableWriters : Prop :=
  ∀ s t : State, step s = .next t → t.code ≠ s.code →
    s.turns.head? = some .rst ∨
      ((s.completes .assign ∨ s.completes .compress) ∧ ∀ b : Byte, (Cells.get? t.code b.toNat).isSome = true)

/-- R55, R81, R343: only a host write to its window while idle, or reset, changes IN_BUF; the write clears HDR_VALID; and no
command sees what IN_BUF holds at IN_LEN and above. -/
def Obligations.InBufWriters : Prop :=
  (∀ s t : State, step s = .next t → t.inBuf ≠ s.inBuf →
    s.turns.head? = some .rst ∨
      (s.busy = false ∧ t.hdrValid = false ∧ ∃ (addr data : Word),
        s.turns.head? = some (.write .byte addr data) ∧ 0x10000000 ≤ addr.toNat ∧
          addr.toNat < 0x10000000 + s.capIn.toNat)) ∧
  ∀ (i : Instr) (s t : State) (m : List Host.Cell),
    (∀ j < s.inLen.toNat, State.inByte { s with inBuf := m } j = s.inByte j) → exec i s = .next t →
    exec i { s with inBuf := m } = .next { t with inBuf := m }

/-- R58: the transitions of BSTATE: MERGE is entered only by BUILD_INIT; DONE by BUILD_INIT, BUILD, BUILD_STEP from MERGE, and
the composites; IDLE by the empty map, SCAN, PARSE, CLEAR (and the composites' stages), a host write to FREQ, and reset. -/
def Obligations.BuilderTransitions : Prop :=
  ∀ s t : State, step s = .next t → t.bstate ≠ s.bstate →
    (t.bstate = .merge → s.completes .buildInit) ∧
    (t.bstate = .done → s.completes .buildInit ∨ s.completes .build ∨ s.completes .compress ∨ s.completes .decompress ∨
      (s.bstate = .merge ∧ ∃ n, s.completes (.buildStep n))) ∧
    (t.bstate = .idle → s.turns.head? = some .rst ∨
      (s.busy = false ∧ ∃ (b : Byte) (data : Word),
        s.turns.head? = some (.write .word (BitVec.ofNat 32 (0x400 + 4 * b.toNat)) data)) ∨
      s.completes .scan ∨ s.completes .parse ∨ s.completes .clear ∨
      (s.alphabetSize = 0 ∧ (s.completes .buildInit ∨ s.completes .build)) ∨ s.completes .compress)

/-- The invariant holds at reset, for every legal pair of capacities (00_scope R12, 10_state R61). -/
def Obligations.InvAtReset : Prop :=
  ∀ cin cout : Word, 1 ≤ cin.toNat → cin.toNat ≤ 2 ^ 28 → 1 ≤ cout.toNat → cout.toNat ≤ 2 ^ 28 →
    (State.resetOf cin cout).Inv

/-- Every step keeps the invariant: lengths within the capacities, memories in canonical form, the flags' rules, the forest of
the builder with exact weights, and code tables that are the current tree's. -/
def Obligations.StepKeepsInv : Prop := ∀ s t : State, s.Inv → step s = .next t → t.Inv

/-- R112, R314, R353: from every state of the invariant a step answers a next state: no fault, no refusal. -/
def Obligations.StepNeverStops : Prop := ∀ s : State, s.Inv → ∃ t : State, step s = .next t

/-- R353: once the listed turns are taken and the controller moves, the block is idle; and a command that runs through turns
that are host accesses alone completes with DONE (the list of turns is the model's own, log 2). -/
def Obligations.CommandsComplete : Prop :=
  ∀ s : State, s.Inv →
    (∃ t : State, runSteps (s.turns.length + 1) s = .next t ∧ t.busy = false) ∧
    (s.busy = true → (∀ u ∈ s.turns, u ≠ .rst ∧ u ≠ .controller) →
      ∃ t : State, runSteps (s.turns.length + 1) s = .next t ∧ t.busy = false ∧ t.done = true ∧ t.cmd = s.cmd)
end

