-- ==== Sys2Proof/Laws/Bits.lean ====
section
/-!
SUPPORT. Code strings, payload bytes and big-endian fields: what is written is what is read back (10_state R54, 00_scope
R17, R18, 44_bitstream_pack R235, R237, R238).
-/

namespace Sys2Proof.Machine

/-! ### Code strings -/

theorem getMsbD_top (t : Nat) : (BitVec.twoPow 256 255).getMsbD t = decide (t = 0) := by
  rw [BitVec.getMsbD_eq_getLsbD, BitVec.getLsbD_twoPow]
  by_cases h : t = 0
  · subst h; simp
  · by_cases h2 : t < 256
    · simp [h, h2]; omega
    · simp [h2, h]

/-- Bit t of CODE_BITS, from the top, is c[t], and 0 past the string's end (10_state R54). -/
theorem getMsbD_bitsOfPath (p : List Bool) (t : Nat) (h : t < 256) : (bitsOfPath p).getMsbD t = p.getD t false := by
  induction p generalizing t with
  | nil => simp [bitsOfPath]
  | cons b p ih =>
    unfold bitsOfPath
    rw [BitVec.getMsbD_or, BitVec.getMsbD_ushiftRight]
    cases t with
    | zero => cases b <;> simp
    | succ t =>
      have h1 : t < 256 := by omega
      have h2 : ¬ (t + 1 < 1) := by omega
      cases b <;> simp [h, ih t h1]

/-- The string of an entry is the path it was made of (43_codec_table R210, 10_state R54). -/
theorem string_codeOfPath (p : List Bool) (h : p.length ≤ 255) : (codeOfPath p).string = p := by
  have hl : (codeOfPath p).len.toNat = p.length := by
    show (BitVec.ofNat 8 p.length).toNat = _
    rw [BitVec.toNat_ofNat, Nat.mod_eq_of_lt (by omega)]
  unfold Code.string
  rw [hl]
  refine List.ext_getElem (by simp) fun t h1 h2 => ?_
  rw [List.getElem_map, List.getElem_range]
  show (bitsOfPath p).getMsbD t = _
  rw [getMsbD_bitsOfPath p t (by omega), List.getD_eq_getElem _ _ h2]

/-! ### Payload bytes -/

theorem padCount_lt (n : Nat) : padCount n < 8 := by unfold padCount; omega

theorem padded_dvd (n : Nat) : (n + padCount n) % 8 = 0 := by unfold padCount; omega

theorem padded_div (n : Nat) : (n + padCount n) / 8 = (n + 7) / 8 := by unfold padCount; omega

theorem length_bytesOfBits (l : List Bool) : (bytesOfBits l).length = l.length / 8 := by
  induction l using bytesOfBits.induct with
  | case1 b7 b6 b5 b4 b3 b2 b1 b0 rest ih =>
    rw [bytesOfBits]
    simp only [List.length_cons, ih]
    omega
  | case2 l h =>
    have hl : l.length < 8 := by
      by_contra hc
      match l, h with
      | a :: b :: c :: d :: e :: f :: g :: i :: rest, h => exact h a b c d e f g i rest rfl
      | [], _ | [_], _ | [_, _], _ | [_, _, _], _ | [_, _, _, _], _ | [_, _, _, _, _], _ | [_, _, _, _, _, _], _
      | [_, _, _, _, _, _, _], _ => simp at hc
    rw [bytesOfBits]
    · simp; omega
    · exact h

theorem getLsbD_byteOfBits (b7 b6 b5 b4 b3 b2 b1 b0 : Bool) (t : Nat) (h : t < 8) :
    (byteOfBits b7 b6 b5 b4 b3 b2 b1 b0).getLsbD (7 - t) = [b7, b6, b5, b4, b3, b2, b1, b0].getD t false := by
  unfold byteOfBits
  interval_cases t <;> revert b7 b6 b5 b4 b3 b2 b1 b0 <;> decide

/-- Payload bit q is bit 7 - (q mod 8) of payload byte floor(q/8) (44_bitstream_pack R237). -/
theorem getElem_bytesOfBits (l : List Bool) (q : Nat) (h : q / 8 < l.length / 8) :
    ((bytesOfBits l)[q / 8]'(by rw [length_bytesOfBits]; exact h)).getLsbD (7 - q % 8) = l.getD q false := by
  induction l using bytesOfBits.induct generalizing q with
  | case1 b7 b6 b5 b4 b3 b2 b1 b0 rest ih =>
    simp only [List.length_cons] at h
    simp only [bytesOfBits]
    by_cases hq : q < 8
    · have h0 : q / 8 = 0 := by omega
      have h1 : q % 8 = q := by omega
      simp only [h0, h1, List.getElem_cons_zero]
      rw [getLsbD_byteOfBits _ _ _ _ _ _ _ _ _ hq]
      interval_cases q <;> rfl
    · obtain ⟨r, rfl⟩ : ∃ r, q = r + 8 := ⟨q - 8, by omega⟩
      have h0 : (r + 8) / 8 = r / 8 + 1 := by omega
      have h1 : (r + 8) % 8 = r % 8 := by omega
      simp only [h0, h1, List.getElem_cons_succ]
      rw [ih r (by omega)]
      rfl
  | case2 l hno =>
    exfalso
    have := length_bytesOfBits l
    rw [bytesOfBits] at this
    · simp at this; omega
    · exact hno

/-! ### Big-endian fields -/

theorem bytes32_append (v : Word) :
    v.extractLsb' 24 8 ++ v.extractLsb' 16 8 ++ v.extractLsb' 8 8 ++ v.extractLsb' 0 8 = v := by
  apply BitVec.eq_of_getLsbD_eq
  intro i hi
  simp only [BitVec.getLsbD_append, BitVec.getLsbD_extractLsb']
  split
  · simp_all
  · split
    · have : 8 + (i - 8) = i := by omega
      simp_all
    · split
      · have : 16 + (i - 8 - 8) = i := by omega
        simp_all
      · have : 24 + (i - 8 - 8 - 8) = i := by omega
        have : i - 8 - 8 - 8 < 8 := by omega
        simp_all

theorem bytes16_value (k : Nat) (h : k < 65536) :
    (BitVec.ofNat 8 (k / 2 ^ 8)).toNat * 2 ^ 8 + (BitVec.ofNat 8 k).toNat = k := by
  simp only [BitVec.toNat_ofNat]
  omega

end Sys2Proof.Machine
end

