-- ==== Sys2Proof/Laws/Cells.lean ====
section
/-!
SUPPORT. Sparse memory: a read after a write, the canonical form, and the keys that are listed.
-/

namespace Sys2Proof.Machine

variable {α : Type}

@[simp] theorem Cells.get?_nil (a : Nat) : Cells.get? ([] : Cells α) a = none := rfl

theorem Cells.get?_cons (k : Nat) (v : α) (m : Cells α) (a : Nat) :
    Cells.get? ((k, v) :: m) a = if k = a then some v else Cells.get? m a := rfl

/-- A read after a write: the written content at its key, everything else as before. -/
theorem Cells.get?_set (m : Cells α) (a b : Nat) (v : α) :
    Cells.get? (Cells.set m a v) b = if a = b then some v else Cells.get? m b := by
  induction m with
  | nil => rfl
  | cons p m ih =>
    obtain ⟨k, w⟩ := p
    unfold Cells.set
    split
    · rfl
    · split
      · subst a
        simp only [Cells.get?_cons]
        split <;> rfl
      · simp only [Cells.get?_cons, ih]
        split
        · split
          · omega
          · rfl
        · rfl

/-- The keys listed after a write are the written one and those listed before. -/
theorem Cells.mem_keys_set (m : Cells α) (a k : Nat) (v : α) :
    k ∈ (Cells.set m a v).map Prod.fst ↔ k = a ∨ k ∈ m.map Prod.fst := by
  induction m with
  | nil => simp [Cells.set]
  | cons p m ih =>
    obtain ⟨c, w⟩ := p
    unfold Cells.set
    split
    · simp
    · split
      · subst a; simp
      · simp only [List.map_cons, List.mem_cons, ih]
        tauto

/-- A write keeps the canonical form. -/
theorem Cells.set_wf (m : Cells α) (a : Nat) (v : α) (h : Cells.wf m) : Cells.wf (Cells.set m a v) := by
  induction m with
  | nil => simp [Cells.set, Cells.wf]
  | cons p m ih =>
    obtain ⟨c, w⟩ := p
    unfold Cells.wf at h ih ⊢
    rw [List.map_cons, List.pairwise_cons] at h
    unfold Cells.set
    split
    · rw [List.map_cons, List.pairwise_cons, List.map_cons, List.pairwise_cons]
      refine ⟨fun k hk => ?_, h⟩
      rcases List.mem_cons.mp hk with rfl | hk
      · assumption
      · exact lt_trans ‹a < c› (h.1 k hk)
    · split
      · subst a
        rw [List.map_cons, List.pairwise_cons]
        exact h
      · rw [List.map_cons, List.pairwise_cons]
        refine ⟨fun k hk => ?_, ih h.2⟩
        rcases (Cells.mem_keys_set m a k v).mp hk with rfl | hk
        · show c < k
          omega
        · exact h.1 k hk

/-- A listed key is one with a specified content. -/
theorem Cells.mem_keys_iff (m : Cells α) (k : Nat) : k ∈ m.map Prod.fst ↔ (Cells.get? m k).isSome := by
  induction m with
  | nil => simp
  | cons p m ih =>
    obtain ⟨c, w⟩ := p
    rw [List.map_cons, List.mem_cons, ih, Cells.get?_cons]
    by_cases h : c = k
    · simp [h]
    · simp [h, Ne.symm h]

/-- Cells of a list hold the list from the first key on. -/
theorem Cells.get?_ofList (vs : List α) (a b : Nat) :
    Cells.get? (Cells.ofList a vs) b = if a ≤ b then vs[b - a]? else none := by
  induction vs generalizing a with
  | nil => simp [Cells.ofList]
  | cons v vs ih =>
    rw [Cells.ofList, Cells.get?_cons, ih]
    by_cases h : a = b
    · subst h; simp
    · by_cases h2 : a ≤ b
      · have h3 : a + 1 ≤ b := by omega
        have h4 : b - a = (b - (a + 1)) + 1 := by omega
        simp [h, h2, h3, h4]
      · have h3 : ¬ a + 1 ≤ b := by omega
        simp [h, h2, h3]

theorem Cells.keys_ofList (vs : List α) (a : Nat) :
    (Cells.ofList a vs).map Prod.fst = List.range' a vs.length := by
  induction vs generalizing a with
  | nil => rfl
  | cons v vs ih => simp [Cells.ofList, ih, List.range'_succ]

/-- Cells of a list are in canonical form. -/
theorem Cells.ofList_wf (vs : List α) (a : Nat) : Cells.wf (Cells.ofList a vs) := by
  unfold Cells.wf
  rw [Cells.keys_ofList]
  exact List.pairwise_lt_range'

theorem Cells.mem_keys_ofList (vs : List α) (a k : Nat) :
    k ∈ (Cells.ofList a vs).map Prod.fst ↔ a ≤ k ∧ k < a + vs.length := by
  rw [Cells.keys_ofList, List.mem_range'_1]

end Sys2Proof.Machine
end

