-- ==== Sys2Proof/Laws/State.lean ====
section
/-!
SUPPORT. What each named update of State does to each field, once and for all: true by unfolding and in the simp set, so that no
later proof unfolds a record update.
-/

namespace Sys2Proof.Machine

@[simp] theorem State.accept_cmd (s : State) (w : Word) : (s.accept w).cmd = w := rfl
@[simp] theorem State.accept_busy (s : State) (w : Word) : (s.accept w).busy = true := rfl
@[simp] theorem State.accept_done (s : State) (w : Word) : (s.accept w).done = false := rfl
@[simp] theorem State.accept_err (s : State) (w : Word) : (s.accept w).err = false := rfl
@[simp] theorem State.accept_codesValid (s : State) (w : Word) : (s.accept w).codesValid = s.codesValid := rfl
@[simp] theorem State.accept_hdrValid (s : State) (w : Word) : (s.accept w).hdrValid = s.hdrValid := rfl
@[simp] theorem State.accept_single (s : State) (w : Word) : (s.accept w).single = s.single := rfl
@[simp] theorem State.accept_hostViol (s : State) (w : Word) : (s.accept w).hostViol = s.hostViol := rfl
@[simp] theorem State.accept_bstate (s : State) (w : Word) : (s.accept w).bstate = s.bstate := rfl
@[simp] theorem State.accept_phase (s : State) (w : Word) : (s.accept w).phase = s.phase := rfl
@[simp] theorem State.accept_errCode (s : State) (w : Word) : (s.accept w).errCode = 0 := rfl
@[simp] theorem State.accept_errSub (s : State) (w : Word) : (s.accept w).errSub = 0 := rfl
@[simp] theorem State.accept_errOp (s : State) (w : Word) : (s.accept w).errOp = 0 := rfl
@[simp] theorem State.accept_errInfo (s : State) (w : Word) : (s.accept w).errInfo = 0 := rfl
@[simp] theorem State.accept_strict (s : State) (w : Word) : (s.accept w).strict = s.strict := rfl
@[simp] theorem State.accept_irqEn (s : State) (w : Word) : (s.accept w).irqEn = s.irqEn := rfl
@[simp] theorem State.accept_inLen (s : State) (w : Word) : (s.accept w).inLen = s.inLen := rfl
@[simp] theorem State.accept_outLen (s : State) (w : Word) : (s.accept w).outLen = s.outLen := rfl
@[simp] theorem State.accept_nodeCount (s : State) (w : Word) : (s.accept w).nodeCount = s.nodeCount := rfl
@[simp] theorem State.accept_activeCount (s : State) (w : Word) : (s.accept w).activeCount = s.activeCount := rfl
@[simp] theorem State.accept_root (s : State) (w : Word) : (s.accept w).root = s.root := rfl
@[simp] theorem State.accept_padding (s : State) (w : Word) : (s.accept w).padding = s.padding := rfl
@[simp] theorem State.accept_payloadOff (s : State) (w : Word) : (s.accept w).payloadOff = s.payloadOff := rfl
@[simp] theorem State.accept_payloadBits (s : State) (w : Word) : (s.accept w).payloadBits = s.payloadBits := rfl
@[simp] theorem State.accept_capIn (s : State) (w : Word) : (s.accept w).capIn = s.capIn := rfl
@[simp] theorem State.accept_capOut (s : State) (w : Word) : (s.accept w).capOut = s.capOut := rfl
@[simp] theorem State.accept_freq (s : State) (w : Word) : (s.accept w).freq = s.freq := rfl
@[simp] theorem State.accept_node (s : State) (w : Word) : (s.accept w).node = s.node := rfl
@[simp] theorem State.accept_code (s : State) (w : Word) : (s.accept w).code = s.code := rfl
@[simp] theorem State.accept_inBuf (s : State) (w : Word) : (s.accept w).inBuf = s.inBuf := rfl
@[simp] theorem State.accept_outBuf (s : State) (w : Word) : (s.accept w).outBuf = s.outBuf := rfl
@[simp] theorem State.accept_rdata (s : State) (w : Word) : (s.accept w).rdata = s.rdata := rfl
@[simp] theorem State.accept_turns (s : State) (w : Word) : (s.accept w).turns = s.turns := rfl
@[simp] theorem State.accept_draw (s : State) (w : Word) : (s.accept w).draw = s.draw := rfl
@[simp] theorem State.accept_era (s : State) (w : Word) : (s.accept w).era = s.era := rfl

@[simp] theorem State.completed_cmd (s : State) : (s.completed).cmd = s.cmd := rfl
@[simp] theorem State.completed_busy (s : State) : (s.completed).busy = false := rfl
@[simp] theorem State.completed_done (s : State) : (s.completed).done = true := rfl
@[simp] theorem State.completed_err (s : State) : (s.completed).err = s.err := rfl
@[simp] theorem State.completed_codesValid (s : State) : (s.completed).codesValid = s.codesValid := rfl
@[simp] theorem State.completed_hdrValid (s : State) : (s.completed).hdrValid = s.hdrValid := rfl
@[simp] theorem State.completed_single (s : State) : (s.completed).single = s.single := rfl
@[simp] theorem State.completed_hostViol (s : State) : (s.completed).hostViol = s.hostViol := rfl
@[simp] theorem State.completed_bstate (s : State) : (s.completed).bstate = s.bstate := rfl
@[simp] theorem State.completed_phase (s : State) : (s.completed).phase = 0 := rfl
@[simp] theorem State.completed_errCode (s : State) : (s.completed).errCode = s.errCode := rfl
@[simp] theorem State.completed_errSub (s : State) : (s.completed).errSub = s.errSub := rfl
@[simp] theorem State.completed_errOp (s : State) : (s.completed).errOp = s.errOp := rfl
@[simp] theorem State.completed_errInfo (s : State) : (s.completed).errInfo = s.errInfo := rfl
@[simp] theorem State.completed_strict (s : State) : (s.completed).strict = s.strict := rfl
@[simp] theorem State.completed_irqEn (s : State) : (s.completed).irqEn = s.irqEn := rfl
@[simp] theorem State.completed_inLen (s : State) : (s.completed).inLen = s.inLen := rfl
@[simp] theorem State.completed_outLen (s : State) : (s.completed).outLen = s.outLen := rfl
@[simp] theorem State.completed_nodeCount (s : State) : (s.completed).nodeCount = s.nodeCount := rfl
@[simp] theorem State.completed_activeCount (s : State) : (s.completed).activeCount = s.activeCount := rfl
@[simp] theorem State.completed_root (s : State) : (s.completed).root = s.root := rfl
@[simp] theorem State.completed_padding (s : State) : (s.completed).padding = s.padding := rfl
@[simp] theorem State.completed_payloadOff (s : State) : (s.completed).payloadOff = s.payloadOff := rfl
@[simp] theorem State.completed_payloadBits (s : State) : (s.completed).payloadBits = s.payloadBits := rfl
@[simp] theorem State.completed_capIn (s : State) : (s.completed).capIn = s.capIn := rfl
@[simp] theorem State.completed_capOut (s : State) : (s.completed).capOut = s.capOut := rfl
@[simp] theorem State.completed_freq (s : State) : (s.completed).freq = s.freq := rfl
@[simp] theorem State.completed_node (s : State) : (s.completed).node = s.node := rfl
@[simp] theorem State.completed_code (s : State) : (s.completed).code = s.code := rfl
@[simp] theorem State.completed_inBuf (s : State) : (s.completed).inBuf = s.inBuf := rfl
@[simp] theorem State.completed_outBuf (s : State) : (s.completed).outBuf = s.outBuf := rfl
@[simp] theorem State.completed_rdata (s : State) : (s.completed).rdata = s.rdata := rfl
@[simp] theorem State.completed_turns (s : State) : (s.completed).turns = s.turns := rfl
@[simp] theorem State.completed_draw (s : State) : (s.completed).draw = s.draw + 1 := rfl
@[simp] theorem State.completed_era (s : State) : (s.completed).era = s.era := rfl

@[simp] theorem State.takeError_cmd (s : State) (spoils : Bool) (c : Cause) (info : Word) : (s.takeError spoils c info).cmd = s.cmd := rfl
@[simp] theorem State.takeError_busy (s : State) (spoils : Bool) (c : Cause) (info : Word) : (s.takeError spoils c info).busy = false := rfl
@[simp] theorem State.takeError_done (s : State) (spoils : Bool) (c : Cause) (info : Word) : (s.takeError spoils c info).done = true := rfl
@[simp] theorem State.takeError_err (s : State) (spoils : Bool) (c : Cause) (info : Word) : (s.takeError spoils c info).err = true := rfl
@[simp] theorem State.takeError_codesValid (s : State) (spoils : Bool) (c : Cause) (info : Word) : (s.takeError spoils c info).codesValid = s.codesValid := rfl
@[simp] theorem State.takeError_hdrValid (s : State) (spoils : Bool) (c : Cause) (info : Word) : (s.takeError spoils c info).hdrValid = s.hdrValid := rfl
@[simp] theorem State.takeError_single (s : State) (spoils : Bool) (c : Cause) (info : Word) : (s.takeError spoils c info).single = s.single := rfl
@[simp] theorem State.takeError_hostViol (s : State) (spoils : Bool) (c : Cause) (info : Word) : (s.takeError spoils c info).hostViol = s.hostViol := rfl
@[simp] theorem State.takeError_bstate (s : State) (spoils : Bool) (c : Cause) (info : Word) : (s.takeError spoils c info).bstate = s.bstate := rfl
@[simp] theorem State.takeError_phase (s : State) (spoils : Bool) (c : Cause) (info : Word) : (s.takeError spoils c info).phase = 0 := rfl
@[simp] theorem State.takeError_errCode (s : State) (spoils : Bool) (c : Cause) (info : Word) : (s.takeError spoils c info).errCode = c.code := rfl
@[simp] theorem State.takeError_errSub (s : State) (spoils : Bool) (c : Cause) (info : Word) : (s.takeError spoils c info).errSub = c.sub := rfl
@[simp] theorem State.takeError_errOp (s : State) (spoils : Bool) (c : Cause) (info : Word) : (s.takeError spoils c info).errOp = opField s.cmd := rfl
@[simp] theorem State.takeError_errInfo (s : State) (spoils : Bool) (c : Cause) (info : Word) : (s.takeError spoils c info).errInfo = info := rfl
@[simp] theorem State.takeError_strict (s : State) (spoils : Bool) (c : Cause) (info : Word) : (s.takeError spoils c info).strict = s.strict := rfl
@[simp] theorem State.takeError_irqEn (s : State) (spoils : Bool) (c : Cause) (info : Word) : (s.takeError spoils c info).irqEn = s.irqEn := rfl
@[simp] theorem State.takeError_inLen (s : State) (spoils : Bool) (c : Cause) (info : Word) : (s.takeError spoils c info).inLen = s.inLen := rfl
@[simp] theorem State.takeError_outLen (s : State) (spoils : Bool) (c : Cause) (info : Word) : (s.takeError spoils c info).outLen = 0 := rfl
@[simp] theorem State.takeError_nodeCount (s : State) (spoils : Bool) (c : Cause) (info : Word) : (s.takeError spoils c info).nodeCount = s.nodeCount := rfl
@[simp] theorem State.takeError_activeCount (s : State) (spoils : Bool) (c : Cause) (info : Word) : (s.takeError spoils c info).activeCount = s.activeCount := rfl
@[simp] theorem State.takeError_root (s : State) (spoils : Bool) (c : Cause) (info : Word) : (s.takeError spoils c info).root = s.root := rfl
@[simp] theorem State.takeError_padding (s : State) (spoils : Bool) (c : Cause) (info : Word) : (s.takeError spoils c info).padding = s.padding := rfl
@[simp] theorem State.takeError_payloadOff (s : State) (spoils : Bool) (c : Cause) (info : Word) : (s.takeError spoils c info).payloadOff = s.payloadOff := rfl
@[simp] theorem State.takeError_payloadBits (s : State) (spoils : Bool) (c : Cause) (info : Word) : (s.takeError spoils c info).payloadBits = s.payloadBits := rfl
@[simp] theorem State.takeError_capIn (s : State) (spoils : Bool) (c : Cause) (info : Word) : (s.takeError spoils c info).capIn = s.capIn := rfl
@[simp] theorem State.takeError_capOut (s : State) (spoils : Bool) (c : Cause) (info : Word) : (s.takeError spoils c info).capOut = s.capOut := rfl
@[simp] theorem State.takeError_freq (s : State) (spoils : Bool) (c : Cause) (info : Word) : (s.takeError spoils c info).freq = s.freq := rfl
@[simp] theorem State.takeError_node (s : State) (spoils : Bool) (c : Cause) (info : Word) : (s.takeError spoils c info).node = s.node := rfl
@[simp] theorem State.takeError_code (s : State) (spoils : Bool) (c : Cause) (info : Word) : (s.takeError spoils c info).code = s.code := rfl
@[simp] theorem State.takeError_inBuf (s : State) (spoils : Bool) (c : Cause) (info : Word) : (s.takeError spoils c info).inBuf = s.inBuf := rfl
@[simp] theorem State.takeError_outBuf (s : State) (spoils : Bool) (c : Cause) (info : Word) : (s.takeError spoils c info).outBuf = (if spoils then [] else s.outBuf) := rfl
@[simp] theorem State.takeError_rdata (s : State) (spoils : Bool) (c : Cause) (info : Word) : (s.takeError spoils c info).rdata = s.rdata := rfl
@[simp] theorem State.takeError_turns (s : State) (spoils : Bool) (c : Cause) (info : Word) : (s.takeError spoils c info).turns = s.turns := rfl
@[simp] theorem State.takeError_draw (s : State) (spoils : Bool) (c : Cause) (info : Word) : (s.takeError spoils c info).draw = s.draw + 1 := rfl
@[simp] theorem State.takeError_era (s : State) (spoils : Bool) (c : Cause) (info : Word) : (s.takeError spoils c info).era = s.era := rfl

@[simp] theorem State.dropTree_cmd (s : State) : (s.dropTree).cmd = s.cmd := rfl
@[simp] theorem State.dropTree_busy (s : State) : (s.dropTree).busy = s.busy := rfl
@[simp] theorem State.dropTree_done (s : State) : (s.dropTree).done = s.done := rfl
@[simp] theorem State.dropTree_err (s : State) : (s.dropTree).err = s.err := rfl
@[simp] theorem State.dropTree_codesValid (s : State) : (s.dropTree).codesValid = false := rfl
@[simp] theorem State.dropTree_hdrValid (s : State) : (s.dropTree).hdrValid = s.hdrValid := rfl
@[simp] theorem State.dropTree_single (s : State) : (s.dropTree).single = false := rfl
@[simp] theorem State.dropTree_hostViol (s : State) : (s.dropTree).hostViol = s.hostViol := rfl
@[simp] theorem State.dropTree_bstate (s : State) : (s.dropTree).bstate = .idle := rfl
@[simp] theorem State.dropTree_phase (s : State) : (s.dropTree).phase = s.phase := rfl
@[simp] theorem State.dropTree_errCode (s : State) : (s.dropTree).errCode = s.errCode := rfl
@[simp] theorem State.dropTree_errSub (s : State) : (s.dropTree).errSub = s.errSub := rfl
@[simp] theorem State.dropTree_errOp (s : State) : (s.dropTree).errOp = s.errOp := rfl
@[simp] theorem State.dropTree_errInfo (s : State) : (s.dropTree).errInfo = s.errInfo := rfl
@[simp] theorem State.dropTree_strict (s : State) : (s.dropTree).strict = s.strict := rfl
@[simp] theorem State.dropTree_irqEn (s : State) : (s.dropTree).irqEn = s.irqEn := rfl
@[simp] theorem State.dropTree_inLen (s : State) : (s.dropTree).inLen = s.inLen := rfl
@[simp] theorem State.dropTree_outLen (s : State) : (s.dropTree).outLen = s.outLen := rfl
@[simp] theorem State.dropTree_nodeCount (s : State) : (s.dropTree).nodeCount = s.nodeCount := rfl
@[simp] theorem State.dropTree_activeCount (s : State) : (s.dropTree).activeCount = s.activeCount := rfl
@[simp] theorem State.dropTree_root (s : State) : (s.dropTree).root = s.root := rfl
@[simp] theorem State.dropTree_padding (s : State) : (s.dropTree).padding = s.padding := rfl
@[simp] theorem State.dropTree_payloadOff (s : State) : (s.dropTree).payloadOff = s.payloadOff := rfl
@[simp] theorem State.dropTree_payloadBits (s : State) : (s.dropTree).payloadBits = s.payloadBits := rfl
@[simp] theorem State.dropTree_capIn (s : State) : (s.dropTree).capIn = s.capIn := rfl
@[simp] theorem State.dropTree_capOut (s : State) : (s.dropTree).capOut = s.capOut := rfl
@[simp] theorem State.dropTree_freq (s : State) : (s.dropTree).freq = s.freq := rfl
@[simp] theorem State.dropTree_node (s : State) : (s.dropTree).node = s.node := rfl
@[simp] theorem State.dropTree_code (s : State) : (s.dropTree).code = s.code := rfl
@[simp] theorem State.dropTree_inBuf (s : State) : (s.dropTree).inBuf = s.inBuf := rfl
@[simp] theorem State.dropTree_outBuf (s : State) : (s.dropTree).outBuf = s.outBuf := rfl
@[simp] theorem State.dropTree_rdata (s : State) : (s.dropTree).rdata = s.rdata := rfl
@[simp] theorem State.dropTree_turns (s : State) : (s.dropTree).turns = s.turns := rfl
@[simp] theorem State.dropTree_draw (s : State) : (s.dropTree).draw = s.draw := rfl
@[simp] theorem State.dropTree_era (s : State) : (s.dropTree).era = s.era := rfl

@[simp] theorem State.violate_cmd (s : State) : (s.violate).cmd = s.cmd := rfl
@[simp] theorem State.violate_busy (s : State) : (s.violate).busy = s.busy := rfl
@[simp] theorem State.violate_done (s : State) : (s.violate).done = s.done := rfl
@[simp] theorem State.violate_err (s : State) : (s.violate).err = s.err := rfl
@[simp] theorem State.violate_codesValid (s : State) : (s.violate).codesValid = s.codesValid := rfl
@[simp] theorem State.violate_hdrValid (s : State) : (s.violate).hdrValid = s.hdrValid := rfl
@[simp] theorem State.violate_single (s : State) : (s.violate).single = s.single := rfl
@[simp] theorem State.violate_hostViol (s : State) : (s.violate).hostViol = true := rfl
@[simp] theorem State.violate_bstate (s : State) : (s.violate).bstate = s.bstate := rfl
@[simp] theorem State.violate_phase (s : State) : (s.violate).phase = s.phase := rfl
@[simp] theorem State.violate_errCode (s : State) : (s.violate).errCode = s.errCode := rfl
@[simp] theorem State.violate_errSub (s : State) : (s.violate).errSub = s.errSub := rfl
@[simp] theorem State.violate_errOp (s : State) : (s.violate).errOp = s.errOp := rfl
@[simp] theorem State.violate_errInfo (s : State) : (s.violate).errInfo = s.errInfo := rfl
@[simp] theorem State.violate_strict (s : State) : (s.violate).strict = s.strict := rfl
@[simp] theorem State.violate_irqEn (s : State) : (s.violate).irqEn = s.irqEn := rfl
@[simp] theorem State.violate_inLen (s : State) : (s.violate).inLen = s.inLen := rfl
@[simp] theorem State.violate_outLen (s : State) : (s.violate).outLen = s.outLen := rfl
@[simp] theorem State.violate_nodeCount (s : State) : (s.violate).nodeCount = s.nodeCount := rfl
@[simp] theorem State.violate_activeCount (s : State) : (s.violate).activeCount = s.activeCount := rfl
@[simp] theorem State.violate_root (s : State) : (s.violate).root = s.root := rfl
@[simp] theorem State.violate_padding (s : State) : (s.violate).padding = s.padding := rfl
@[simp] theorem State.violate_payloadOff (s : State) : (s.violate).payloadOff = s.payloadOff := rfl
@[simp] theorem State.violate_payloadBits (s : State) : (s.violate).payloadBits = s.payloadBits := rfl
@[simp] theorem State.violate_capIn (s : State) : (s.violate).capIn = s.capIn := rfl
@[simp] theorem State.violate_capOut (s : State) : (s.violate).capOut = s.capOut := rfl
@[simp] theorem State.violate_freq (s : State) : (s.violate).freq = s.freq := rfl
@[simp] theorem State.violate_node (s : State) : (s.violate).node = s.node := rfl
@[simp] theorem State.violate_code (s : State) : (s.violate).code = s.code := rfl
@[simp] theorem State.violate_inBuf (s : State) : (s.violate).inBuf = s.inBuf := rfl
@[simp] theorem State.violate_outBuf (s : State) : (s.violate).outBuf = s.outBuf := rfl
@[simp] theorem State.violate_rdata (s : State) : (s.violate).rdata = s.rdata := rfl
@[simp] theorem State.violate_turns (s : State) : (s.violate).turns = s.turns := rfl
@[simp] theorem State.violate_draw (s : State) : (s.violate).draw = s.draw := rfl
@[simp] theorem State.violate_era (s : State) : (s.violate).era = s.era := rfl

@[simp] theorem State.setNode_cmd (s : State) (i : NodeIdx) (v : NodeSlot) : (s.setNode i v).cmd = s.cmd := rfl
@[simp] theorem State.setNode_busy (s : State) (i : NodeIdx) (v : NodeSlot) : (s.setNode i v).busy = s.busy := rfl
@[simp] theorem State.setNode_done (s : State) (i : NodeIdx) (v : NodeSlot) : (s.setNode i v).done = s.done := rfl
@[simp] theorem State.setNode_err (s : State) (i : NodeIdx) (v : NodeSlot) : (s.setNode i v).err = s.err := rfl
@[simp] theorem State.setNode_codesValid (s : State) (i : NodeIdx) (v : NodeSlot) : (s.setNode i v).codesValid = s.codesValid := rfl
@[simp] theorem State.setNode_hdrValid (s : State) (i : NodeIdx) (v : NodeSlot) : (s.setNode i v).hdrValid = s.hdrValid := rfl
@[simp] theorem State.setNode_single (s : State) (i : NodeIdx) (v : NodeSlot) : (s.setNode i v).single = s.single := rfl
@[simp] theorem State.setNode_hostViol (s : State) (i : NodeIdx) (v : NodeSlot) : (s.setNode i v).hostViol = s.hostViol := rfl
@[simp] theorem State.setNode_bstate (s : State) (i : NodeIdx) (v : NodeSlot) : (s.setNode i v).bstate = s.bstate := rfl
@[simp] theorem State.setNode_phase (s : State) (i : NodeIdx) (v : NodeSlot) : (s.setNode i v).phase = s.phase := rfl
@[simp] theorem State.setNode_errCode (s : State) (i : NodeIdx) (v : NodeSlot) : (s.setNode i v).errCode = s.errCode := rfl
@[simp] theorem State.setNode_errSub (s : State) (i : NodeIdx) (v : NodeSlot) : (s.setNode i v).errSub = s.errSub := rfl
@[simp] theorem State.setNode_errOp (s : State) (i : NodeIdx) (v : NodeSlot) : (s.setNode i v).errOp = s.errOp := rfl
@[simp] theorem State.setNode_errInfo (s : State) (i : NodeIdx) (v : NodeSlot) : (s.setNode i v).errInfo = s.errInfo := rfl
@[simp] theorem State.setNode_strict (s : State) (i : NodeIdx) (v : NodeSlot) : (s.setNode i v).strict = s.strict := rfl
@[simp] theorem State.setNode_irqEn (s : State) (i : NodeIdx) (v : NodeSlot) : (s.setNode i v).irqEn = s.irqEn := rfl
@[simp] theorem State.setNode_inLen (s : State) (i : NodeIdx) (v : NodeSlot) : (s.setNode i v).inLen = s.inLen := rfl
@[simp] theorem State.setNode_outLen (s : State) (i : NodeIdx) (v : NodeSlot) : (s.setNode i v).outLen = s.outLen := rfl
@[simp] theorem State.setNode_nodeCount (s : State) (i : NodeIdx) (v : NodeSlot) : (s.setNode i v).nodeCount = s.nodeCount := rfl
@[simp] theorem State.setNode_activeCount (s : State) (i : NodeIdx) (v : NodeSlot) : (s.setNode i v).activeCount = s.activeCount := rfl
@[simp] theorem State.setNode_root (s : State) (i : NodeIdx) (v : NodeSlot) : (s.setNode i v).root = s.root := rfl
@[simp] theorem State.setNode_padding (s : State) (i : NodeIdx) (v : NodeSlot) : (s.setNode i v).padding = s.padding := rfl
@[simp] theorem State.setNode_payloadOff (s : State) (i : NodeIdx) (v : NodeSlot) : (s.setNode i v).payloadOff = s.payloadOff := rfl
@[simp] theorem State.setNode_payloadBits (s : State) (i : NodeIdx) (v : NodeSlot) : (s.setNode i v).payloadBits = s.payloadBits := rfl
@[simp] theorem State.setNode_capIn (s : State) (i : NodeIdx) (v : NodeSlot) : (s.setNode i v).capIn = s.capIn := rfl
@[simp] theorem State.setNode_capOut (s : State) (i : NodeIdx) (v : NodeSlot) : (s.setNode i v).capOut = s.capOut := rfl
@[simp] theorem State.setNode_freq (s : State) (i : NodeIdx) (v : NodeSlot) : (s.setNode i v).freq = s.freq := rfl
@[simp] theorem State.setNode_code (s : State) (i : NodeIdx) (v : NodeSlot) : (s.setNode i v).code = s.code := rfl
@[simp] theorem State.setNode_inBuf (s : State) (i : NodeIdx) (v : NodeSlot) : (s.setNode i v).inBuf = s.inBuf := rfl
@[simp] theorem State.setNode_outBuf (s : State) (i : NodeIdx) (v : NodeSlot) : (s.setNode i v).outBuf = s.outBuf := rfl
@[simp] theorem State.setNode_rdata (s : State) (i : NodeIdx) (v : NodeSlot) : (s.setNode i v).rdata = s.rdata := rfl
@[simp] theorem State.setNode_turns (s : State) (i : NodeIdx) (v : NodeSlot) : (s.setNode i v).turns = s.turns := rfl
@[simp] theorem State.setNode_draw (s : State) (i : NodeIdx) (v : NodeSlot) : (s.setNode i v).draw = s.draw := rfl
@[simp] theorem State.setNode_era (s : State) (i : NodeIdx) (v : NodeSlot) : (s.setNode i v).era = s.era := rfl

@[simp] theorem State.popTurn_cmd (s : State) : (s.popTurn).cmd = s.cmd := rfl
@[simp] theorem State.popTurn_busy (s : State) : (s.popTurn).busy = s.busy := rfl
@[simp] theorem State.popTurn_done (s : State) : (s.popTurn).done = s.done := rfl
@[simp] theorem State.popTurn_err (s : State) : (s.popTurn).err = s.err := rfl
@[simp] theorem State.popTurn_codesValid (s : State) : (s.popTurn).codesValid = s.codesValid := rfl
@[simp] theorem State.popTurn_hdrValid (s : State) : (s.popTurn).hdrValid = s.hdrValid := rfl
@[simp] theorem State.popTurn_single (s : State) : (s.popTurn).single = s.single := rfl
@[simp] theorem State.popTurn_hostViol (s : State) : (s.popTurn).hostViol = s.hostViol := rfl
@[simp] theorem State.popTurn_bstate (s : State) : (s.popTurn).bstate = s.bstate := rfl
@[simp] theorem State.popTurn_phase (s : State) : (s.popTurn).phase = s.phase := rfl
@[simp] theorem State.popTurn_errCode (s : State) : (s.popTurn).errCode = s.errCode := rfl
@[simp] theorem State.popTurn_errSub (s : State) : (s.popTurn).errSub = s.errSub := rfl
@[simp] theorem State.popTurn_errOp (s : State) : (s.popTurn).errOp = s.errOp := rfl
@[simp] theorem State.popTurn_errInfo (s : State) : (s.popTurn).errInfo = s.errInfo := rfl
@[simp] theorem State.popTurn_strict (s : State) : (s.popTurn).strict = s.strict := rfl
@[simp] theorem State.popTurn_irqEn (s : State) : (s.popTurn).irqEn = s.irqEn := rfl
@[simp] theorem State.popTurn_inLen (s : State) : (s.popTurn).inLen = s.inLen := rfl
@[simp] theorem State.popTurn_outLen (s : State) : (s.popTurn).outLen = s.outLen := rfl
@[simp] theorem State.popTurn_nodeCount (s : State) : (s.popTurn).nodeCount = s.nodeCount := rfl
@[simp] theorem State.popTurn_activeCount (s : State) : (s.popTurn).activeCount = s.activeCount := rfl
@[simp] theorem State.popTurn_root (s : State) : (s.popTurn).root = s.root := rfl
@[simp] theorem State.popTurn_padding (s : State) : (s.popTurn).padding = s.padding := rfl
@[simp] theorem State.popTurn_payloadOff (s : State) : (s.popTurn).payloadOff = s.payloadOff := rfl
@[simp] theorem State.popTurn_payloadBits (s : State) : (s.popTurn).payloadBits = s.payloadBits := rfl
@[simp] theorem State.popTurn_capIn (s : State) : (s.popTurn).capIn = s.capIn := rfl
@[simp] theorem State.popTurn_capOut (s : State) : (s.popTurn).capOut = s.capOut := rfl
@[simp] theorem State.popTurn_freq (s : State) : (s.popTurn).freq = s.freq := rfl
@[simp] theorem State.popTurn_node (s : State) : (s.popTurn).node = s.node := rfl
@[simp] theorem State.popTurn_code (s : State) : (s.popTurn).code = s.code := rfl
@[simp] theorem State.popTurn_inBuf (s : State) : (s.popTurn).inBuf = s.inBuf := rfl
@[simp] theorem State.popTurn_outBuf (s : State) : (s.popTurn).outBuf = s.outBuf := rfl
@[simp] theorem State.popTurn_rdata (s : State) : (s.popTurn).rdata = s.rdata := rfl
@[simp] theorem State.popTurn_turns (s : State) : (s.popTurn).turns = s.turns.tail := rfl
@[simp] theorem State.popTurn_draw (s : State) : (s.popTurn).draw = s.draw := rfl
@[simp] theorem State.popTurn_era (s : State) : (s.popTurn).era = s.era := rfl

@[simp] theorem mergeStep_cmd (s : State) : (mergeStep s).cmd = s.cmd := by
  simp only [mergeStep]
@[simp] theorem mergeStep_busy (s : State) : (mergeStep s).busy = s.busy := by
  simp only [mergeStep]
@[simp] theorem mergeStep_done (s : State) : (mergeStep s).done = s.done := by
  simp only [mergeStep]
@[simp] theorem mergeStep_err (s : State) : (mergeStep s).err = s.err := by
  simp only [mergeStep]
@[simp] theorem mergeStep_codesValid (s : State) : (mergeStep s).codesValid = s.codesValid := by
  simp only [mergeStep]
@[simp] theorem mergeStep_hdrValid (s : State) : (mergeStep s).hdrValid = s.hdrValid := by
  simp only [mergeStep]
@[simp] theorem mergeStep_single (s : State) : (mergeStep s).single = s.single := by
  simp only [mergeStep]
@[simp] theorem mergeStep_hostViol (s : State) : (mergeStep s).hostViol = s.hostViol := by
  simp only [mergeStep]
@[simp] theorem mergeStep_bstate (s : State) : (mergeStep s).bstate = (if s.activeCount - 1 = 1 then .done else s.bstate) := by
  simp only [mergeStep]
@[simp] theorem mergeStep_phase (s : State) : (mergeStep s).phase = s.phase := by
  simp only [mergeStep]
@[simp] theorem mergeStep_errCode (s : State) : (mergeStep s).errCode = s.errCode := by
  simp only [mergeStep]
@[simp] theorem mergeStep_errSub (s : State) : (mergeStep s).errSub = s.errSub := by
  simp only [mergeStep]
@[simp] theorem mergeStep_errOp (s : State) : (mergeStep s).errOp = s.errOp := by
  simp only [mergeStep]
@[simp] theorem mergeStep_errInfo (s : State) : (mergeStep s).errInfo = s.errInfo := by
  simp only [mergeStep]
@[simp] theorem mergeStep_strict (s : State) : (mergeStep s).strict = s.strict := by
  simp only [mergeStep]
@[simp] theorem mergeStep_irqEn (s : State) : (mergeStep s).irqEn = s.irqEn := by
  simp only [mergeStep]
@[simp] theorem mergeStep_inLen (s : State) : (mergeStep s).inLen = s.inLen := by
  simp only [mergeStep]
@[simp] theorem mergeStep_outLen (s : State) : (mergeStep s).outLen = s.outLen := by
  simp only [mergeStep]
@[simp] theorem mergeStep_nodeCount (s : State) : (mergeStep s).nodeCount = s.nodeCount + 1 := by
  simp only [mergeStep]
@[simp] theorem mergeStep_activeCount (s : State) : (mergeStep s).activeCount = s.activeCount - 1 := by
  simp only [mergeStep]
@[simp] theorem mergeStep_root (s : State) : (mergeStep s).root = (if s.activeCount - 1 = 1 then s.nodeCount else s.root) := by
  simp only [mergeStep]
@[simp] theorem mergeStep_padding (s : State) : (mergeStep s).padding = s.padding := by
  simp only [mergeStep]
@[simp] theorem mergeStep_payloadOff (s : State) : (mergeStep s).payloadOff = s.payloadOff := by
  simp only [mergeStep]
@[simp] theorem mergeStep_payloadBits (s : State) : (mergeStep s).payloadBits = s.payloadBits := by
  simp only [mergeStep]
@[simp] theorem mergeStep_capIn (s : State) : (mergeStep s).capIn = s.capIn := by
  simp only [mergeStep]
@[simp] theorem mergeStep_capOut (s : State) : (mergeStep s).capOut = s.capOut := by
  simp only [mergeStep]
@[simp] theorem mergeStep_freq (s : State) : (mergeStep s).freq = s.freq := by
  simp only [mergeStep]
@[simp] theorem mergeStep_node (s : State) : (mergeStep s).node = s.mergedNodes s.selection.1 s.selection.2 := by
  simp only [mergeStep]
@[simp] theorem mergeStep_code (s : State) : (mergeStep s).code = s.code := by
  simp only [mergeStep]
@[simp] theorem mergeStep_inBuf (s : State) : (mergeStep s).inBuf = s.inBuf := by
  simp only [mergeStep]
@[simp] theorem mergeStep_outBuf (s : State) : (mergeStep s).outBuf = s.outBuf := by
  simp only [mergeStep]
@[simp] theorem mergeStep_rdata (s : State) : (mergeStep s).rdata = s.rdata := by
  simp only [mergeStep]
@[simp] theorem mergeStep_turns (s : State) : (mergeStep s).turns = s.turns := by
  simp only [mergeStep]
@[simp] theorem mergeStep_draw (s : State) : (mergeStep s).draw = s.draw := by
  simp only [mergeStep]
@[simp] theorem mergeStep_era (s : State) : (mergeStep s).era = s.era := by
  simp only [mergeStep]
@[simp] theorem State.deactivate_cmd (s : State) (i : NodeIdx) : (s.deactivate i).cmd = s.cmd := by
  simp only [State.deactivate, State.setNode]
@[simp] theorem State.deactivate_busy (s : State) (i : NodeIdx) : (s.deactivate i).busy = s.busy := by
  simp only [State.deactivate, State.setNode]
@[simp] theorem State.deactivate_done (s : State) (i : NodeIdx) : (s.deactivate i).done = s.done := by
  simp only [State.deactivate, State.setNode]
@[simp] theorem State.deactivate_err (s : State) (i : NodeIdx) : (s.deactivate i).err = s.err := by
  simp only [State.deactivate, State.setNode]
@[simp] theorem State.deactivate_codesValid (s : State) (i : NodeIdx) : (s.deactivate i).codesValid = s.codesValid := by
  simp only [State.deactivate, State.setNode]
@[simp] theorem State.deactivate_hdrValid (s : State) (i : NodeIdx) : (s.deactivate i).hdrValid = s.hdrValid := by
  simp only [State.deactivate, State.setNode]
@[simp] theorem State.deactivate_single (s : State) (i : NodeIdx) : (s.deactivate i).single = s.single := by
  simp only [State.deactivate, State.setNode]
@[simp] theorem State.deactivate_hostViol (s : State) (i : NodeIdx) : (s.deactivate i).hostViol = s.hostViol := by
  simp only [State.deactivate, State.setNode]
@[simp] theorem State.deactivate_bstate (s : State) (i : NodeIdx) : (s.deactivate i).bstate = s.bstate := by
  simp only [State.deactivate, State.setNode]
@[simp] theorem State.deactivate_phase (s : State) (i : NodeIdx) : (s.deactivate i).phase = s.phase := by
  simp only [State.deactivate, State.setNode]
@[simp] theorem State.deactivate_errCode (s : State) (i : NodeIdx) : (s.deactivate i).errCode = s.errCode := by
  simp only [State.deactivate, State.setNode]
@[simp] theorem State.deactivate_errSub (s : State) (i : NodeIdx) : (s.deactivate i).errSub = s.errSub := by
  simp only [State.deactivate, State.setNode]
@[simp] theorem State.deactivate_errOp (s : State) (i : NodeIdx) : (s.deactivate i).errOp = s.errOp := by
  simp only [State.deactivate, State.setNode]
@[simp] theorem State.deactivate_errInfo (s : State) (i : NodeIdx) : (s.deactivate i).errInfo = s.errInfo := by
  simp only [State.deactivate, State.setNode]
@[simp] theorem State.deactivate_strict (s : State) (i : NodeIdx) : (s.deactivate i).strict = s.strict := by
  simp only [State.deactivate, State.setNode]
@[simp] theorem State.deactivate_irqEn (s : State) (i : NodeIdx) : (s.deactivate i).irqEn = s.irqEn := by
  simp only [State.deactivate, State.setNode]
@[simp] theorem State.deactivate_inLen (s : State) (i : NodeIdx) : (s.deactivate i).inLen = s.inLen := by
  simp only [State.deactivate, State.setNode]
@[simp] theorem State.deactivate_outLen (s : State) (i : NodeIdx) : (s.deactivate i).outLen = s.outLen := by
  simp only [State.deactivate, State.setNode]
@[simp] theorem State.deactivate_nodeCount (s : State) (i : NodeIdx) : (s.deactivate i).nodeCount = s.nodeCount := by
  simp only [State.deactivate, State.setNode]
@[simp] theorem State.deactivate_activeCount (s : State) (i : NodeIdx) : (s.deactivate i).activeCount = s.activeCount := by
  simp only [State.deactivate, State.setNode]
@[simp] theorem State.deactivate_root (s : State) (i : NodeIdx) : (s.deactivate i).root = s.root := by
  simp only [State.deactivate, State.setNode]
@[simp] theorem State.deactivate_padding (s : State) (i : NodeIdx) : (s.deactivate i).padding = s.padding := by
  simp only [State.deactivate, State.setNode]
@[simp] theorem State.deactivate_payloadOff (s : State) (i : NodeIdx) : (s.deactivate i).payloadOff = s.payloadOff := by
  simp only [State.deactivate, State.setNode]
@[simp] theorem State.deactivate_payloadBits (s : State) (i : NodeIdx) : (s.deactivate i).payloadBits = s.payloadBits := by
  simp only [State.deactivate, State.setNode]
@[simp] theorem State.deactivate_capIn (s : State) (i : NodeIdx) : (s.deactivate i).capIn = s.capIn := by
  simp only [State.deactivate, State.setNode]
@[simp] theorem State.deactivate_capOut (s : State) (i : NodeIdx) : (s.deactivate i).capOut = s.capOut := by
  simp only [State.deactivate, State.setNode]
@[simp] theorem State.deactivate_freq (s : State) (i : NodeIdx) : (s.deactivate i).freq = s.freq := by
  simp only [State.deactivate, State.setNode]
@[simp] theorem State.deactivate_code (s : State) (i : NodeIdx) : (s.deactivate i).code = s.code := by
  simp only [State.deactivate, State.setNode]
@[simp] theorem State.deactivate_inBuf (s : State) (i : NodeIdx) : (s.deactivate i).inBuf = s.inBuf := by
  simp only [State.deactivate, State.setNode]
@[simp] theorem State.deactivate_outBuf (s : State) (i : NodeIdx) : (s.deactivate i).outBuf = s.outBuf := by
  simp only [State.deactivate, State.setNode]
@[simp] theorem State.deactivate_rdata (s : State) (i : NodeIdx) : (s.deactivate i).rdata = s.rdata := by
  simp only [State.deactivate, State.setNode]
@[simp] theorem State.deactivate_turns (s : State) (i : NodeIdx) : (s.deactivate i).turns = s.turns := by
  simp only [State.deactivate, State.setNode]
@[simp] theorem State.deactivate_draw (s : State) (i : NodeIdx) : (s.deactivate i).draw = s.draw := by
  simp only [State.deactivate, State.setNode]
@[simp] theorem State.deactivate_era (s : State) (i : NodeIdx) : (s.deactivate i).era = s.era := by
  simp only [State.deactivate, State.setNode]

end Sys2Proof.Machine
end

