-- ==== Sys2Proof/Laws/Symbols.lean ====
section
/-!
SUPPORT. The frequency table: a read after a write, the present symbols, and what SCAN counts.
-/

namespace Sys2Proof.Machine

theorem getElem_setFreqEntry (t : Vector Word 256) (a b : Byte) (v : Word) :
    (setFreqEntry t a v)[b.toNat]'b.isLt = if a = b then v else t[b.toNat]'b.isLt := by
  unfold setFreqEntry
  rw [Vector.getElem_set]
  congr 1
  exact propext ⟨fun h => BitVec.eq_of_toNat_eq h, fun h => by rw [h]⟩

theorem getElem_zeroFreq (b : Byte) : zeroFreq[b.toNat]'b.isLt = 0 := by
  unfold zeroFreq; rw [Vector.getElem_replicate]

theorem mem_presentFrom (fs : List Word) (i : Nat) (b : Byte) :
    b ∈ presentFrom i fs ↔ ∃ j, ∃ f, fs[j]? = some f ∧ f ≠ 0 ∧ b = BitVec.ofNat 8 (i + j) := by
  induction fs generalizing i with
  | nil => simp [presentFrom]
  | cons f fs ih =>
    unfold presentFrom
    constructor
    · intro h
      split at h
      · obtain ⟨j, g, hj, hg, hb⟩ := (ih (i + 1)).mp h
        exact ⟨j + 1, g, by simpa using hj, hg, by rw [hb]; congr 1; omega⟩
      · rcases List.mem_cons.mp h with rfl | h
        · exact ⟨0, f, by simp, ‹_›, by simp⟩
        · obtain ⟨j, g, hj, hg, hb⟩ := (ih (i + 1)).mp h
          exact ⟨j + 1, g, by simpa using hj, hg, by rw [hb]; congr 1; omega⟩
    · rintro ⟨j, g, hj, hg, hb⟩
      cases j with
      | zero =>
        have : f = g := by simpa using hj
        subst this
        rw [if_neg hg, hb]
        exact List.mem_cons_self
      | succ j =>
        have hm : b ∈ presentFrom (i + 1) fs :=
          (ih (i + 1)).mpr ⟨j, g, by simpa using hj, hg, by rw [hb]; congr 1; omega⟩
        split
        · exact hm
        · exact List.mem_cons_of_mem _ hm

/-- A symbol is present exactly when its count is not zero. -/
theorem State.mem_presentSymbols (s : State) (b : Byte) : b ∈ s.presentSymbols ↔ s.freqAt b ≠ 0 := by
  unfold State.presentSymbols State.freqAt
  rw [mem_presentFrom]
  constructor
  · rintro ⟨j, f, hj, hf, rfl⟩
    rw [List.getElem?_eq_some_iff] at hj
    obtain ⟨hlt, hj⟩ := hj
    have hlt' : j < 256 := by simpa using hlt
    have ht : (BitVec.ofNat 8 (0 + j)).toNat = j := by simp; omega
    simp only [ht]
    rw [Vector.getElem_toList] at hj
    rw [hj]; exact hf
  · intro h
    exact ⟨b.toNat, _, by rw [List.getElem?_eq_getElem (by simpa using b.isLt), Vector.getElem_toList], h, by simp⟩

theorem presentFrom_sorted (fs : List Word) (i : Nat) (h : i + fs.length ≤ 256) :
    (presentFrom i fs).Pairwise (fun a b => a.toNat < b.toNat) := by
  induction fs generalizing i with
  | nil => exact List.Pairwise.nil
  | cons f fs ih =>
    have h' : i + 1 + fs.length ≤ 256 := by simp only [List.length_cons] at h; omega
    unfold presentFrom
    split
    · exact ih _ h'
    · refine List.pairwise_cons.mpr ⟨fun b hb => ?_, ih _ h'⟩
      obtain ⟨j, g, hj, -, rfl⟩ := (mem_presentFrom fs (i + 1) b).mp hb
      have hlt := (List.getElem?_eq_some_iff.mp hj).1
      simp only [BitVec.toNat_ofNat]
      rw [Nat.mod_eq_of_lt (by omega), Nat.mod_eq_of_lt (by omega)]
      omega

theorem presentFrom_length (fs : List Word) (i : Nat) : (presentFrom i fs).length ≤ fs.length := by
  induction fs generalizing i with
  | nil => exact le_refl _
  | cons f fs ih =>
    have := ih (i + 1)
    unfold presentFrom
    split <;> simp only [List.length_cons] <;> omega

/-- The present symbols are in ascending order. -/
theorem State.presentSymbols_sorted (s : State) : s.presentSymbols.Pairwise (fun a b => a.toNat < b.toNat) :=
  presentFrom_sorted _ _ (by simp)

theorem State.presentSymbols_nodup (s : State) : s.presentSymbols.Nodup :=
  s.presentSymbols_sorted.imp fun h e => by rw [e] at h; omega

/-- SYM_COUNT is 0 to 256 (10_state R40). -/
theorem State.symCount_le (s : State) : s.symCount ≤ 256 :=
  (presentFrom_length _ _).trans (by simp)

theorem State.presentSymbols_congr {s t : State} (h : s.freq = t.freq) : s.presentSymbols = t.presentSymbols := by
  unfold State.presentSymbols; rw [h]

theorem State.symCount_congr {s t : State} (h : s.freq = t.freq) : s.symCount = t.symCount := by
  unfold State.symCount; rw [State.presentSymbols_congr h]

theorem State.freqAt_congr {s t : State} (h : s.freq = t.freq) (b : Byte) : s.freqAt b = t.freqAt b := by
  unfold State.freqAt; rw [h]

/-- The serial count gives each symbol its number of occurrences (41_frequency_scan R160). -/
theorem getElem_countBytes (bs : List Byte) (b : Byte) :
    (countBytes bs)[b.toNat]'b.isLt = BitVec.ofNat 32 (bs.count b) := by
  have key : ∀ (bs : List Byte) (t : Vector Word 256),
      (bs.foldl countByte t)[b.toNat]'b.isLt = t[b.toNat]'b.isLt + BitVec.ofNat 32 (bs.count b) := by
    intro bs
    induction bs with
    | nil => intro t; simp
    | cons c bs ih =>
      intro t
      rw [List.foldl_cons, ih, countByte, getElem_setFreqEntry, List.count_cons]
      by_cases h : c = b
      · subst h
        simp only [if_true, beq_self_eq_true]
        rw [BitVec.ofNat_add, BitVec.add_assoc, BitVec.add_comm (1 : Word)]
        rfl
      · simp [h]
  rw [countBytes, key, getElem_zeroFreq]
  simp

end Sys2Proof.Machine
end

