-- ==== Sys2Proof/Laws/Tree.lean ====
section
/-!
SUPPORT. The tree builder: reading a slot after a write, what BUILD_INIT loads, what a merge step selects and writes, and
that both keep the forest (42_tree_builder R189).
-/

namespace Sys2Proof.Machine

/-! ### Slots -/

theorem State.nodeAt_congr {s t : State} (hn : s.node = t.node) (he : s.era = t.era) (i : NodeIdx) :
    s.nodeAt i = t.nodeAt i := by
  unfold State.nodeAt; rw [hn, he]

/-- Reading a slot after a write: slot 511 reads 0 (10_state R52). -/
theorem State.nodeAt_setNode (s : State) (i j : NodeIdx) (v : NodeSlot) (hj : j ≠ 511) :
    (s.setNode i v).nodeAt j = if i = j then v else s.nodeAt j := by
  unfold State.nodeAt State.setNode
  rw [if_neg hj]
  by_cases hi : i = 511
  · have hij : i ≠ j := by rw [hi]; exact Ne.symm hj
    rw [if_neg hij, if_neg hj]
    simp [hi]
  · simp only [hi, if_false, hj]
    rw [Cells.get?_set]
    by_cases h : i = j
    · simp [h]
    · have : i.toNat ≠ j.toNat := fun e => h (BitVec.eq_of_toNat_eq e)
      simp [h, this]

theorem State.nodeAt_511 (s : State) : s.nodeAt 511 = zeroSlot := by unfold State.nodeAt; simp

/-- Reading a slot after its node left the active set (42_tree_builder R185). -/
theorem State.nodeAt_deactivate (s : State) (i j : NodeIdx) (hj : j ≠ 511) :
    (s.deactivate i).nodeAt j = if i = j then { s.nodeAt j with active := false } else s.nodeAt j := by
  unfold State.deactivate
  rw [State.nodeAt_setNode _ _ _ _ hj]
  by_cases h : i = j
  · subst h; simp
  · simp [h]

/-! ### The selection -/

theorem State.keyLt_iff (s : State) (i j : NodeIdx) : s.keyLt i j = true ↔
    (s.nodeAt i).weight.toNat < (s.nodeAt j).weight.toNat ∨
      (s.nodeAt i).weight.toNat = (s.nodeAt j).weight.toNat ∧ i.toNat < j.toNat := by
  unfold State.keyLt
  simp only [Bool.or_eq_true, decide_eq_true_eq, Bool.and_eq_true, BitVec.lt_def, ← BitVec.toNat_inj]

theorem State.argmin_none (s : State) (l : List NodeIdx) : s.argmin l = none ↔ l = [] := by
  cases l with
  | nil => simp [State.argmin]
  | cons i l =>
    simp only [State.argmin, reduceCtorEq, iff_false]
    split
    · simp
    · split <;> simp

/-- argmin_key is the member of the set with the smallest key (00_scope R20). -/
theorem State.argmin_spec (s : State) (l : List NodeIdx) (i : NodeIdx) (h : s.argmin l = some i) :
    i ∈ l ∧ ∀ j ∈ l, j ≠ i → s.keyLt i j = true := by
  induction l generalizing i with
  | nil => simp [State.argmin] at h
  | cons k l ih =>
    unfold State.argmin at h
    split at h
    · rename_i hn
      rw [State.argmin_none] at hn
      subst hn
      obtain rfl : k = i := by simpa using h
      refine ⟨List.mem_cons_self, fun j hj hne => ?_⟩
      rcases List.mem_cons.mp hj with rfl | hj
      · exact absurd rfl hne
      · cases hj
    · rename_i m hm
      obtain ⟨hmem, hmin⟩ := ih m hm
      split at h
      · rename_i hlt
        obtain rfl : m = i := by simpa using h
        refine ⟨List.mem_cons_of_mem _ hmem, fun j hj hne => ?_⟩
        rcases List.mem_cons.mp hj with rfl | hj
        · exact hlt
        · exact hmin j hj hne
      · rename_i hge
        obtain rfl : k = i := by simpa using h
        refine ⟨List.mem_cons_self, fun j hj hne => ?_⟩
        rcases List.mem_cons.mp hj with rfl | hj
        · exact absurd rfl hne
        · rw [State.keyLt_iff] at hge ⊢
          by_cases hjm : j = m
          · subst hjm
            have : j.toNat ≠ k.toNat := fun e => hne (BitVec.eq_of_toNat_eq e)
            omega
          · have h2 := hmin j hj hjm
            rw [State.keyLt_iff] at h2
            have : m.toNat ≠ k.toNat ∨ m = k := by
              by_cases e : m = k
              · exact .inr e
              · exact .inl fun e' => e (BitVec.eq_of_toNat_eq e')
            rcases this with h3 | rfl
            · omega
            · omega

theorem State.mem_activeSet (s : State) (i : NodeIdx) :
    i ∈ s.activeSet ↔ i.toNat < s.nodeCount.toNat ∧ (s.nodeAt i).active = true := by
  unfold State.activeSet
  rw [List.mem_filter, List.mem_map]
  constructor
  · rintro ⟨⟨j, hj, rfl⟩, ha⟩
    rw [List.mem_range] at hj
    have := s.nodeCount.isLt
    refine ⟨?_, ha⟩
    rw [BitVec.toNat_ofNat, Nat.mod_eq_of_lt (by omega)]
    exact hj
  · rintro ⟨hi, ha⟩
    exact ⟨⟨i.toNat, List.mem_range.mpr hi, by simp⟩, ha⟩

theorem State.activeSet_nodup (s : State) : s.activeSet.Nodup := by
  unfold State.activeSet
  refine List.Nodup.filter _ (List.Nodup.map_on ?_ List.nodup_range)
  intro x hx y hy h
  rw [List.mem_range] at hx hy
  have := s.nodeCount.isLt
  have h' := congrArg BitVec.toNat h
  rw [BitVec.toNat_ofNat, BitVec.toNat_ofNat, Nat.mod_eq_of_lt (by omega), Nat.mod_eq_of_lt (by omega)] at h'
  exact h'

theorem filter_ne_eq_erase {l : List NodeIdx} (h : l.Nodup) (a : NodeIdx) :
    l.filter (fun x => decide (x ≠ a)) = l.erase a := by
  rw [List.Nodup.erase_eq_filter h a]
  exact List.filter_congr fun x _ => by simp [bne, BEq.beq]

/-- A merge step on an active set of at least two nodes selects the smallest key and the smallest of the others
(42_tree_builder R184). -/
theorem State.selection_spec (s : State) (h : 2 ≤ s.activeSet.length) :
    s.selection.1 ∈ s.activeSet ∧ s.selection.2 ∈ s.activeSet ∧ s.selection.1 ≠ s.selection.2 ∧
      (∀ j ∈ s.activeSet, j ≠ s.selection.1 → s.keyLt s.selection.1 j = true) ∧
      (∀ j ∈ s.activeSet, j ≠ s.selection.1 → j ≠ s.selection.2 → s.keyLt s.selection.2 j = true) := by
  have h1 : s.activeSet ≠ [] := by intro e; rw [e] at h; simp at h
  obtain ⟨a, ha⟩ : ∃ a, s.argmin s.activeSet = some a := by
    cases e : s.argmin s.activeSet with
    | none => exact absurd ((s.argmin_none _).mp e) h1
    | some a => exact ⟨a, rfl⟩
  obtain ⟨ha1, ha2⟩ := s.argmin_spec _ _ ha
  have hlen : (s.activeSet.filter (· ≠ a)).length + 1 = s.activeSet.length := by
    rw [filter_ne_eq_erase s.activeSet_nodup, List.length_erase_of_mem ha1]
    omega
  obtain ⟨b, hb⟩ : ∃ b, s.argmin (s.activeSet.filter (· ≠ a)) = some b := by
    cases e : s.argmin (s.activeSet.filter (· ≠ a)) with
    | none => rw [State.argmin_none] at e; rw [e] at hlen; simp at hlen; omega
    | some b => exact ⟨b, rfl⟩
  obtain ⟨hb1, hb2⟩ := s.argmin_spec _ _ hb
  have hs : s.selection = (a, b) := by unfold State.selection; simp only [ha, Option.getD_some, hb]
  rw [hs]
  rw [List.mem_filter, decide_eq_true_eq] at hb1
  refine ⟨ha1, hb1.1, Ne.symm hb1.2, ha2, fun j hj hja hjb => hb2 j ?_ hjb⟩
  rw [List.mem_filter, decide_eq_true_eq]
  exact ⟨hj, hja⟩

/-! ### The merge step -/

/-- The node memory after a merge step (42_tree_builder R185): the parent at NODE_COUNT, the two selected nodes inactive,
every other slot as before. -/
theorem mergeStep_nodeAt (s : State) (j : NodeIdx) (hj : j ≠ 511) :
    (mergeStep s).nodeAt j =
      if s.nodeCount = j then s.parentOf s.selection.1 s.selection.2
      else if s.selection.2 = j ∨ s.selection.1 = j then { s.nodeAt j with active := false }
      else s.nodeAt j := by
  have h : (mergeStep s).nodeAt j =
      (((s.deactivate s.selection.1).deactivate s.selection.2).setNode s.nodeCount
        (s.parentOf s.selection.1 s.selection.2)).nodeAt j := by
    refine State.nodeAt_congr ?_ ?_ j
    · simp only [mergeStep, State.mergedNodes]
    · simp [State.deactivate]
  rw [h, State.nodeAt_setNode _ _ _ _ hj]
  by_cases h1 : s.nodeCount = j
  · simp [h1]
  · rw [if_neg h1, if_neg h1, State.nodeAt_deactivate _ _ _ hj, State.nodeAt_deactivate _ _ _ hj]
    by_cases h2 : s.selection.2 = j <;> by_cases h3 : s.selection.1 = j <;> simp [h2, h3]

theorem BitVec.ofNat_ne_of_lt {n : NodeIdx} {i : Nat} (h : i < n.toNat) : n ≠ BitVec.ofNat 9 i := by
  intro e
  have h1 := n.isLt
  have h2 := congrArg BitVec.toNat e
  rw [BitVec.toNat_ofNat, Nat.mod_eq_of_lt (by omega)] at h2
  omega

/-- The active set after a merge step: the two selected nodes have left it, and the new node has joined it
(42_tree_builder R181). -/
theorem mergeStep_activeSet (s : State) (h : s.nodeCount.toNat < 511) :
    (mergeStep s).activeSet =
      s.activeSet.filter (fun i => decide (i ≠ s.selection.1) && decide (i ≠ s.selection.2)) ++ [s.nodeCount] := by
  have hn : (mergeStep s).nodeCount.toNat = s.nodeCount.toNat + 1 := by
    rw [mergeStep_nodeCount]
    rw [BitVec.toNat_add]
    simp
    omega
  have h511 : ∀ i : Nat, i ≤ s.nodeCount.toNat → BitVec.ofNat 9 i ≠ (511 : NodeIdx) := by
    intro i hi e
    have h2 := congrArg BitVec.toNat e
    rw [BitVec.toNat_ofNat, Nat.mod_eq_of_lt (by omega)] at h2
    simp at h2
    omega
  unfold State.activeSet
  rw [hn, List.range_succ, List.map_append, List.filter_append, List.map_singleton]
  congr 1
  · rw [List.filter_filter]
    refine List.filter_congr fun i hi => ?_
    obtain ⟨x, hx, rfl⟩ := List.mem_map.mp hi
    rw [List.mem_range] at hx
    rw [mergeStep_nodeAt _ _ (h511 x (by omega)), if_neg (BitVec.ofNat_ne_of_lt hx)]
    by_cases h2 : s.selection.2 = BitVec.ofNat 9 x <;> by_cases h3 : s.selection.1 = BitVec.ofNat 9 x <;>
      simp [h2, h3, eq_comm (b := s.selection.1), eq_comm (b := s.selection.2)]
  · have e : BitVec.ofNat 9 s.nodeCount.toNat = s.nodeCount := by simp
    have hk := h511 s.nodeCount.toNat (le_refl _)
    rw [e] at hk ⊢
    have : ((mergeStep s).nodeAt s.nodeCount).active = true := by
      rw [mergeStep_nodeAt _ _ hk, if_pos rfl]; rfl
    simp [this]

theorem sum_freq_lt (s : State) : (s.presentSymbols.map fun b => (s.freqAt b).toNat).sum < 2 ^ 40 := by
  have h1 : ∀ x ∈ s.presentSymbols.map (fun b => (s.freqAt b).toNat), x ≤ 2 ^ 32 - 1 := by
    intro x hx
    obtain ⟨b, -, rfl⟩ := List.mem_map.mp hx
    have := (s.freqAt b).isLt
    omega
  have h2 := List.sum_le_card_nsmul _ _ h1
  rw [List.length_map] at h2
  have h3 := s.symCount_le
  unfold State.symCount at h3
  simp only [smul_eq_mul] at h2
  omega

end Sys2Proof.Machine
end

