-- ==== Sys2Proof/Laws/Forest.lean ====
section
/-!
SUPPORT. BUILD_INIT makes a forest and a merge step keeps it (42_tree_builder R189), so that BUILD ends with a complete
tree.
-/

namespace Sys2Proof.Machine

/-- The forest does not depend on the fields outside the builder. -/
theorem State.Forest.congr {s t : State} (h : s.Forest) (hf : t.freq = s.freq) (hn : t.node = s.node) (he : t.era = s.era)
    (hc : t.nodeCount = s.nodeCount) (ha : t.activeCount = s.activeCount) : t.Forest := by
  have hnode : ∀ i, t.nodeAt i = s.nodeAt i := State.nodeAt_congr hn he
  have hsym := State.presentSymbols_congr hf
  have hk := State.symCount_congr hf
  have hfr := State.freqAt_congr hf
  have hact : t.activeSet = s.activeSet := by
    unfold State.activeSet; simp only [hnode, hc]
  have hint : ∀ i, t.isInternal i ↔ s.isInternal i := fun i => by unfold State.isInternal; rw [hk, hc]
  have hpar : ∀ p i, t.parent p i ↔ s.parent p i := fun p i => by unfold State.parent; rw [hint, hnode]
  constructor
  · rw [hc, ha, hk]; exact h.size
  · rw [ha]; exact h.active_pos
  · rw [ha, hk]; exact h.active_le
  · intro i b hb
    rw [hsym] at hb
    rw [hnode, hfr]
    exact h.leaf i b hb
  · intro i hi
    simp only [hnode]
    exact h.internal i ((hint i).mp hi)
  · rw [hact, ha]; exact h.active_count
  · intro i hi
    rw [hc] at hi
    simp only [hpar, hnode]
    exact h.active_iff i hi
  · intro p q i hp hq
    rw [hpar] at hp hq
    exact h.parent_unique p q i hp hq
  · rw [hact, hsym]
    simp only [hnode, hfr]
    exact h.total

theorem State.Forest.count_lt {s : State} (h : s.Forest) : s.nodeCount.toNat < 512 ∧ s.symCount ≤ s.nodeCount.toNat := by
  have := h.size; have := h.active_le; have := s.nodeCount.isLt
  omega

/-- An index below the symbol count is a leaf's. -/
theorem State.Forest.leaf_of_lt {s : State} (h : s.Forest) {i : NodeIdx} (hi : i.toNat < s.symCount) :
    ∃ b active, b ∈ s.presentSymbols ∧ s.presentSymbols[i.toNat]? = some b ∧
      s.nodeAt i = { leafSlot b (s.freqAt b) with active := active } := by
  have hb : s.presentSymbols[i.toNat]? = some s.presentSymbols[i.toNat] := List.getElem?_eq_getElem hi
  obtain ⟨active, ha⟩ := h.leaf i _ hb
  exact ⟨_, active, List.getElem_mem _, hb, ha⟩

theorem toNat_add_one {n : NodeIdx} (h : n.toNat < 511) : (n + 1).toNat = n.toNat + 1 := by
  rw [BitVec.toNat_add]; simp; omega

theorem toNat_sub_one {n : NodeIdx} (h : 1 ≤ n.toNat) : (n - 1).toNat = n.toNat - 1 := by
  rw [BitVec.toNat_sub]
  have := n.isLt
  simp
  omega

theorem ne_511 {i : NodeIdx} (h : i.toNat < 511) : i ≠ 511 := by
  intro e; rw [e] at h; simp at h

/-- A merge step keeps the forest (42_tree_builder R185, R187, R189). -/
theorem State.Forest.mergeStep {s : State} (h : s.Forest) (h2 : 2 ≤ s.activeCount.toNat) :
    (Machine.mergeStep s).Forest := by
  obtain ⟨ha, hb, hab, -, -⟩ := s.selection_spec (by rw [h.active_count]; exact h2)
  have hn : s.nodeCount.toNat < 511 := by
    have := h.size; have := h.active_le; have := s.symCount_le; omega
  have hk := h.count_lt.2
  have hn1 := toNat_add_one hn
  have hfreq : (Machine.mergeStep s).freq = s.freq := mergeStep_freq s
  have hsym := State.presentSymbols_congr hfreq
  have hkk := State.symCount_congr hfreq
  have hfr := State.freqAt_congr hfreq
  have hac : (Machine.mergeStep s).activeCount.toNat = s.activeCount.toNat - 1 := by
    rw [mergeStep_activeCount]; exact toNat_sub_one (by omega)
  have hnc : (Machine.mergeStep s).nodeCount.toNat = s.nodeCount.toNat + 1 := by
    rw [mergeStep_nodeCount]; exact hn1
  generalize hA : s.selection.1 = a at *
  generalize hB : s.selection.2 = b at *
  obtain ⟨ha1, ha2⟩ := (s.mem_activeSet a).mp ha
  obtain ⟨hb1, hb2⟩ := (s.mem_activeSet b).mp hb
  -- the slots after the step
  have hold : ∀ j : NodeIdx, j.toNat < s.nodeCount.toNat →
      (Machine.mergeStep s).nodeAt j = if b = j ∨ a = j then { s.nodeAt j with active := false } else s.nodeAt j := by
    intro j hj
    have hne : s.nodeCount ≠ j := by intro e; rw [e] at hj; omega
    rw [mergeStep_nodeAt _ _ (ne_511 (by omega)), if_neg hne, hA, hB]
  have hnew : (Machine.mergeStep s).nodeAt s.nodeCount = s.parentOf a b := by
    rw [mergeStep_nodeAt _ _ (ne_511 hn), if_pos rfl, hA, hB]
  have hweight : ∀ j : NodeIdx, j.toNat < s.nodeCount.toNat →
      ((Machine.mergeStep s).nodeAt j).weight = (s.nodeAt j).weight := by
    intro j hj; rw [hold j hj]; split <;> rfl
  have hzero : ∀ j : NodeIdx, j.toNat < s.nodeCount.toNat →
      ((Machine.mergeStep s).nodeAt j).zero = (s.nodeAt j).zero := by
    intro j hj; rw [hold j hj]; split <;> rfl
  have hone : ∀ j : NodeIdx, j.toNat < s.nodeCount.toNat →
      ((Machine.mergeStep s).nodeAt j).one = (s.nodeAt j).one := by
    intro j hj; rw [hold j hj]; split <;> rfl
  have hkind : ∀ j : NodeIdx, j.toNat < s.nodeCount.toNat →
      ((Machine.mergeStep s).nodeAt j).kind = (s.nodeAt j).kind := by
    intro j hj; rw [hold j hj]; split <;> rfl
  have hsymb : ∀ j : NodeIdx, j.toNat < s.nodeCount.toNat →
      ((Machine.mergeStep s).nodeAt j).symbol = (s.nodeAt j).symbol := by
    intro j hj; rw [hold j hj]; split <;> rfl
  have hactive : ∀ j : NodeIdx, j.toNat < s.nodeCount.toNat →
      (((Machine.mergeStep s).nodeAt j).active = true ↔ (s.nodeAt j).active = true ∧ j ≠ a ∧ j ≠ b) := by
    intro j hj
    rw [hold j hj]
    by_cases e1 : b = j <;> by_cases e2 : a = j <;> simp [e1, e2, eq_comm (a := j)]
  have hint : ∀ i : NodeIdx, (Machine.mergeStep s).isInternal i ↔ s.isInternal i ∨ i = s.nodeCount := by
    intro i
    unfold State.isInternal
    rw [hkk, hnc]
    constructor
    · rintro ⟨h1, h3⟩
      rcases Nat.lt_or_ge i.toNat s.nodeCount.toNat with h4 | h4
      · exact .inl ⟨h1, h4⟩
      · exact .inr (BitVec.eq_of_toNat_eq (by omega))
    · rintro (⟨h1, h3⟩ | rfl)
      · exact ⟨h1, by omega⟩
      · exact ⟨hk, by omega⟩
  have hpar : ∀ p i : NodeIdx, (Machine.mergeStep s).parent p i ↔ s.parent p i ∨ (p = s.nodeCount ∧ (b = i ∨ a = i)) := by
    intro p i
    unfold State.parent
    rw [hint]
    constructor
    · rintro ⟨h1 | rfl, h3⟩
      · rw [hzero _ h1.2, hone _ h1.2] at h3; exact .inl ⟨h1, h3⟩
      · rw [hnew] at h3; exact .inr ⟨rfl, h3⟩
    · rintro (⟨h1, h3⟩ | ⟨rfl, h3⟩)
      · rw [hzero _ h1.2, hone _ h1.2]; exact ⟨.inl h1, h3⟩
      · rw [hnew]; exact ⟨.inr rfl, h3⟩
  have hchild : ∀ p i : NodeIdx, s.parent p i → i.toNat < p.toNat ∧ p.toNat < s.nodeCount.toNat := by
    rintro p i ⟨h1, h3⟩
    obtain ⟨-, -, h4, h5, -⟩ := h.internal p h1
    rcases h3 with rfl | rfl
    · exact ⟨h4, h1.2⟩
    · exact ⟨h5, h1.2⟩
  -- the active set
  have hset := mergeStep_activeSet s hn
  rw [hA, hB] at hset
  have hperm : s.activeSet.Perm (a :: b :: s.activeSet.filter fun i => decide (i ≠ a) && decide (i ≠ b)) := by
    have e1 : (s.activeSet.filter fun i => decide (i ≠ a) && decide (i ≠ b)) = (s.activeSet.erase a).erase b := by
      have nd := s.activeSet_nodup
      have nd2 : (s.activeSet.erase a).Nodup := nd.erase a
      rw [← filter_ne_eq_erase nd2, ← filter_ne_eq_erase nd, List.filter_filter]
      exact List.filter_congr fun x _ => Bool.and_comm _ _
    rw [e1]
    refine (List.perm_cons_erase ha).trans (List.Perm.cons a (List.perm_cons_erase ?_))
    rw [← filter_ne_eq_erase s.activeSet_nodup, List.mem_filter]
    exact ⟨hb, by simp [Ne.symm hab]⟩
  have hsum := (hperm.map fun i => (s.nodeAt i).weight.toNat).sum_eq
  rw [List.map_cons, List.map_cons, List.sum_cons, List.sum_cons] at hsum
  have hlen := hperm.length_eq
  rw [List.length_cons, List.length_cons] at hlen
  have htot := h.total
  have hlt := sum_freq_lt s
  have hwn : (s.parentOf a b).weight.toNat = (s.nodeAt a).weight.toNat + (s.nodeAt b).weight.toNat := by
    show ((s.nodeAt a).weight + (s.nodeAt b).weight).toNat = _
    rw [BitVec.toNat_add, Nat.mod_eq_of_lt]
    omega
  constructor
  · rw [hnc, hac, hkk]; have := h.size; omega
  · rw [hac]; omega
  · rw [hac, hkk]; have := h.active_le; omega
  · intro i c hc
    rw [hsym] at hc
    have hi : i.toNat < s.symCount := (List.getElem?_eq_some_iff.mp hc).1
    obtain ⟨active, hact⟩ := h.leaf i c hc
    rw [hold i (by omega), hact, hfr]
    split
    · exact ⟨false, rfl⟩
    · exact ⟨active, rfl⟩
  · intro i hi
    rcases (hint i).mp hi with hi | rfl
    · obtain ⟨h1, h3, h4, h5, h6, h7⟩ := h.internal i hi
      have hlt := hi.2
      rw [hkind i hlt, hsymb i hlt, hzero i hlt, hone i hlt, hweight i hlt, hweight _ (by omega), hweight _ (by omega)]
      exact ⟨h1, h3, h4, h5, h6, h7⟩
    · rw [hnew]
      refine ⟨rfl, rfl, hb1, ha1, Ne.symm hab, ?_⟩
      show _ = ((Machine.mergeStep s).nodeAt b).weight.toNat + ((Machine.mergeStep s).nodeAt a).weight.toNat
      rw [hweight _ hb1, hweight _ ha1, hwn, Nat.add_comm]
  · rw [hset, hac, List.length_append, List.length_singleton]
    have := h.active_count
    omega
  · intro i hi
    rw [hnc] at hi
    simp only [hpar, not_or, not_and]
    rcases Nat.lt_or_ge i.toNat s.nodeCount.toNat with h4 | h4
    · rw [hactive i h4, h.active_iff i h4]
      constructor
      · rintro ⟨h5, h6, h7⟩ p
        exact ⟨h5 p, fun _ => ⟨Ne.symm h7, Ne.symm h6⟩⟩
      · intro h5
        refine ⟨fun p => (h5 p).1, Ne.symm ((h5 s.nodeCount).2 rfl).2, Ne.symm ((h5 s.nodeCount).2 rfl).1⟩
    · have e : i = s.nodeCount := BitVec.eq_of_toNat_eq (by omega)
      subst e
      rw [hnew]
      refine ⟨fun _ p => ⟨fun hp => ?_, fun _ => ⟨fun e => ?_, fun e => ?_⟩⟩, fun _ => rfl⟩
      · have := hchild _ _ hp; omega
      · rw [e] at hb1; omega
      · rw [e] at ha1; omega
  · intro p q i hp hq
    rw [hpar] at hp hq
    have hno : ∀ r, (b = i ∨ a = i) → ¬ s.parent r i := by
      rintro r (rfl | rfl)
      · exact (h.active_iff b hb1).mp hb2 r
      · exact (h.active_iff a ha1).mp ha2 r
    rcases hp with hp | ⟨rfl, hp⟩ <;> rcases hq with hq | ⟨rfl, hq⟩
    · exact h.parent_unique p q i hp hq
    · exact absurd hp (hno p hq)
    · exact absurd hq (hno q hp)
    · rfl
  · rw [hset, hsym, List.map_append, List.sum_append, List.map_singleton, List.sum_singleton, hnew, hwn]
    simp only [hfr]
    have e : ((s.activeSet.filter fun i => decide (i ≠ a) && decide (i ≠ b)).map
        fun i => ((Machine.mergeStep s).nodeAt i).weight.toNat) =
        (s.activeSet.filter fun i => decide (i ≠ a) && decide (i ≠ b)).map fun i => (s.nodeAt i).weight.toNat := by
      refine List.map_congr_left fun i hi => ?_
      rw [hweight i ((s.mem_activeSet i).mp (List.mem_filter.mp hi).1).1]
    rw [e]
    omega

end Sys2Proof.Machine
end

