-- ==== Sys2Proof/Laws/Build.lean ====
section
/-!
SUPPORT. What BUILD_INIT, BUILD_STEP and BUILD do as a whole: the leaves that are loaded, the merge loop, and the complete
tree it ends with (42_tree_builder R183, R186, R188).
-/

namespace Sys2Proof.Machine

/-! ### Loading the leaves -/

/-- Loading leaves changes the node memory only. -/
theorem loadLeaves_frame (bs : List Byte) (i : Nat) (s : State) :
    loadLeaves bs i s = { s with node := (loadLeaves bs i s).node } := by
  induction bs generalizing i s with
  | nil => rfl
  | cons b bs ih =>
    unfold loadLeaves
    rw [ih]
    simp only [State.setNode]

theorem loadLeaves_freq (bs : List Byte) (i : Nat) (s : State) : (loadLeaves bs i s).freq = s.freq := by
  rw [loadLeaves_frame]

theorem loadLeaves_era (bs : List Byte) (i : Nat) (s : State) : (loadLeaves bs i s).era = s.era := by
  rw [loadLeaves_frame]

/-- The slots after loading leaves from slot i on (42_tree_builder R183). -/
theorem loadLeaves_nodeAt (bs : List Byte) (i : Nat) (s : State) (h : i + bs.length ≤ 511) (j : NodeIdx) (hj : j ≠ 511) :
    (loadLeaves bs i s).nodeAt j =
      if i ≤ j.toNat then
        match bs[j.toNat - i]? with
        | some b => leafSlot b (s.freqAt b)
        | none => s.nodeAt j
      else s.nodeAt j := by
  induction bs generalizing i s with
  | nil => simp [loadLeaves]
  | cons b bs ih =>
    rw [List.length_cons] at h
    unfold loadLeaves
    rw [ih (i + 1) _ (by omega), State.nodeAt_setNode _ _ _ _ hj]
    have hf : ∀ c, (s.setNode (BitVec.ofNat 9 i) (leafSlot b (s.freqAt b))).freqAt c = s.freqAt c :=
      State.freqAt_congr (State.setNode_freq _ _ _)
    have hi : (BitVec.ofNat 9 i).toNat = i := by rw [BitVec.toNat_ofNat, Nat.mod_eq_of_lt (by omega)]
    simp only [hf]
    by_cases h1 : i + 1 ≤ j.toNat
    · have hne : BitVec.ofNat 9 i ≠ j := by intro e; rw [← e, hi] at h1; omega
      have e : j.toNat - i = (j.toNat - (i + 1)) + 1 := by omega
      rw [if_pos h1, if_pos (by omega : i ≤ j.toNat), if_neg hne, e, List.getElem?_cons_succ]
    · rw [if_neg h1]
      by_cases h2 : i = j.toNat
      · have he : BitVec.ofNat 9 i = j := by rw [h2]; simp
        rw [if_pos he, if_pos (by omega), h2]
        simp
      · have he : BitVec.ofNat 9 i ≠ j := by intro e; rw [← e, hi] at h2; omega
        rw [if_neg he, if_neg (by omega)]

/-- The state after a successful BUILD_INIT (42_tree_builder R183). -/
def State.built (s : State) : State :=
  { loadLeaves s.presentSymbols 0 s with
    codesValid := false
    nodeCount := BitVec.ofNat 9 s.symCount
    activeCount := BitVec.ofNat 9 s.symCount
    single := s.symCount = 1
    root := if s.symCount = 1 then 0 else s.root
    bstate := if s.symCount = 1 then .done else .merge }

theorem buildInitBody_ok (s : State) (h : s.symCount ≠ 0) : buildInitBody s = .ok s.built := by
  unfold buildInitBody State.built
  rw [if_neg h]

theorem buildInitBody_empty (s : State) (h : s.symCount = 0) :
    buildInitBody s = .raised .emptyMap 0 { s with codesValid := false, bstate := .idle, single := false } := by
  unfold buildInitBody
  rw [if_pos h]

theorem State.built_freq (s : State) : s.built.freq = s.freq := by unfold State.built; exact loadLeaves_freq _ _ _

/-- What BUILD_INIT leaves alone. -/
theorem State.built_frame (s : State) : s.built = { s with
    node := s.built.node, codesValid := false, nodeCount := s.built.nodeCount, activeCount := s.built.activeCount,
    single := s.built.single, root := s.built.root, bstate := s.built.bstate } := by
  unfold State.built
  rw [loadLeaves_frame]

theorem State.built_era (s : State) : s.built.era = s.era := by rw [s.built_frame]

theorem State.built_nodeAt (s : State) (j : NodeIdx) (hj : j ≠ 511) :
    s.built.nodeAt j =
      match s.presentSymbols[j.toNat]? with
      | some b => leafSlot b (s.freqAt b)
      | none => s.nodeAt j := by
  have e : s.built.nodeAt j = (loadLeaves s.presentSymbols 0 s).nodeAt j := by
    unfold State.built; exact State.nodeAt_congr rfl rfl j
  have hk : s.presentSymbols.length ≤ 256 := s.symCount_le
  rw [e, loadLeaves_nodeAt _ _ _ (by omega) j hj]
  simp

theorem State.built_leaf (s : State) (i : NodeIdx) (b : Byte) (h : s.presentSymbols[i.toNat]? = some b) :
    s.built.nodeAt i = leafSlot b (s.freqAt b) := by
  have hi := (List.getElem?_eq_some_iff.mp h).1
  have hk : s.presentSymbols.length ≤ 256 := s.symCount_le
  rw [s.built_nodeAt i (ne_511 (by omega)), h]

/-- BUILD_INIT makes a forest of leaves (42_tree_builder R183). -/
theorem State.built_forest (s : State) (h : s.symCount ≠ 0) : s.built.Forest := by
  have hk := s.symCount_le
  have hnc : s.built.nodeCount.toNat = s.symCount := by
    show (BitVec.ofNat 9 s.symCount).toNat = _
    rw [BitVec.toNat_ofNat, Nat.mod_eq_of_lt (by omega)]
  have hac : s.built.activeCount.toNat = s.symCount := hnc
  have hsym := State.presentSymbols_congr s.built_freq
  have hkk := State.symCount_congr s.built_freq
  have hfr := State.freqAt_congr s.built_freq
  have hleaf : ∀ x, x < s.symCount → ∃ b, s.presentSymbols[x]? = some b ∧
      s.built.nodeAt (BitVec.ofNat 9 x) = leafSlot b (s.freqAt b) := by
    intro x hx
    have hx' : (BitVec.ofNat 9 x).toNat = x := by rw [BitVec.toNat_ofNat, Nat.mod_eq_of_lt (by omega)]
    have hb : s.presentSymbols[x]? = some s.presentSymbols[x] := List.getElem?_eq_getElem hx
    exact ⟨_, hb, s.built_leaf _ _ (by rw [hx']; exact hb)⟩
  have hset : s.built.activeSet = (List.range s.symCount).map (BitVec.ofNat 9) := by
    unfold State.activeSet
    rw [hnc, List.filter_eq_self]
    intro i hi
    obtain ⟨x, hx, rfl⟩ := List.mem_map.mp hi
    obtain ⟨b, -, hb⟩ := hleaf x (List.mem_range.mp hx)
    rw [hb]; rfl
  have hno : ∀ p, ¬ s.built.isInternal p := by
    rintro p ⟨h1, h2⟩
    rw [hkk] at h1; omega
  constructor
  · rw [hnc, hac, hkk]; omega
  · rw [hac]; omega
  · rw [hac, hkk]
  · intro i b hb
    rw [hsym] at hb
    rw [hfr]
    exact ⟨true, s.built_leaf i b hb⟩
  · intro i hi; exact absurd hi (hno i)
  · rw [hset, hac]; simp
  · intro i hi
    rw [hnc] at hi
    obtain ⟨b, -, hb⟩ := hleaf i.toNat hi
    rw [show BitVec.ofNat 9 i.toNat = i by simp] at hb
    rw [hb]
    exact ⟨fun _ p hp => hno p hp.1, fun _ => rfl⟩
  · intro p q i hp; exact absurd hp.1 (hno p)
  · rw [hset, hsym, List.map_map]
    simp only [hfr]
    congr 1
    refine List.ext_getElem (by rw [List.length_map, List.length_map, List.length_range]; rfl) fun x h1 h2 => ?_
    rw [List.getElem_map, List.getElem_map, List.getElem_range]
    have hx : x < s.symCount := by simpa using h1
    obtain ⟨b, hb, hn⟩ := hleaf x hx
    rw [Function.comp_apply, hn]
    have hb' : s.presentSymbols[x]'hx = b := by
      rw [List.getElem?_eq_getElem hx] at hb; exact Option.some.inj hb
    have hlt := (s.freqAt b).isLt
    subst hb'
    show ((s.freqAt _).setWidth 40).toNat = _
    rw [BitVec.toNat_setWidth]
    exact Nat.mod_eq_of_lt (lt_trans hlt (by norm_num : (2 : Nat) ^ 32 < 2 ^ 40))

/-- BUILD_INIT establishes the builder's invariant (42_tree_builder R183). -/
theorem State.built_treeInv (s : State) (h : s.symCount ≠ 0) : s.built.TreeInv := by
  have hk := s.symCount_le
  have hkk := State.symCount_congr s.built_freq
  have hnc : s.built.nodeCount.toNat = s.symCount := by
    show (BitVec.ofNat 9 s.symCount).toNat = _
    rw [BitVec.toNat_ofNat, Nat.mod_eq_of_lt (by omega)]
  have hbs : s.built.bstate = if s.symCount = 1 then .done else .merge := rfl
  refine ⟨fun e => ?_, fun _ => s.built_forest h, fun _ => by rw [hkk]; rfl, fun e => ?_, fun e => ?_⟩
  · rw [hbs] at e; split at e <;> cases e
  · rw [hbs] at e
    have hac : s.built.activeCount.toNat = s.symCount := hnc
    split at e
    · cases e
    · omega
  · rw [hbs] at e
    split at e
    · rename_i h1
      refine ⟨?_, ?_⟩
      · show BitVec.ofNat 9 s.symCount = 1
        rw [h1]; rfl
      · rw [hnc]
        show (if s.symCount = 1 then (0 : NodeIdx) else s.root).toNat + 1 = _
        rw [if_pos h1, h1]; rfl
    · cases e

/-! ### The merge loop -/

/-- The builder's invariant while merging: a merge step keeps it (42_tree_builder R185). -/
theorem State.TreeInv.mergeStep {s : State} (h : s.TreeInv) (hm : s.bstate = .merge) : (Machine.mergeStep s).TreeInv := by
  have hne : s.bstate ≠ .idle := by rw [hm]; simp
  have hF := h.forest hne
  have h2 := h.merge hm
  have hF' := hF.mergeStep h2
  have hac : (s.activeCount - 1).toNat = s.activeCount.toNat - 1 := toNat_sub_one (by omega)
  have hbs := mergeStep_bstate s
  have hn : s.nodeCount.toNat < 511 := by
    have := hF.size; have := hF.active_le; have := s.symCount_le; omega
  have hone : s.activeCount - 1 = 1 ↔ s.activeCount.toNat = 2 := by
    constructor
    · intro e
      have := congrArg BitVec.toNat e
      rw [hac] at this
      simp at this
      omega
    · intro e
      refine BitVec.eq_of_toNat_eq ?_
      rw [hac, e]; rfl
  have hnidle : (Machine.mergeStep s).bstate ≠ .idle := by
    rw [hbs]; split
    · simp
    · exact hne
  refine ⟨fun e => absurd e hnidle, fun _ => hF', fun _ => ?_, fun e => ?_, fun e => ?_⟩
  · rw [mergeStep_single, h.single hne, State.symCount_congr (mergeStep_freq s)]
  · rw [hbs] at e
    split at e
    · cases e
    · rename_i h3
      rw [mergeStep_activeCount, hac]
      rw [hone] at h3
      omega
  · rw [hbs] at e
    split at e
    · rename_i h3
      refine ⟨by rw [mergeStep_activeCount]; exact h3, ?_⟩
      rw [mergeStep_root, if_pos h3, mergeStep_nodeCount, toNat_add_one hn]
    · rw [hm] at e; cases e

/-- What the merge loop changes. -/
theorem mergeSteps_frame (n : Nat) (s : State) : mergeSteps n s = { s with
    node := (mergeSteps n s).node, nodeCount := (mergeSteps n s).nodeCount, activeCount := (mergeSteps n s).activeCount,
    root := (mergeSteps n s).root, bstate := (mergeSteps n s).bstate } := by
  induction n generalizing s with
  | zero => rfl
  | succ n ih =>
    unfold mergeSteps
    split
    · rw [ih]
      simp only [mergeStep_cmd, mergeStep_busy, mergeStep_done, mergeStep_err, mergeStep_codesValid, mergeStep_hdrValid,
        mergeStep_single, mergeStep_hostViol, mergeStep_phase, mergeStep_errCode, mergeStep_errSub, mergeStep_errOp,
        mergeStep_errInfo, mergeStep_strict, mergeStep_irqEn, mergeStep_inLen, mergeStep_outLen, mergeStep_padding,
        mergeStep_payloadOff, mergeStep_payloadBits, mergeStep_capIn, mergeStep_capOut, mergeStep_freq, mergeStep_code,
        mergeStep_inBuf, mergeStep_outBuf, mergeStep_rdata, mergeStep_turns, mergeStep_draw, mergeStep_era]
    · rfl

theorem mergeSteps_freq (n : Nat) (s : State) : (mergeSteps n s).freq = s.freq := by rw [mergeSteps_frame]

theorem mergeSteps_succ (n : Nat) (s : State) :
    mergeSteps (n + 1) s = if s.bstate = .merge then mergeSteps n (mergeStep s) else s := rfl

theorem mergeSteps_of_ne (n : Nat) (s : State) (h : s.bstate ≠ .merge) : mergeSteps n s = s := by
  cases n with
  | zero => rfl
  | succ n => unfold mergeSteps; rw [if_neg h]

/-- Any split of a number of merge steps gives the same tree (42_tree_builder R186). -/
theorem mergeSteps_add (m n : Nat) (s : State) : mergeSteps (m + n) s = mergeSteps n (mergeSteps m s) := by
  induction m generalizing s with
  | zero => simp [mergeSteps]
  | succ m ih =>
    rw [Nat.succ_add]
    rw [mergeSteps_succ, mergeSteps_succ]
    by_cases h : s.bstate = .merge
    · rw [if_pos h, if_pos h, ih]
    · rw [if_neg h, if_neg h]
      exact (mergeSteps_of_ne n s h).symm

theorem mergeSteps_treeInv (n : Nat) (s : State) (h : s.TreeInv) : (mergeSteps n s).TreeInv := by
  induction n generalizing s with
  | zero => exact h
  | succ n ih =>
    unfold mergeSteps
    split
    · exact ih _ (h.mergeStep ‹_›)
    · exact h

/-- A merge step on a forest leaves one active node fewer. -/
theorem State.TreeInv.mergeStep_active {s : State} (h : s.TreeInv) (hm : s.bstate = .merge) :
    (Machine.mergeStep s).activeCount.toNat = s.activeCount.toNat - 1 := by
  rw [mergeStep_activeCount]
  exact toNat_sub_one (by have := h.merge hm; omega)

/-- Enough merge steps complete the tree (42_tree_builder R186, R188). -/
theorem mergeSteps_done (n : Nat) (s : State) (h : s.TreeInv) (hne : s.bstate ≠ .idle) (hn : s.activeCount.toNat ≤ n + 1) :
    (mergeSteps n s).bstate = .done := by
  induction n generalizing s with
  | zero =>
    show s.bstate = .done
    cases hb : s.bstate with
    | idle => exact absurd hb hne
    | merge => have := h.merge hb; omega
    | done => rfl
  | succ n ih =>
    unfold mergeSteps
    split
    · rename_i hm
      refine ih _ (h.mergeStep hm) ?_ ?_
      · rw [mergeStep_bstate]; split
        · simp
        · exact hne
      · rw [h.mergeStep_active hm]; omega
    · rename_i hm
      cases hb : s.bstate with
      | idle => exact absurd hb hne
      | merge => exact absurd hb hm
      | done => rfl

/-- Where the tree is complete, its sizes (10_state R41, R43; 42_tree_builder R188, R189 (a), (f)). -/
theorem State.TreeInv.complete {s : State} (h : s.TreeInv) (hd : s.bstate = .done) :
    s.nodeCount.toNat = 2 * s.symCount - 1 ∧ s.root.toNat = 2 * s.symCount - 2 ∧ s.activeCount = 1 ∧ 1 ≤ s.symCount := by
  obtain ⟨h1, h2⟩ := h.done hd
  have hF := h.forest (by rw [hd]; simp)
  have h3 := hF.size
  have h4 := hF.active_le
  rw [h1] at h3 h4
  simp at h3 h4
  exact ⟨by omega, by omega, h1, by omega⟩

/-- The state after BUILD's body (42_tree_builder R188). -/
def State.tree (s : State) : State := mergeSteps (s.symCount - 1) s.built

theorem buildBody_ok (s : State) (h : s.symCount ≠ 0) : buildBody s = .ok s.tree := by
  unfold buildBody
  rw [buildInitBody_ok s h]
  rfl

theorem buildBody_empty (s : State) (h : s.symCount = 0) :
    buildBody s = .raised .emptyMap 0 { s with codesValid := false, bstate := .idle, single := false } := by
  unfold buildBody
  rw [buildInitBody_empty s h]
  rfl

/-- What BUILD leaves alone. -/
theorem State.tree_frame (s : State) : s.tree = { s with
    node := s.tree.node, codesValid := false, nodeCount := s.tree.nodeCount, activeCount := s.tree.activeCount,
    single := decide (s.symCount = 1), root := s.tree.root, bstate := s.tree.bstate } := by
  have h1 : s.built.single = decide (s.symCount = 1) := rfl
  unfold State.tree
  rw [mergeSteps_frame, s.built_frame, h1]

theorem State.tree_freq (s : State) : s.tree.freq = s.freq := by rw [s.tree_frame]

theorem State.tree_treeInv (s : State) (h : s.symCount ≠ 0) : s.tree.TreeInv :=
  mergeSteps_treeInv _ _ (s.built_treeInv h)

theorem State.tree_done (s : State) (h : s.symCount ≠ 0) : s.tree.bstate = .done := by
  have hk := s.symCount_le
  refine mergeSteps_done _ _ (s.built_treeInv h) ?_ ?_
  · show (if s.symCount = 1 then BState.done else .merge) ≠ .idle
    split <;> simp
  · show (BitVec.ofNat 9 s.symCount).toNat ≤ _
    rw [BitVec.toNat_ofNat, Nat.mod_eq_of_lt (by omega)]
    omega

end Sys2Proof.Machine
end

