-- ==== Sys2Proof/Laws/Codec.lean ====
section
/-!
SUPPORT. The code table of a complete tree (43_codec_table): the walk ends, each present symbol gets the path to its leaf,
and the table depends on nothing else.
-/

namespace Sys2Proof.Machine

/-! ### Following a bit string -/

theorem State.follow_append (s : State) (i : NodeIdx) (p q : List Bool) :
    s.follow i (p ++ q) = s.follow (s.follow i p) q := by
  induction p generalizing i with
  | nil => rfl
  | cons b p ih => simp only [List.cons_append, State.follow, ih]

/-- A bit string leads from node i to a leaf with the symbol number b, through internal nodes only. -/
structure State.Ends (s : State) (i : NodeIdx) (q : List Bool) (b : Nat) : Prop where
  leaf : (s.nodeAt (s.follow i q)).kind = .leaf
  symbol : (s.nodeAt (s.follow i q)).symbol.toNat = b
  inner : ∀ m < q.length, (s.nodeAt (s.follow i (q.take m))).kind = .internal

theorem State.Ends.cons {s : State} {i : NodeIdx} {q : List Bool} {b : Nat} {d : Bool}
    (hi : (s.nodeAt i).kind = .internal)
    (h : s.Ends (if d then (s.nodeAt i).one else (s.nodeAt i).zero) q b) : s.Ends i (d :: q) b := by
  refine ⟨h.leaf, h.symbol, fun m hm => ?_⟩
  cases m with
  | zero => exact hi
  | succ m =>
    simp only [List.take_succ_cons, State.follow]
    exact h.inner m (by simpa using hm)

theorem State.Ends.of_cons {s : State} {i : NodeIdx} {q : List Bool} {b : Nat} {d : Bool} (h : s.Ends i (d :: q) b) :
    (s.nodeAt i).kind = .internal ∧ s.Ends (if d then (s.nodeAt i).one else (s.nodeAt i).zero) q b := by
  refine ⟨h.inner 0 (by simp), h.leaf, h.symbol, fun m hm => ?_⟩
  have := h.inner (m + 1) (by simpa using hm)
  simpa only [List.take_succ_cons, State.follow] using this

theorem State.Ends.of_leaf {s : State} {i : NodeIdx} {q : List Bool} {b : Nat} (h : s.Ends i q b)
    (hi : (s.nodeAt i).kind = .leaf) : q = [] := by
  cases q with
  | nil => rfl
  | cons d q => rw [(h.of_cons).1] at hi; cases hi

/-- Two strings that end at leaves, one a prefix of the other, are equal (43_codec_table R214). -/
theorem State.Ends.prefix_eq {s : State} {i : NodeIdx} {p q : List Bool} {b c : Nat} (hp : s.Ends i p b)
    (hq : s.Ends i q c) (h : p <+: q) : p = q := by
  obtain ⟨r, rfl⟩ := h
  cases r with
  | nil => simp
  | cons d r =>
    have h1 := hq.inner p.length (by simp)
    rw [List.take_left] at h1
    rw [hp.leaf] at h1
    cases h1

/-! ### The walk -/

/-- What a finished walk leaves in the table (43_codec_table R210): an entry is untouched when no leaf below carries its
symbol, and else it is the code of a path to such a leaf. -/
theorem walk_spec (s : State) (levels : Nat) (i : NodeIdx) (p : List Bool) (t u : Cells Code)
    (h : walk s levels i p t = some u) (b : Nat) :
    (Cells.get? u b = Cells.get? t b ∧ ∀ q, ¬ s.Ends i q b) ∨
      ∃ q, s.Ends i q b ∧ q.length < levels ∧ Cells.get? u b = some (codeOfPath (p ++ q)) := by
  induction levels generalizing i p t u with
  | zero => simp [walk] at h
  | succ n ih =>
    unfold walk at h
    split at h
    · rename_i hk
      obtain rfl := Option.some.inj h
      by_cases hb : (s.nodeAt i).symbol.toNat = b
      · refine .inr ⟨[], ⟨hk, hb, fun m hm => absurd hm (by simp)⟩, by simp, ?_⟩
        rw [Cells.get?_set, if_pos hb, List.append_nil]
      · refine .inl ⟨by rw [Cells.get?_set, if_neg hb], fun q hq => ?_⟩
        have := hq.of_leaf hk
        subst this
        exact hb hq.symbol
    · rename_i hk
      split at h
      · cases h
      · rename_i v hv
        rcases ih _ _ _ _ h with ⟨h1, h2⟩ | ⟨q, hq, hl, h1⟩
        · rcases ih _ _ _ _ hv with ⟨h3, h4⟩ | ⟨q, hq, hl, h3⟩
          · refine .inl ⟨h1.trans h3, fun q hq => ?_⟩
            cases q with
            | nil => have h5 := hq.leaf; rw [show s.follow i [] = i from rfl, hk] at h5; cases h5
            | cons d q =>
              have := hq.of_cons.2
              cases d
              · exact h4 q this
              · exact h2 q this
          · refine .inr ⟨false :: q, State.Ends.cons hk hq, by simpa using hl, ?_⟩
            rw [h1, h3, List.append_assoc]; rfl
        · refine .inr ⟨true :: q, State.Ends.cons hk hq, by simpa using hl, ?_⟩
          rw [h1, List.append_assoc]; rfl

/-! ### Complete trees -/

/-- The kind of a node of a forest. -/
theorem State.Forest.kind {s : State} (h : s.Forest) (i : NodeIdx) (hi : i.toNat < s.nodeCount.toNat) :
    ((s.nodeAt i).kind = .leaf ↔ i.toNat < s.symCount) ∧ ((s.nodeAt i).kind = .internal ↔ s.symCount ≤ i.toNat) := by
  rcases Nat.lt_or_ge i.toNat s.symCount with h1 | h1
  · obtain ⟨b, active, -, -, hb⟩ := h.leaf_of_lt h1
    rw [hb]
    simp [leafSlot, h1]
  · rw [(h.internal i ⟨h1, hi⟩).1]
    simp [h1]

/-- Both children of an internal node are nodes of the forest with smaller indices. -/
theorem State.Forest.child_lt {s : State} (h : s.Forest) {i : NodeIdx} (hi : i.toNat < s.nodeCount.toNat)
    (hk : (s.nodeAt i).kind = .internal) (d : Bool) :
    (if d then (s.nodeAt i).one else (s.nodeAt i).zero).toNat < i.toNat := by
  obtain ⟨-, -, h1, h2, -⟩ := h.internal i ⟨((h.kind i hi).2).mp hk, hi⟩
  cases d
  · exact h1
  · exact h2

/-- The walk of a forest ends: its depth is bounded by the number of internal nodes (43_codec_table R213). -/
theorem walk_ends {s : State} (h : s.Forest) (levels : Nat) (i : NodeIdx) (p : List Bool) (t : Cells Code)
    (hi : i.toNat < s.nodeCount.toNat) (hl : i.toNat + 2 ≤ s.symCount + levels) (hl1 : 1 ≤ levels) :
    ∃ u, walk s levels i p t = some u := by
  induction levels generalizing i p t with
  | zero => omega
  | succ n ih =>
    cases hk : (s.nodeAt i).kind with
    | leaf => exact ⟨_, by unfold walk; rw [hk]⟩
    | internal =>
      have h0 : (s.nodeAt i).zero.toNat < i.toNat := h.child_lt hi hk false
      have h1 : (s.nodeAt i).one.toNat < i.toNat := h.child_lt hi hk true
      have hin := ((h.kind i hi).2).mp hk
      obtain ⟨v, hv⟩ := ih (s.nodeAt i).zero (p ++ [false]) t (by omega) (by omega) (by omega)
      obtain ⟨u, hu⟩ := ih (s.nodeAt i).one (p ++ [true]) v (by omega) (by omega) (by omega)
      exact ⟨u, by unfold walk; rw [hk]; simp only [hv]; exact hu⟩

theorem State.Forest.follow_lt {s : State} (h : s.Forest) (i : NodeIdx) (q : List Bool) (hi : i.toNat < s.nodeCount.toNat)
    (hq : ∀ m < q.length, (s.nodeAt (s.follow i (q.take m))).kind = .internal) :
    (s.follow i q).toNat + q.length ≤ i.toNat := by
  induction q generalizing i with
  | nil => simp [State.follow]
  | cons d q ih =>
    have hk := hq 0 (by simp)
    have hc := h.child_lt hi hk d
    have := ih _ (lt_trans hc hi) fun m hm => by
      have := hq (m + 1) (by simpa using hm)
      simpa only [List.take_succ_cons, State.follow] using this
    simp only [State.follow, List.length_cons]
    omega

/-- In a complete tree every node other than ROOT has a parent (42_tree_builder R189 (e), (f)). -/
theorem State.TreeInv.has_parent {s : State} (h : s.TreeInv) (hd : s.bstate = .done) (i : NodeIdx)
    (hi : i.toNat < s.nodeCount.toNat) (hr : i ≠ s.root) : ∃ p, s.parent p i := by
  have hF := h.forest (by rw [hd]; simp)
  obtain ⟨h1, h2, h3, h4⟩ := h.complete hd
  have hlen := hF.active_count
  rw [h3] at hlen
  have hroot : s.root.toNat < s.nodeCount.toNat := by omega
  have hra : s.root ∈ s.activeSet := by
    rw [State.mem_activeSet, hF.active_iff _ hroot]
    refine ⟨hroot, fun p hp => ?_⟩
    obtain ⟨hp1, hp2⟩ := hp
    have hlt := hp1.2
    obtain ⟨-, -, h5, h6, -⟩ := hF.internal p hp1
    rcases hp2 with e | e
    · rw [e] at h5; omega
    · rw [e] at h6; omega
  by_contra hno
  push Not at hno
  have hia : i ∈ s.activeSet := by
    rw [State.mem_activeSet, hF.active_iff _ hi]
    exact ⟨hi, hno⟩
  obtain ⟨x, hx⟩ := List.length_eq_one_iff.mp (show s.activeSet.length = 1 from hlen)
  rw [hx, List.mem_singleton] at hra hia
  exact hr (hia.trans hra.symm)

/-- In a complete tree every node is reached from ROOT (42_tree_builder R189 (e)). -/
theorem State.TreeInv.reached {s : State} (h : s.TreeInv) (hd : s.bstate = .done) (i : NodeIdx)
    (hi : i.toNat < s.nodeCount.toNat) :
    ∃ q, s.follow s.root q = i ∧ ∀ m < q.length, (s.nodeAt (s.follow s.root (q.take m))).kind = .internal := by
  have hF := h.forest (by rw [hd]; simp)
  obtain ⟨n, hn⟩ : ∃ n, n + i.toNat = s.nodeCount.toNat := ⟨s.nodeCount.toNat - i.toNat, by omega⟩
  induction n using Nat.strong_induction_on generalizing i with
  | _ n ih =>
    by_cases hr : i = s.root
    · exact ⟨[], by rw [hr]; rfl, fun m hm => absurd hm (by simp)⟩
    · obtain ⟨p, hp1, hp2⟩ := h.has_parent hd i hi hr
      obtain ⟨hk, -, h5, h6, -⟩ := hF.internal p hp1
      have hlt := hp1.2
      have hpi : i.toNat < p.toNat := by
        rcases hp2 with e | e
        · rw [e] at h5; exact h5
        · rw [e] at h6; exact h6
      obtain ⟨q, hq, hin⟩ := ih (s.nodeCount.toNat - p.toNat) (by omega) p hlt (by omega)
      have hall : ∀ (d : Bool) (m : Nat), m < (q ++ [d]).length →
          (s.nodeAt (s.follow s.root ((q ++ [d]).take m))).kind = .internal := by
        intro d m hm
        rw [List.length_append, List.length_singleton] at hm
        rcases Nat.lt_or_ge m q.length with h7 | h7
        · rw [List.take_append_of_le_length (le_of_lt h7)]; exact hin m h7
        · have : m = q.length := by omega
          subst this
          rw [List.take_left, hq]
          exact hk
      rcases hp2 with e | e
      · exact ⟨q ++ [false], by rw [State.follow_append, hq]; exact e, hall false⟩
      · exact ⟨q ++ [true], by rw [State.follow_append, hq]; exact e, hall true⟩

/-- In a complete tree a symbol is at some leaf below ROOT exactly when it is present (42_tree_builder R189 (d)). -/
theorem State.TreeInv.ends_iff {s : State} (h : s.TreeInv) (hd : s.bstate = .done) (b : Byte) :
    (∃ q, s.Ends s.root q b.toNat) ↔ s.freqAt b ≠ 0 := by
  have hF := h.forest (by rw [hd]; simp)
  obtain ⟨h1, h2, h3, h4⟩ := h.complete hd
  constructor
  · rintro ⟨q, hq⟩
    have hlt := hF.follow_lt s.root q (by omega) hq.inner
    have hk := (hF.kind (s.follow s.root q) (by omega)).1.mp hq.leaf
    obtain ⟨c, active, hc, -, hn⟩ := hF.leaf_of_lt hk
    have hs := hq.symbol
    rw [hn] at hs
    have : c = b := BitVec.eq_of_toNat_eq hs
    rw [← this]
    exact (s.mem_presentSymbols c).mp hc
  · intro hb
    obtain ⟨x, hx, hxb⟩ := List.getElem_of_mem ((s.mem_presentSymbols b).mpr hb)
    have hk := s.symCount_le
    have hx' : x < s.symCount := hx
    have hxn : (BitVec.ofNat 9 x).toNat = x := by rw [BitVec.toNat_ofNat, Nat.mod_eq_of_lt (by omega)]
    obtain ⟨active, hn⟩ := hF.leaf (BitVec.ofNat 9 x) b (by rw [hxn, List.getElem?_eq_getElem hx, hxb])
    obtain ⟨q, hq, hin⟩ := h.reached hd (BitVec.ofNat 9 x) (by omega)
    exact ⟨q, by rw [hq, hn]; rfl, by rw [hq, hn]; rfl, hin⟩

/-! ### The code table -/

theorem get?_emptyCodes (b : Byte) : Cells.get? emptyCodes b.toNat = some ⟨0, 0⟩ := by
  unfold emptyCodes
  rw [Cells.get?_ofList, if_pos (Nat.zero_le _), Nat.sub_zero, List.getElem?_replicate, if_pos b.isLt]

/-- ASSIGN's walk ends on a complete tree (43_codec_table R213). -/
theorem State.TreeInv.codeTable_some {s : State} (h : s.TreeInv) (hd : s.bstate = .done) :
    ∃ u, s.codeTable = some u := by
  obtain ⟨h1, h2, h3, h4⟩ := h.complete hd
  have hk := s.symCount_le
  unfold State.codeTable
  split
  · exact ⟨_, rfl⟩
  · exact walk_ends (h.forest (by rw [hd]; simp)) 256 s.root [] emptyCodes (by omega) (by omega) (by omega)

/-- The code table of a complete tree (43_codec_table R210, R212, R213, R215): no entry for an absent symbol, the code "0"
for the symbol of a single-leaf tree, and else the path to the symbol's leaf, of 1 to 255 bits. -/
theorem State.TreeInv.codeTable_spec {s : State} (h : s.TreeInv) (hd : s.bstate = .done) {u : Cells Code}
    (hu : s.codeTable = some u) (b : Byte) :
    (s.freqAt b = 0 → Cells.get? u b.toNat = some ⟨0, 0⟩) ∧
      (s.freqAt b ≠ 0 → s.symCount = 1 → Cells.get? u b.toNat = some (codeOfPath [false])) ∧
      (s.freqAt b ≠ 0 → s.symCount ≠ 1 → ∃ q, s.Ends s.root q b.toNat ∧ 1 ≤ q.length ∧ q.length ≤ 255 ∧
        Cells.get? u b.toNat = some (codeOfPath q)) := by
  have hne : s.bstate ≠ .idle := by rw [hd]; simp
  have hF := h.forest hne
  obtain ⟨h1, h2, h3, h4⟩ := h.complete hd
  have hsingle := h.single hne
  unfold State.codeTable at hu
  by_cases hk : s.symCount = 1
  · rw [hsingle, decide_eq_true hk, if_pos rfl] at hu
    obtain rfl := Option.some.inj hu
    have hroot : s.root.toNat < s.symCount := by omega
    obtain ⟨c, active, hc, -, hn⟩ := hF.leaf_of_lt hroot
    have hcb : c = b ↔ s.freqAt b ≠ 0 := by
      constructor
      · rintro rfl; exact (s.mem_presentSymbols c).mp hc
      · intro hb
        have hb' := (s.mem_presentSymbols b).mpr hb
        obtain ⟨x, hx⟩ := List.length_eq_one_iff.mp (show s.presentSymbols.length = 1 from hk)
        rw [hx, List.mem_singleton] at hc hb'
        rw [hc, hb']
    have hsym : (s.nodeAt s.root).symbol = c := by rw [hn]; rfl
    rw [hsym, Cells.get?_set]
    refine ⟨fun hb => ?_, fun hb _ => ?_, fun _ h5 => absurd hk h5⟩
    · have hcb' : ¬ c.toNat = b.toNat := fun e => hcb.mp (BitVec.eq_of_toNat_eq e) hb
      rw [if_neg hcb', get?_emptyCodes]
    · rw [if_pos (by rw [hcb.mpr hb])]
  · rw [hsingle, decide_eq_false hk, if_neg (by simp)] at hu
    refine ⟨fun hb => ?_, fun _ h5 => absurd h5 hk, fun hb _ => ?_⟩
    · rcases walk_spec s 256 s.root [] emptyCodes u hu b.toNat with ⟨h5, -⟩ | ⟨q, hq, -⟩
      · rw [h5, get?_emptyCodes]
      · exact absurd hb ((h.ends_iff hd b).mp ⟨q, hq⟩)
    · rcases walk_spec s 256 s.root [] emptyCodes u hu b.toNat with ⟨-, h6⟩ | ⟨q, hq, hl, h5⟩
      · obtain ⟨q, hq⟩ := (h.ends_iff hd b).mpr hb
        exact absurd hq (h6 q)
      · refine ⟨q, hq, ?_, by omega, h5⟩
        cases q with
        | nil =>
          have hleaf := ((hF.kind s.root (by omega)).1).mp hq.leaf
          omega
        | cons d q => simp

end Sys2Proof.Machine
end

