-- ==== Sys2Proof/Laws/Pack.lean ====
section
/-!
SUPPORT. PACK (44_bitstream_pack): when it raises, the container's size, and what stands at each of its offsets.
-/

namespace Sys2Proof.Machine

/-- Every byte has a code exactly when the search for one without a code fails (44_bitstream_pack R230). -/
theorem State.firstWithoutCode_none (s : State) (bs : List Byte) (j : Nat) :
    s.firstWithoutCode bs j = none ↔ ∀ b ∈ bs, (s.codeAt b).len ≠ 0 := by
  induction bs generalizing j with
  | nil => simp [State.firstWithoutCode]
  | cons b bs ih =>
    unfold State.firstWithoutCode
    by_cases h : (s.codeAt b).len = 0
    · simp [h]
    · rw [if_neg h, ih, List.forall_mem_cons]
      exact ⟨fun h' => ⟨h, h'⟩, And.right⟩

/-- The search reports the first byte without a code (60_exceptions R312). -/
theorem State.firstWithoutCode_some (s : State) (bs : List Byte) (j k : Nat) :
    s.firstWithoutCode bs j = some k ↔
      ∃ n b, k = j + n ∧ bs[n]? = some b ∧ (s.codeAt b).len = 0 ∧ ∀ c ∈ bs.take n, (s.codeAt c).len ≠ 0 := by
  induction bs generalizing j with
  | nil => simp [State.firstWithoutCode]
  | cons b bs ih =>
    unfold State.firstWithoutCode
    by_cases h : (s.codeAt b).len = 0
    · rw [if_pos h]
      constructor
      · intro e
        exact ⟨0, b, by simpa using (Option.some.inj e).symm, by simp, h, by simp⟩
      · rintro ⟨n, c, rfl, hc, hl, hall⟩
        cases n with
        | zero => simp
        | succ n => exact absurd h (hall b (by simp))
    · rw [if_neg h, ih]
      constructor
      · rintro ⟨n, c, rfl, hc, hl, hall⟩
        refine ⟨n + 1, c, by omega, by simpa using hc, hl, fun d hd => ?_⟩
        rw [List.take_succ_cons, List.mem_cons] at hd
        rcases hd with rfl | hd
        · exact h
        · exact hall d hd
      · rintro ⟨n, c, rfl, hc, hl, hall⟩
        cases n with
        | zero =>
          obtain rfl : b = c := by simpa using hc
          exact absurd hl h
        | succ n =>
          exact ⟨n, c, by omega, by simpa using hc, hl, fun d hd => hall d (by rw [List.take_succ_cons]; simp [hd])⟩

/-- The encoded payload's length is the sum of the code lengths (44_bitstream_pack R231). -/
theorem State.length_payloadOf (s : State) (bs : List Byte) :
    (s.payloadOf bs).length = (bs.map fun b => (s.codeAt b).len.toNat).sum := by
  unfold State.payloadOf
  rw [List.length_flatMap]
  congr 1
  exact List.map_congr_left fun b _ => by simp [Code.string]

theorem length_padded (p : List Bool) : (padded p).length = p.length + padCount p.length := by
  unfold padded; simp

/-! ### The symbol table -/

theorem length_entries (f : Byte → Word) (l : List Byte) : (l.flatMap fun b => b :: bytes32 (f b)).length = 5 * l.length := by
  induction l with
  | nil => rfl
  | cons b l ih => rw [List.flatMap_cons, List.length_append, ih]; simp [bytes32]; omega

theorem getElem?_entries (f : Byte → Word) (l : List Byte) (i r : Nat) (hr : r < 5) (b : Byte) (hb : l[i]? = some b) :
    (l.flatMap fun b => b :: bytes32 (f b))[5 * i + r]? = (b :: bytes32 (f b))[r]? := by
  induction l generalizing i with
  | nil => simp at hb
  | cons c l ih =>
    rw [List.flatMap_cons]
    cases i with
    | zero =>
      obtain rfl : c = b := by simpa using hb
      rw [List.getElem?_append_left (by simp [bytes32]; omega)]
      simp
    | succ i =>
      rw [List.getElem?_append_right (by simp [bytes32]; omega)]
      have e : 5 * (i + 1) + r - (c :: bytes32 (f c)).length = 5 * i + r := by simp [bytes32]; omega
      rw [e]
      exact ih i (by simpa using hb)

/-- The container's size is the one PACK computes (44_bitstream_pack R230, R234, R238, R240). -/
theorem State.length_container (s : State) (p : List Bool) :
    (s.container p).length = containerSize s.symCount p.length := by
  unfold State.container State.tableBytes containerSize headerSize State.symCount
  rw [List.length_append, List.length_append, List.length_append, length_entries, length_bytesOfBits, length_padded]
  simp [bytes16]

/-- Offsets 0 and 1 hold symbol_count (44_bitstream_pack R233). -/
theorem State.container_count (s : State) (p : List Bool) :
    (s.container p)[0]? = some (BitVec.ofNat 8 (s.symCount / 2 ^ 8)) ∧
      (s.container p)[1]? = some (BitVec.ofNat 8 s.symCount) := ⟨rfl, rfl⟩

/-- Entry i stands at offset 2 + 5i: the symbol, then its count, big-endian (44_bitstream_pack R233). -/
theorem State.container_entry (s : State) (p : List Bool) (i r : Nat) (hr : r < 5) (b : Byte)
    (hb : s.presentSymbols[i]? = some b) :
    (s.container p)[2 + 5 * i + r]? = (b :: bytes32 (s.freqAt b))[r]? := by
  have hi := (List.getElem?_eq_some_iff.mp hb).1
  unfold State.container State.tableBytes
  rw [List.append_assoc, List.append_assoc, List.getElem?_append_right (by simp [bytes16]; omega),
    List.getElem?_append_left (by rw [length_entries]; simp [bytes16]; omega)]
  have e : 2 + 5 * i + r - (bytes16 s.symCount).length = 5 * i + r := by simp [bytes16]; omega
  rw [e]
  exact getElem?_entries _ _ i r hr b hb

/-- Offset 2 + 5k holds the padding count (44_bitstream_pack R233). -/
theorem State.container_padding (s : State) (p : List Bool) :
    (s.container p)[2 + 5 * s.symCount]? = some (BitVec.ofNat 8 (padCount p.length)) := by
  unfold State.container State.tableBytes
  rw [List.getElem?_append_left (by simp only [List.length_append, length_entries]; simp [bytes16, State.symCount])]
  rw [List.getElem?_append_right (by simp only [List.length_append, length_entries]; simp [bytes16, State.symCount])]
  rw [List.length_append, length_entries]
  simp [bytes16, State.symCount]

/-- The payload starts at offset 3 + 5k (44_bitstream_pack R233, R234). -/
theorem State.container_payload (s : State) (p : List Bool) (j : Nat) :
    (s.container p)[headerSize s.symCount + j]? = (bytesOfBits (padded p))[j]? := by
  unfold State.container State.tableBytes headerSize
  rw [List.getElem?_append_right
    (by simp only [List.length_append, length_entries]; simp [bytes16, State.symCount])]
  congr 1
  simp only [List.length_append, length_entries]
  simp [bytes16, State.symCount]

end Sys2Proof.Machine
end

