-- ==== Sys2Proof/Laws/Container.lean ====
section
/-!
SUPPORT. PARSE and DECODE (45_container_decode): the frequency map of a header, the decode walk along code strings, and the
header of a container read back.
-/

namespace Sys2Proof.Machine

/-! ### The frequency map of a list of entries -/

theorem foldl_setFreqEntry_not_mem (es : List (Byte × Word)) (t : Vector Word 256) (b : Byte)
    (h : b ∉ es.map Prod.fst) :
    (es.foldl (fun t e => setFreqEntry t e.1 e.2) t)[b.toNat]'b.isLt = t[b.toNat]'b.isLt := by
  induction es generalizing t with
  | nil => rfl
  | cons e es ih =>
    rw [List.map_cons, List.mem_cons, not_or] at h
    rw [List.foldl_cons, ih _ h.2, getElem_setFreqEntry, if_neg (Ne.symm h.1)]

theorem foldl_setFreqEntry_mem (es : List (Byte × Word)) (t : Vector Word 256) (b : Byte) (f : Word)
    (h : (b, f) ∈ es) (hn : (es.map Prod.fst).Nodup) :
    (es.foldl (fun t e => setFreqEntry t e.1 e.2) t)[b.toNat]'b.isLt = f := by
  induction es generalizing t with
  | nil => cases h
  | cons e es ih =>
    rw [List.map_cons, List.nodup_cons] at hn
    rw [List.foldl_cons]
    rcases List.mem_cons.mp h with rfl | h
    · rw [foldl_setFreqEntry_not_mem _ _ _ hn.1, getElem_setFreqEntry, if_pos rfl]
    · exact ih _ h hn.2

/-- FREQ after PARSE is exactly the header's map (45_container_decode R262). -/
theorem getElem_freqOfEntries_mem (es : List (Byte × Word)) (b : Byte) (f : Word) (h : (b, f) ∈ es)
    (hn : (es.map Prod.fst).Nodup) : (freqOfEntries es)[b.toNat]'b.isLt = f :=
  foldl_setFreqEntry_mem es zeroFreq b f h hn

theorem getElem_freqOfEntries_not_mem (es : List (Byte × Word)) (b : Byte) (h : b ∉ es.map Prod.fst) :
    (freqOfEntries es)[b.toNat]'b.isLt = 0 := by
  unfold freqOfEntries
  rw [foldl_setFreqEntry_not_mem es zeroFreq b h, getElem_zeroFreq]

theorem freq_ext {t u : Vector Word 256} (h : ∀ b : Byte, t[b.toNat]'b.isLt = u[b.toNat]'b.isLt) : t = u := by
  refine Vector.ext fun i hi => ?_
  have := h (BitVec.ofNat 8 i)
  have e : (BitVec.ofNat 8 i).toNat = i := by rw [BitVec.toNat_ofNat, Nat.mod_eq_of_lt (by omega)]
  simp only [e] at this
  exact this

/-- The entries of a frequency map, in any order, give it back (45_container_decode R262). -/
theorem freqOfEntries_presentSymbols (s : State) :
    freqOfEntries (s.presentSymbols.map fun b => (b, s.freqAt b)) = s.freq := by
  have hkeys : (s.presentSymbols.map fun b => (b, s.freqAt b)).map Prod.fst = s.presentSymbols := by
    rw [List.map_map]; exact List.map_id' _
  refine freq_ext fun b => ?_
  by_cases hb : b ∈ s.presentSymbols
  · exact getElem_freqOfEntries_mem _ b (s.freqAt b) (List.mem_map.mpr ⟨b, hb, rfl⟩)
      (by rw [hkeys]; exact s.presentSymbols_nodup)
  · rw [getElem_freqOfEntries_not_mem _ b (by rw [hkeys]; exact hb)]
    rw [State.mem_presentSymbols] at hb
    push Not at hb
    exact hb.symm

/-! ### The entries of a header -/

/-- Reading back a symbol table of distinct symbols and counts that are not zero (45_container_decode R260). -/
theorem parseEntries_ok (s : State) (es : List (Byte × Word)) (hn : (es.map Prod.fst).Nodup)
    (hz : ∀ e ∈ es, e.2 ≠ 0)
    (h : ∀ i e, es[i]? = some e → s.inByte (2 + 5 * i) = e.1 ∧ s.be32 (2 + 5 * i + 1) = e.2) (m i : Nat)
    (hm : m + i = es.length) : s.parseEntries m i (es.take i) = .ok es := by
  induction m generalizing i with
  | zero => unfold State.parseEntries; rw [List.take_of_length_le (by omega)]
  | succ m ih =>
    have hi : i < es.length := by omega
    have hget : es[i]? = some es[i] := List.getElem?_eq_getElem hi
    obtain ⟨h1, h2⟩ := h i _ hget
    unfold State.parseEntries
    simp only [h1, h2]
    rw [if_neg (hz _ (List.getElem_mem hi))]
    have hnew : ¬ ((es.take i).any fun x => decide (x.1 = es[i].1)) = true := by
      rw [List.any_eq_true]
      rintro ⟨x, hx, hxe⟩
      rw [decide_eq_true_eq] at hxe
      obtain ⟨k, hk, rfl⟩ := List.getElem_of_mem hx
      rw [List.length_take] at hk
      rw [List.getElem_take] at hxe
      have h3 := List.nodup_iff_injective_get.mp hn
      have h4 := @h3 ⟨k, by rw [List.length_map]; omega⟩ ⟨i, by rw [List.length_map]; exact hi⟩
        (by simpa using hxe)
      have h5 : k = i := by simpa using h4
      omega
    rw [if_neg hnew]
    have e : es.take i ++ [(es[i].1, es[i].2)] = es.take (i + 1) := by
      rw [List.take_succ_eq_append_getElem hi]
    rw [e]
    exact ih (i + 1) (by omega)

/-! ### The decode walk -/

/-- The node a bit leads to from the cursor (45_container_decode R271). -/
def State.branch (s : State) (i : NodeIdx) (bit : Bool) : NodeIdx := if bit then (s.nodeAt i).one else (s.nodeAt i).zero

/-- A payload bit inside the input is IN_BUF's (10_state R55, 00_scope R18). -/
theorem State.inputBit_inside (s : State) {base j : Nat} (h : base + j / 8 < s.inLen.toNat) :
    s.inputBit base j = s.payloadBit base j := if_pos h

/-- A payload bit past the input is a free value (10_state R55, log 13). -/
theorem State.inputBit_past (s : State) {base j : Nat} (h : s.inLen.toNat ≤ base + j / 8) :
    s.inputBit base j = Config.unreadBit s.era base j := if_neg (Nat.not_lt.mpr h)

theorem State.decodeBit_leaf (s : State) (hs : s.single = false) (c : Cursor) (bit : Bool)
    (h : (s.nodeAt (s.branch c.cur bit)).kind = .leaf) :
    s.decodeBit c bit = s.emit c (s.nodeAt (s.branch c.cur bit)).symbol := by
  unfold State.branch at *
  unfold State.decodeBit
  rw [hs]
  simp only [Bool.false_eq_true, if_false, h]

theorem State.decodeBit_internal (s : State) (hs : s.single = false) (c : Cursor) (bit : Bool)
    (h : (s.nodeAt (s.branch c.cur bit)).kind = .internal) :
    s.decodeBit c bit = .ok ⟨s.branch c.cur bit, c.pending + 1, c.out⟩ := by
  unfold State.branch at *
  unfold State.decodeBit
  rw [hs]
  simp only [Bool.false_eq_true, if_false, h]

/-- The walk along a string that ends at a leaf emits that leaf's symbol and restarts at ROOT (45_container_decode R270,
R271). -/
theorem State.foldlM_decodeBit_ends (s : State) (hs : s.single = false) (q : List Bool) (i : NodeIdx) (b : Byte)
    (pending : Nat) (out : List Byte) (h : s.Ends i q b.toNat) (hq : q ≠ []) (ho : out.length ≠ s.capOut.toNat) :
    q.foldlM s.decodeBit ⟨i, pending, out⟩ = .ok ⟨s.root, 0, out ++ [b]⟩ := by
  induction q generalizing i pending with
  | nil => exact absurd rfl hq
  | cons d q ih =>
    have h2 : s.Ends (s.branch i d) q b.toNat := h.of_cons.2
    rw [List.foldlM_cons]
    cases q with
    | nil =>
      have hl : (s.nodeAt (s.branch i d)).kind = .leaf := h2.leaf
      have hb : (s.nodeAt (s.branch i d)).symbol = b := BitVec.eq_of_toNat_eq h2.symbol
      rw [s.decodeBit_leaf hs _ _ hl, hb]
      unfold State.emit
      simp only [if_neg ho]
      rfl
    | cons e q =>
      have hl : (s.nodeAt (s.branch i d)).kind = .internal := h2.inner 0 (by simp)
      rw [s.decodeBit_internal hs ⟨i, pending, out⟩ d hl]
      exact ih _ _ h2 (by simp)

/-- Each bit of a single-leaf tree's payload emits its symbol (45_container_decode R272). -/
theorem State.decodeBit_single (s : State) (hs : s.single = true) (bit : Bool) (c : Cursor)
    (ho : c.out.length ≠ s.capOut.toNat) :
    s.decodeBit c bit = .ok ⟨s.root, 0, c.out ++ [(s.nodeAt s.root).symbol]⟩ := by
  unfold State.decodeBit State.emit
  rw [hs]
  simp [ho]

/-- The code of a symbol under a tree: "0" for a single-leaf tree (43_codec_table R215), else a path to a leaf of it. -/
def State.isCodeOf (s : State) (b : Byte) (q : List Bool) : Prop :=
  (s.single = true ∧ q = [false] ∧ (s.nodeAt s.root).symbol = b) ∨
    (s.single = false ∧ s.Ends s.root q b.toNat ∧ q ≠ [])

/-- The walk along the codes of a byte sequence gives the sequence (45_container_decode R276). -/
theorem State.foldlM_decodeBit_codes (s : State) (code : Byte → List Bool) (bs out : List Byte)
    (hc : ∀ b ∈ bs, s.isCodeOf b (code b)) (ho : out.length + bs.length ≤ s.capOut.toNat) :
    (bs.flatMap code).foldlM s.decodeBit ⟨s.root, 0, out⟩ = .ok ⟨s.root, 0, out ++ bs⟩ := by
  induction bs generalizing out with
  | nil => simp; rfl
  | cons b bs ih =>
    rw [List.length_cons] at ho
    have h1 : (code b).foldlM s.decodeBit ⟨s.root, 0, out⟩ = .ok ⟨s.root, 0, out ++ [b]⟩ := by
      rcases hc b List.mem_cons_self with ⟨hs, hq, hsym⟩ | ⟨hs, hq, hne⟩
      · rw [hq, List.foldlM_cons, s.decodeBit_single hs _ _ (by simp only; omega), hsym]
        rfl
      · exact s.foldlM_decodeBit_ends hs _ _ _ _ _ hq hne (by omega)
    rw [List.flatMap_cons, List.foldlM_append, h1]
    have := ih (out ++ [b]) (fun c hcm => hc c (List.mem_cons_of_mem _ hcm)) (by simp; omega)
    rw [List.append_assoc] at this
    exact this

end Sys2Proof.Machine
end

