-- ==== Sys2Proof/Laws/SameTree.lean ====
section
/-!
SUPPORT. The tree is a function of FREQ alone (42_tree_builder R190): two builds from the same frequency map go through the
same forests.
-/

namespace Sys2Proof.Machine

/-- Two states whose builders stand at the same point: the same counters and the same allocated slots. -/
structure SameTree (s t : State) : Prop where
  freq : t.freq = s.freq
  nodeCount : t.nodeCount = s.nodeCount
  activeCount : t.activeCount = s.activeCount
  bstate : t.bstate = s.bstate
  single : t.single = s.single
  root : s.bstate = .done → t.root = s.root
  node : ∀ i : NodeIdx, i.toNat < s.nodeCount.toNat → t.nodeAt i = s.nodeAt i

theorem SameTree.activeSet {s t : State} (h : SameTree s t) : t.activeSet = s.activeSet := by
  unfold State.activeSet
  rw [h.nodeCount]
  refine List.filter_congr fun i hi => ?_
  obtain ⟨x, hx, rfl⟩ := List.mem_map.mp hi
  rw [List.mem_range] at hx
  have := s.nodeCount.isLt
  rw [h.node _ (by rw [BitVec.toNat_ofNat, Nat.mod_eq_of_lt (by omega)]; exact hx)]

theorem SameTree.argmin {s t : State} (h : SameTree s t) (l : List NodeIdx)
    (hl : ∀ i ∈ l, i.toNat < s.nodeCount.toNat) : t.argmin l = s.argmin l := by
  induction l with
  | nil => rfl
  | cons i l ih =>
    have ih' := ih fun j hj => hl j (List.mem_cons_of_mem _ hj)
    unfold State.argmin
    rw [ih']
    cases hm : s.argmin l with
    | none => rfl
    | some m =>
      have hmem := (s.argmin_spec l m hm).1
      have hkey : t.keyLt m i = s.keyLt m i := by
        unfold State.keyLt
        rw [h.node i (hl i List.mem_cons_self), h.node m (hl m (List.mem_cons_of_mem _ hmem))]
      simp only [hkey]

theorem SameTree.selection {s t : State} (h : SameTree s t) (hF : s.Forest) (h2 : 2 ≤ s.activeCount.toNat) :
    t.selection = s.selection := by
  have hlt : ∀ i ∈ s.activeSet, i.toNat < s.nodeCount.toNat := fun i hi => ((s.mem_activeSet i).mp hi).1
  have h1 := h.argmin s.activeSet hlt
  have h3 : ∀ a : NodeIdx, t.argmin (s.activeSet.filter (· ≠ a)) = s.argmin (s.activeSet.filter (· ≠ a)) :=
    fun a => h.argmin _ fun i hi => hlt i (List.mem_filter.mp hi).1
  have hlen := hF.active_count
  cases ha : s.argmin s.activeSet with
  | none => rw [State.argmin_none] at ha; rw [ha] at hlen; simp at hlen; omega
  | some a =>
    have hamem := (s.argmin_spec _ a ha).1
    have hlen2 : (s.activeSet.filter fun x => decide (x ≠ a)).length + 1 = s.activeSet.length := by
      rw [filter_ne_eq_erase s.activeSet_nodup, List.length_erase_of_mem hamem]
      omega
    cases hb : s.argmin (s.activeSet.filter (· ≠ a)) with
    | none => rw [State.argmin_none] at hb; rw [hb] at hlen2; simp at hlen2; omega
    | some b =>
      have h3a := h3 a
      unfold State.selection
      simp only [h.activeSet, h1, ha, Option.getD_some, h3a, hb]

/-- A merge step takes builders at the same point to the same point (42_tree_builder R190). -/
theorem SameTree.mergeStep {s t : State} (h : SameTree s t) (hF : s.Forest) (h2 : 2 ≤ s.activeCount.toNat) :
    SameTree (Machine.mergeStep s) (Machine.mergeStep t) := by
  have hsel := h.selection hF h2
  obtain ⟨ha, hb, -, -, -⟩ := s.selection_spec (by rw [hF.active_count]; exact h2)
  have hn : s.nodeCount.toNat < 511 := by
    have := hF.size; have := hF.active_le; have := s.symCount_le; omega
  have ha1 := ((s.mem_activeSet _).mp ha).1
  have hb1 := ((s.mem_activeSet _).mp hb).1
  constructor
  · rw [mergeStep_freq, mergeStep_freq, h.freq]
  · rw [mergeStep_nodeCount, mergeStep_nodeCount, h.nodeCount]
  · rw [mergeStep_activeCount, mergeStep_activeCount, h.activeCount]
  · rw [mergeStep_bstate, mergeStep_bstate, h.activeCount, h.bstate]
  · rw [mergeStep_single, mergeStep_single, h.single]
  · intro hd
    rw [mergeStep_bstate] at hd
    rw [mergeStep_root, mergeStep_root, h.activeCount, h.nodeCount]
    split
    · rfl
    · rename_i hne
      rw [if_neg hne] at hd
      exact h.root hd
  · intro i hi
    rw [mergeStep_nodeCount, toNat_add_one hn] at hi
    have hi511 : i ≠ 511 := ne_511 (by omega)
    rw [mergeStep_nodeAt _ _ hi511, mergeStep_nodeAt _ _ hi511, hsel, h.nodeCount]
    have hp : t.parentOf s.selection.1 s.selection.2 = s.parentOf s.selection.1 s.selection.2 := by
      unfold State.parentOf
      rw [h.node _ ha1, h.node _ hb1]
    by_cases hni : s.nodeCount = i
    · rw [if_pos hni, if_pos hni, hp]
    · have hlt : i.toNat < s.nodeCount.toNat := by
        have : s.nodeCount.toNat ≠ i.toNat := fun e => hni (BitVec.eq_of_toNat_eq e)
        omega
      rw [if_neg hni, if_neg hni, h.node i hlt]

theorem SameTree.mergeSteps (n : Nat) {s t : State} (h : SameTree s t) (hI : s.TreeInv) :
    SameTree (Machine.mergeSteps n s) (Machine.mergeSteps n t) := by
  induction n generalizing s t with
  | zero => exact h
  | succ n ih =>
    rw [mergeSteps_succ, mergeSteps_succ, h.bstate]
    split
    · rename_i hm
      exact ih (h.mergeStep (hI.forest (by rw [hm]; simp)) (hI.merge hm)) (hI.mergeStep hm)
    · exact h

theorem SameTree.built {s t : State} (hf : t.freq = s.freq) : SameTree s.built t.built := by
  have hsym := State.presentSymbols_congr hf
  have hkk := State.symCount_congr hf
  have hfr := State.freqAt_congr hf
  have hle := s.symCount_le
  constructor
  · rw [State.built_freq, State.built_freq, hf]
  · show BitVec.ofNat 9 t.symCount = BitVec.ofNat 9 s.symCount
    rw [hkk]
  · show BitVec.ofNat 9 t.symCount = BitVec.ofNat 9 s.symCount
    rw [hkk]
  · show (if t.symCount = 1 then BState.done else .merge) = if s.symCount = 1 then BState.done else .merge
    rw [hkk]
  · show decide (t.symCount = 1) = decide (s.symCount = 1)
    rw [hkk]
  · intro hd
    have h1 : s.symCount = 1 := by
      by_contra hne
      rw [show s.built.bstate = if s.symCount = 1 then BState.done else .merge from rfl, if_neg hne] at hd
      cases hd
    show (if t.symCount = 1 then (0 : NodeIdx) else t.root) = if s.symCount = 1 then (0 : NodeIdx) else s.root
    rw [hkk, if_pos h1, if_pos h1]
  · intro i hi
    have hnc : s.built.nodeCount.toNat = s.symCount := by
      show (BitVec.ofNat 9 s.symCount).toNat = _
      rw [BitVec.toNat_ofNat, Nat.mod_eq_of_lt (by omega)]
    rw [hnc] at hi
    have hb : s.presentSymbols[i.toNat]? = some s.presentSymbols[i.toNat] := List.getElem?_eq_getElem hi
    rw [s.built_leaf i _ hb, t.built_leaf i _ (by rw [hsym]; exact hb), hfr]

/-- BUILD gives the same tree from the same frequency map (42_tree_builder R190). -/
theorem SameTree.tree {s t : State} (hf : t.freq = s.freq) (hk : s.symCount ≠ 0) : SameTree s.tree t.tree := by
  unfold State.tree
  rw [State.symCount_congr hf]
  exact (SameTree.built hf).mergeSteps _ (s.built_treeInv hk)

/-- In the same complete tree the same strings lead to the same leaves. -/
theorem SameTree.ends {s t : State} (h : SameTree s t) (hF : s.Forest) (i : NodeIdx) (hi : i.toNat < s.nodeCount.toNat)
    (q : List Bool) (b : Nat) (he : s.Ends i q b) : t.Ends i q b := by
  induction q generalizing i with
  | nil =>
    refine ⟨?_, ?_, fun m hm => absurd hm (by simp)⟩
    · have := he.leaf
      simp only [State.follow] at this ⊢
      rw [h.node i hi]; exact this
    · have := he.symbol
      simp only [State.follow] at this ⊢
      rw [h.node i hi]; exact this
  | cons d q ih =>
    obtain ⟨hk, he'⟩ := he.of_cons
    have hlt := hF.child_lt hi hk d
    refine State.Ends.cons (by rw [h.node i hi]; exact hk) ?_
    rw [h.node i hi]
    exact ih _ (by omega) he'

end Sys2Proof.Machine
end

