-- ==== Sys2Proof/Laws/RoundTrip.lean ====
section
/-!
SUPPORT. The stages of COMPRESS and DECOMPRESS put together (46_composite R290 to R292).
-/

namespace Sys2Proof.Machine

/-! ### COMPRESS -/

theorem scanBody_frame (s : State) : scanBody s = { s with
    bstate := .idle, single := false, codesValid := false, freq := countBytes s.inBytes } := rfl

/-- After SCAN a byte of the input is present (41_frequency_scan R160, R162). -/
theorem scanBody_freqAt (s : State) (b : Byte) :
    ((scanBody s).freqAt b).toNat = s.inBytes.count b := by
  have e : (scanBody s).freqAt b = BitVec.ofNat 32 (s.inBytes.count b) := getElem_countBytes s.inBytes b
  have hl : s.inBytes.length = s.inLen.toNat := by unfold State.inBytes; simp
  have := List.count_le_length (a := b) (l := s.inBytes)
  have := s.inLen.isLt
  rw [e, BitVec.toNat_ofNat, Nat.mod_eq_of_lt (by omega)]

theorem scanBody_present (s : State) (b : Byte) :
    (scanBody s).freqAt b ≠ 0 ↔ b ∈ s.inBytes := by
  rw [← List.count_pos_iff, ← scanBody_freqAt s b, ne_eq, ← BitVec.toNat_inj]
  simp

theorem scanBody_symCount (s : State) : (scanBody s).symCount = 0 ↔ s.inLen = 0 := by
  unfold State.symCount
  rw [List.length_eq_zero_iff, List.eq_nil_iff_forall_not_mem]
  simp only [State.mem_presentSymbols, scanBody_present s]
  constructor
  · intro hno
    by_contra hne
    have hpos : 0 < s.inLen.toNat := by
      rcases Nat.eq_zero_or_pos s.inLen.toNat with e | e
      · exact absurd (BitVec.eq_of_toNat_eq e) hne
      · exact e
    exact hno (s.inByte 0) (List.mem_map.mpr ⟨0, List.mem_range.mpr hpos, rfl⟩)
  · intro e b
    unfold State.inBytes
    rw [e]
    simp

/-- The state after the ASSIGN stage of a COMPRESS with a non-empty input. -/
def State.coded (s : State) (u : Cells Code) : State := { s with code := u, codesValid := true }

theorem assignBody_ok {s : State} (h : s.TreeInv) (hd : s.bstate = .done) :
    ∃ u, s.codeTable = some u ∧ assignBody s = .ok (s.coded u) := by
  obtain ⟨u, hu⟩ := h.codeTable_some hd
  refine ⟨u, hu, ?_⟩
  unfold assignBody
  rw [if_pos hd]
  simp only [hu]
  rfl

theorem State.coded_codeAt (s : State) (u : Cells Code) (b : Byte) (c : Code) (h : Cells.get? u b.toNat = some c) :
    (s.coded u).codeAt b = c := by
  unfold State.codeAt State.coded
  simp only [h, Option.getD_some]

/-- The code of a present symbol after ASSIGN, with its length (43_codec_table R212, R213, R215). -/
theorem State.coded_isCodeOf {s : State} (h : s.TreeInv) (hd : s.bstate = .done) {u : Cells Code}
    (hu : s.codeTable = some u) (b : Byte) (hb : s.freqAt b ≠ 0) :
    s.isCodeOf b ((s.coded u).codeString b) ∧ ((s.coded u).codeAt b).len.toNat = ((s.coded u).codeString b).length ∧
      ((s.coded u).codeAt b).len ≠ 0 := by
  have hne : s.bstate ≠ .idle := by rw [hd]; simp
  obtain ⟨-, h1, h2⟩ := h.codeTable_spec hd hu b
  have hsing := h.single hne
  unfold State.codeString
  by_cases hk : s.symCount = 1
  · rw [State.coded_codeAt s u b _ (h1 hb hk), string_codeOfPath _ (by simp)]
    refine ⟨.inl ⟨by rw [hsing, hk]; rfl, rfl, ?_⟩, rfl, by decide⟩
    obtain ⟨h3, h4, -, -⟩ := h.complete hd
    have hroot : s.root.toNat < s.symCount := by omega
    obtain ⟨c, active, hc, -, hn⟩ := (h.forest hne).leaf_of_lt hroot
    have hb' := (s.mem_presentSymbols b).mpr hb
    obtain ⟨x, hx⟩ := List.length_eq_one_iff.mp (show s.presentSymbols.length = 1 from hk)
    rw [hx, List.mem_singleton] at hc hb'
    rw [hn, hb', ← hc]; rfl
  · obtain ⟨q, hq, hl1, hl2, hg⟩ := h2 hb hk
    have hlen : (codeOfPath q).len.toNat = q.length := by
      show (BitVec.ofNat 8 q.length).toNat = _
      rw [BitVec.toNat_ofNat, Nat.mod_eq_of_lt (by omega)]
    rw [State.coded_codeAt s u b _ hg, string_codeOfPath q hl2]
    refine ⟨.inr ⟨by rw [hsing]; simp [hk], hq, by intro e; rw [e] at hl1; simp at hl1⟩, hlen, ?_⟩
    intro e
    rw [e] at hlen
    simp at hlen
    omega

/-- The state in which the PACK stage of COMPRESS runs: the tree of the counts of the input, and its codes. -/
def State.compressed (s : State) (u : Cells Code) : State := (scanBody s).tree.coded u

/-- COMPRESS of a non-empty input up to its PACK stage (46_composite R290). -/
theorem compressBody_eq (s : State) (h0 : s.inLen ≠ 0) :
    ∃ u, (scanBody s).tree.codeTable = some u ∧ compressBody s = packBody (s.compressed u) := by
  have hk : (scanBody s).symCount ≠ 0 := fun e => h0 ((scanBody_symCount s).mp e)
  obtain ⟨u, hu, ha⟩ := assignBody_ok ((scanBody s).tree_treeInv hk) ((scanBody s).tree_done hk)
  refine ⟨u, hu, ?_⟩
  unfold compressBody
  rw [buildBody_ok _ hk]
  show (assignBody (scanBody s).tree).andThen packBody = _
  rw [ha]
  rfl

/-- COMPRESS of the empty input stops in its BUILD stage (46_composite R290, 90_conflicts C3). -/
theorem compressBody_empty (s : State) (h0 : s.inLen = 0) :
    compressBody s = .raised .emptyMap 0 (scanBody s) := by
  have hk : (scanBody s).symCount = 0 := (scanBody_symCount s).mpr h0
  unfold compressBody
  rw [buildBody_empty _ hk]
  rfl

/-- What the stages before PACK leave alone. -/
theorem State.compressed_frame (s : State) (u : Cells Code) : s.compressed u = { s with
    freq := countBytes s.inBytes, node := (s.compressed u).node, nodeCount := (s.compressed u).nodeCount,
    activeCount := (s.compressed u).activeCount, single := (s.compressed u).single, root := (s.compressed u).root,
    bstate := (s.compressed u).bstate, code := u, codesValid := true } := by
  have h1 := (scanBody s).tree_frame
  unfold State.compressed State.coded
  rw [h1, scanBody_frame]

theorem State.compressed_inBytes (s : State) (u : Cells Code) : (s.compressed u).inBytes = s.inBytes := by
  rw [s.compressed_frame]; rfl

theorem State.compressed_freqAt (s : State) (u : Cells Code) (b : Byte) :
    (s.compressed u).freqAt b = (scanBody s).freqAt b := by
  refine State.freqAt_congr ?_ b
  rw [s.compressed_frame]; rfl

/-- Every byte of the input has a code in COMPRESS's PACK stage (46_composite R290). -/
theorem State.compressed_all (s : State) (h0 : s.inLen ≠ 0) {u : Cells Code}
    (hu : (scanBody s).tree.codeTable = some u) :
    (s.compressed u).firstWithoutCode (s.compressed u).inBytes 0 = none := by
  have hk : (scanBody s).symCount ≠ 0 := fun e => h0 ((scanBody_symCount s).mp e)
  rw [State.firstWithoutCode_none, State.compressed_inBytes]
  intro b hb
  have hf : (scanBody s).tree.freqAt b ≠ 0 := by
    rw [State.freqAt_congr (State.tree_freq _)]
    exact (scanBody_present s b).mpr hb
  exact (State.coded_isCodeOf ((scanBody s).tree_treeInv hk) ((scanBody s).tree_done hk) hu b hf).2.2

/-- The size of the container that COMPRESS writes (44_bitstream_pack R240), 0 for the empty input, which it refuses. -/
def State.compressedSize (s : State) (u : Cells Code) : Nat :=
  containerSize (scanBody s).symCount ((s.compressed u).payloadOf s.inBytes).length

/-- The PACK stage of COMPRESS (46_composite R290): it writes the container, or raises OutputOverflow where that does not
fit. -/
theorem compress_pack (s : State) (h0 : s.inLen ≠ 0) {u : Cells Code}
    (hu : (scanBody s).tree.codeTable = some u) :
    packBody (s.compressed u) =
      if s.capOut.toNat < s.compressedSize u then .raised .outputOverflow 0 (s.compressed u)
      else .ok { s.compressed u with
        outBuf := Cells.ofList 0 ((s.compressed u).container ((s.compressed u).payloadOf s.inBytes))
        outLen := BitVec.ofNat 32 (s.compressedSize u)
        padding := BitVec.ofNat 3 (padCount ((s.compressed u).payloadOf s.inBytes).length)
        payloadOff := BitVec.ofNat 32 (headerSize (scanBody s).symCount)
        payloadBits := BitVec.ofNat 64 ((s.compressed u).payloadOf s.inBytes).length } := by
  have hcv : (s.compressed u).codesValid = true := rfl
  have hcap : (s.compressed u).capOut = s.capOut := by rw [s.compressed_frame]
  have hsym : (s.compressed u).symCount = (scanBody s).symCount := by
    refine State.symCount_congr ?_
    rw [s.compressed_frame]; rfl
  unfold packBody
  rw [s.compressed_all h0 hu, hcv]
  simp only [Bool.true_eq_false, if_false, State.compressed_inBytes, hcap, hsym]
  rfl

/-! ### The container read back -/

/-- The bytes of a buffer are those of a list. -/
def State.holds (r : State) (bs : List Byte) : Prop :=
  r.inLen.toNat = bs.length ∧ ∀ (j : Nat) (b : Byte), bs[j]? = some b → r.inByte j = b

/-- The header of a container reads back as the frequency map and the padding it was written from (45_container_decode
R260, R262). -/
theorem parseHeader_container (s r : State) (p : List Bool) (hk : s.symCount ≠ 0) (h : r.holds (s.container p)) :
    r.be16 0 = s.symCount ∧
      r.parseHeader = .ok (s.presentSymbols.map fun b => (b, s.freqAt b), padCount p.length) := by
  obtain ⟨hlen, hby⟩ := h
  have hle := s.symCount_le
  rw [s.length_container] at hlen
  have hbe : r.be16 0 = s.symCount := by
    unfold State.be16
    rw [hby 0 _ (s.container_count p).1, hby 1 _ (s.container_count p).2]
    exact bytes16_value _ (by omega)
  refine ⟨hbe, ?_⟩
  have hH : headerSize s.symCount ≤ r.inLen.toNat := by rw [hlen]; unfold containerSize; omega
  have hpad : r.inByte (2 + 5 * s.symCount) = BitVec.ofNat 8 (padCount p.length) := hby _ _ (s.container_padding p)
  have hpl := padCount_lt p.length
  have hpadn : (BitVec.ofNat 8 (padCount p.length)).toNat = padCount p.length := by
    rw [BitVec.toNat_ofNat, Nat.mod_eq_of_lt (by omega)]
  have hentries : r.parseEntries s.symCount 0 [] = .ok (s.presentSymbols.map fun b => (b, s.freqAt b)) := by
    have hkeys : (s.presentSymbols.map fun b => (b, s.freqAt b)).map Prod.fst = s.presentSymbols := by
      rw [List.map_map]; exact List.map_id' _
    have := parseEntries_ok r (s.presentSymbols.map fun b => (b, s.freqAt b)) (by rw [hkeys]; exact s.presentSymbols_nodup)
      (by
        intro e he
        obtain ⟨b, hb, rfl⟩ := List.mem_map.mp he
        exact (s.mem_presentSymbols b).mp hb)
      (by
        intro i e he
        rw [List.getElem?_map, Option.map_eq_some_iff] at he
        obtain ⟨b, hb, rfl⟩ := he
        have hget : ∀ t, t < 5 → ∀ v, (b :: bytes32 (s.freqAt b))[t]? = some v → r.inByte (2 + 5 * i + t) = v :=
          fun t ht v hv => hby _ v (by rw [s.container_entry p i t ht b hb]; exact hv)
        refine ⟨hget 0 (by omega) b rfl, ?_⟩
        unfold State.be32
        rw [hget 1 (by omega) _ rfl, hget 2 (by omega) _ rfl, hget 3 (by omega) _ rfl, hget 4 (by omega) _ rfl]
        exact bytes32_append _)
      s.symCount 0 (by rw [List.length_map]; rfl)
    simpa using this
  unfold State.parseHeader
  simp only [hbe, hentries, hpad, hpadn]
  have h2 : ¬ r.inLen.toNat < 2 := by unfold headerSize at hH; omega
  rw [if_neg h2, if_neg hk, if_neg (by omega), if_neg (by omega), if_neg (by omega), if_neg]
  rintro ⟨h3, h4⟩
  rw [hlen] at h3
  unfold containerSize at h3
  have h5 := padded_div p.length
  unfold padCount at h4 h3 h5
  omega

/-- PARSE of a container (45_container_decode R260). -/
theorem parseBody_container (s r : State) (p : List Bool) (hk : s.symCount ≠ 0) (h : r.holds (s.container p)) :
    parseBody r = .ok { r.dropTree with
      freq := s.freq, padding := BitVec.ofNat 3 (padCount p.length),
      payloadOff := BitVec.ofNat 32 (headerSize s.symCount), payloadBits := BitVec.ofNat 64 p.length,
      hdrValid := true } := by
  obtain ⟨h1, h2⟩ := parseHeader_container s r p hk h
  have hlen := h.1
  rw [s.length_container] at hlen
  have hbits : 8 * (r.inLen.toNat - headerSize s.symCount) - padCount p.length = p.length := by
    rw [hlen]
    unfold containerSize
    have := padded_dvd p.length
    omega
  unfold parseBody
  rw [h2]
  simp only [h1, hbits, freqOfEntries_presentSymbols]

/-- The payload bits of a container read back (45_container_decode R273). -/
theorem payloadBitList_container (s r t : State) (p : List Bool) (h : r.holds (s.container p))
    (hin : ∀ j, t.inByte j = r.inByte j) (hinLen : t.inLen = r.inLen) (hoff : t.payloadOff.toNat = headerSize s.symCount)
    (hbits : t.payloadBits.toNat = p.length) : t.payloadBitList = p := by
  unfold State.payloadBitList
  rw [hbits, hoff]
  refine List.ext_getElem (by simp) fun j h1 h2 => ?_
  rw [List.getElem_map, List.getElem_range]
  have hpd := padded_dvd p.length
  have hj : j / 8 < (padded p).length / 8 := by rw [length_padded]; omega
  have hb : (bytesOfBits (padded p))[j / 8]? =
      some ((bytesOfBits (padded p))[j / 8]'(by rw [length_bytesOfBits]; exact hj)) := List.getElem?_eq_getElem _
  have hlen := h.1
  rw [s.length_container] at hlen
  rw [State.inputBit_inside _ (by rw [hinLen, hlen]; unfold containerSize; omega)]
  unfold State.payloadBit
  rw [hin, h.2 _ _ ((s.container_payload p (j / 8)).trans hb), getElem_bytesOfBits _ _ hj]
  unfold padded
  rw [List.getD_eq_getElem _ _ (by rw [List.length_append]; omega), List.getElem_append_left h2]

theorem sum_le_mul (l : List Byte) (f : Byte → Nat) (h : ∀ b, f b ≤ 255) : (l.map f).sum ≤ 255 * l.length := by
  induction l with
  | nil => simp
  | cons b l ih =>
    rw [List.map_cons, List.sum_cons, List.length_cons]
    have := h b
    omega

/-- DECOMPRESS of a container that a COMPRESS wrote gives the input back (46_composite R292). -/
theorem decompressBody_container (s r : State) (h0 : s.inLen ≠ 0) {u : Cells Code}
    (hu : (scanBody s).tree.codeTable = some u)
    (hr : r.holds ((s.compressed u).container ((s.compressed u).payloadOf s.inBytes)))
    (hcap : s.inLen.toNat ≤ r.capOut.toNat) :
    ∃ t : State, decompressBody r = .ok { t with
        outBuf := Cells.ofList 0 s.inBytes, outLen := s.inLen } ∧ t.bstate = .done ∧ t.hdrValid = true ∧
        t.freq = (scanBody s).freq ∧ t.codesValid = false ∧ t.err = r.err := by
  have hk : (scanBody s).symCount ≠ 0 := fun e => h0 ((scanBody_symCount s).mp e)
  have hcf : (s.compressed u).freq = (scanBody s).freq := by rw [s.compressed_frame]; rfl
  have hck : (s.compressed u).symCount ≠ 0 := by rw [State.symCount_congr hcf]; exact hk
  generalize hp : (s.compressed u).payloadOf s.inBytes = p at hr
  have hparse := parseBody_container _ r p hck hr
  generalize hr1 : ({ r.dropTree with
      freq := (s.compressed u).freq, padding := BitVec.ofNat 3 (padCount p.length),
      payloadOff := BitVec.ofNat 32 (headerSize (s.compressed u).symCount), payloadBits := BitVec.ofNat 64 p.length,
      hdrValid := true } : State) = r1 at hparse
  have hr1f : r1.freq = (scanBody s).freq := by rw [← hr1]; exact hcf
  have hr1k : r1.symCount ≠ 0 := by rw [State.symCount_congr hr1f]; exact hk
  have hframe := r1.tree_frame
  have htd := r1.tree_done hr1k
  have hlen : s.inBytes.length = s.inLen.toNat := by unfold State.inBytes; simp
  -- the two trees are the same
  have hI := (scanBody s).tree_treeInv hk
  have hd := (scanBody s).tree_done hk
  have hF := hI.forest (by rw [hd]; simp)
  have hsame : SameTree (scanBody s).tree r1.tree := SameTree.tree hr1f hk
  have hroot : (scanBody s).tree.root.toNat < (scanBody s).tree.nodeCount.toNat := by
    have := hI.complete hd; omega
  have hcode : ∀ b ∈ s.inBytes, r1.tree.isCodeOf b ((s.compressed u).codeString b) := by
    intro b hb
    have hf : (scanBody s).tree.freqAt b ≠ 0 := by
      rw [State.freqAt_congr (State.tree_freq _)]
      exact (scanBody_present s b).mpr hb
    rcases (State.coded_isCodeOf hI hd hu b hf).1 with ⟨e1, e2, e3⟩ | ⟨e1, e2, e3⟩
    · exact .inl ⟨by rw [hsame.single]; exact e1, e2, by rw [hsame.root hd, hsame.node _ hroot]; exact e3⟩
    · exact .inr ⟨by rw [hsame.single]; exact e1, by rw [hsame.root hd]; exact hsame.ends hF _ hroot _ _ e2, e3⟩
  -- the payload
  have hplen : p.length ≤ 255 * 2 ^ 32 := by
    rw [← hp, State.length_payloadOf]
    have := sum_le_mul s.inBytes (fun b => ((s.compressed u).codeAt b).len.toNat)
      fun b => by have := ((s.compressed u).codeAt b).len.isLt; omega
    have := s.inLen.isLt
    omega
  have hkle := (s.compressed u).symCount_le
  have hbits : r1.tree.payloadBitList = p := by
    refine payloadBitList_container _ r r1.tree p hr (fun j => ?_) ?_ ?_ ?_
    · rw [hframe, ← hr1]; rfl
    · rw [hframe, ← hr1]; rfl
    · rw [hframe, ← hr1]
      show (BitVec.ofNat 32 (headerSize (s.compressed u).symCount)).toNat = _
      unfold headerSize
      rw [BitVec.toNat_ofNat, Nat.mod_eq_of_lt (by omega)]
    · rw [hframe, ← hr1]
      show (BitVec.ofNat 64 p.length).toNat = _
      rw [BitVec.toNat_ofNat, Nat.mod_eq_of_lt (by omega)]
  have hcapr : r1.tree.capOut = r.capOut := by rw [hframe, ← hr1]; rfl
  have hwalk : p.foldlM r1.tree.decodeBit ⟨r1.tree.root, 0, []⟩ = .ok ⟨r1.tree.root, 0, s.inBytes⟩ := by
    rw [← hp]
    unfold State.payloadOf
    exact r1.tree.foldlM_decodeBit_codes _ s.inBytes [] hcode (by rw [hcapr, hlen]; simpa using hcap)
  have hhv : r1.tree.hdrValid = true := by rw [hframe, ← hr1]
  refine ⟨r1.tree, ?_, htd, hhv, by rw [State.tree_freq]; exact hr1f, by rw [hframe], by rw [hframe, ← hr1]; rfl⟩
  unfold decompressBody
  rw [hparse]
  show (buildBody r1).andThen decodeBody = _
  rw [buildBody_ok r1 hr1k]
  show decodeBody r1.tree = _
  unfold decodeBody
  rw [hhv, htd, hbits, hwalk]
  have hout : BitVec.ofNat 32 s.inBytes.length = s.inLen := by rw [hlen]; simp
  simp [hout]

end Sys2Proof.Machine
end

