-- ==== Sys2Proof/Laws/Inv.lean ====
section
/-!
SUPPORT. What every command body leaves alone, and that it keeps the invariant; what every step keeps; that no step stops.
-/

namespace Sys2Proof.Machine

/-! ### What a body may change -/

/-- t differs from s only in what command bodies write (20_memory R81, files 40 to 46). -/
def Keeps (s t : State) : Prop := t = { s with
  codesValid := t.codesValid, hdrValid := t.hdrValid, single := t.single, bstate := t.bstate, outLen := t.outLen,
  nodeCount := t.nodeCount, activeCount := t.activeCount, root := t.root, padding := t.padding,
  payloadOff := t.payloadOff, payloadBits := t.payloadBits, freq := t.freq, node := t.node, code := t.code,
  outBuf := t.outBuf }

theorem Keeps.refl (s : State) : Keeps s s := rfl

theorem Keeps.trans {s t u : State} (h1 : Keeps s t) (h2 : Keeps t u) : Keeps s u := by
  unfold Keeps at *
  rw [h2, h1]

/-- The invariant without the flags of the accept and complete transitions: what a body keeps. -/
structure State.BodyInv (s : State) : Prop where
  caps : s.CapsInv
  mem : s.MemInv
  tree : s.TreeInv
  codes : s.CodesInv

/-- P holds of the state a body ends in, whether it raises or not. -/
def Result.All (P : State → Prop) : Result → Prop
  | .ok t => P t
  | .raised _ _ t => P t
  | .stuck _ => True

theorem Result.All.andThen {P Q : State → Prop} {r : Result} {f : State → Result} (hr : r.All P) (hPQ : ∀ t, P t → Q t)
    (hf : ∀ t, P t → (f t).All Q) : (r.andThen f).All Q := by
  cases r with
  | ok t => exact hf t hr
  | raised c i t => exact hPQ t hr
  | stuck e => trivial

/-- What a body does to any state: it changes only its own fields, and keeps the invariant. -/
def BodyStep (s t : State) : Prop := Keeps s t ∧ (s.BodyInv → t.BodyInv)

theorem BodyStep.refl (s : State) : BodyStep s s := ⟨Keeps.refl s, id⟩

theorem BodyStep.trans {s t u : State} (h1 : BodyStep s t) (h2 : BodyStep t u) : BodyStep s u :=
  ⟨h1.1.trans h2.1, fun h => h2.2 (h1.2 h)⟩

/-! ### The parts of the invariant -/

theorem State.CapsInv.congr {s t : State} (h : s.CapsInv) (h1 : t.capIn = s.capIn) (h2 : t.capOut = s.capOut)
    (h3 : t.inLen = s.inLen) (h4 : t.outLen.toNat ≤ s.capOut.toNat) : t.CapsInv :=
  ⟨by rw [h1]; exact h.capIn_pos, by rw [h1]; exact h.capIn_le, by rw [h2]; exact h.capOut_pos,
    by rw [h2]; exact h.capOut_le, by rw [h1, h3]; exact h.inLen_le, by rw [h2]; exact h4⟩

theorem State.MemInv.congr {s t : State} (h : s.MemInv) (h1 : t.capIn = s.capIn) (h2 : t.capOut = s.capOut)
    (hi : t.inBuf = s.inBuf) (hn : Cells.wf t.node ∧ ∀ k ∈ t.node.map Prod.fst, k < 511)
    (hc : Cells.wf t.code ∧ ∀ k ∈ t.code.map Prod.fst, k < 256)
    (ho : Memory.wf t.outBuf ∧ ∀ k ∈ t.outBuf.map Prod.fst, k < s.capOut.toNat) : t.MemInv :=
  ⟨hn.1, hn.2, hc.1, hc.2, by rw [hi]; exact h.in_wf, by rw [hi, h1]; exact h.in_lt, ho.1, by rw [h2]; exact ho.2⟩

theorem State.TreeInv.idle_of {t : State} (hb : t.bstate = .idle) (hs : t.single = false) : t.TreeInv :=
  ⟨fun _ => hs, fun h => absurd hb h, fun h => absurd hb h, fun h => (BState.noConfusion (hb.symm.trans h)),
    fun h => (BState.noConfusion (hb.symm.trans h))⟩

theorem State.TreeInv.congr {s t : State} (h : s.TreeInv) (hf : t.freq = s.freq) (hn : t.node = s.node) (he : t.era = s.era)
    (hc : t.nodeCount = s.nodeCount) (ha : t.activeCount = s.activeCount) (hb : t.bstate = s.bstate)
    (hs : t.single = s.single) (hr : t.root = s.root) : t.TreeInv := by
  refine ⟨?_, ?_, ?_, ?_, ?_⟩
  · rw [hb, hs]; exact h.idle
  · rw [hb]; exact fun hne => (h.forest hne).congr hf hn he hc ha
  · rw [hb, hs, State.symCount_congr hf]; exact h.single
  · rw [hb, ha]; exact h.merge
  · rw [hb, ha, hr, hc]; exact h.done

theorem walk_congr {s t : State} (h : ∀ i, t.nodeAt i = s.nodeAt i) (levels : Nat) (i : NodeIdx) (p : List Bool)
    (m : Cells Code) : walk t levels i p m = walk s levels i p m := by
  induction levels generalizing i p m with
  | zero => rfl
  | succ n ih => unfold walk; simp only [h, ih]

theorem State.codeTable_congr {s t : State} (hn : t.node = s.node) (he : t.era = s.era) (hs : t.single = s.single)
    (hr : t.root = s.root) : t.codeTable = s.codeTable := by
  unfold State.codeTable
  simp only [hs, hr, State.nodeAt_congr hn he, walk_congr (State.nodeAt_congr hn he)]

theorem State.CodesInv.of_false {t : State} (h : t.codesValid = false) : t.CodesInv := by
  unfold State.CodesInv; rw [h]; intro e; cases e

theorem State.CodesInv.congr {s t : State} (h : s.CodesInv) (hn : t.node = s.node) (he : t.era = s.era)
    (hs : t.single = s.single) (hr : t.root = s.root) (hb : t.bstate = s.bstate) (hc : t.codesValid = s.codesValid)
    (ht : t.code = s.code) : t.CodesInv := by
  unfold State.CodesInv at *
  rw [hb, hc, ht, State.codeTable_congr hn he hs hr]
  exact h

/-! ### The node memory -/

/-- The node memory is in canonical form and slot 511 is not written. -/
def State.NodeOk (s : State) : Prop := Cells.wf s.node ∧ ∀ k ∈ s.node.map Prod.fst, k < 511

theorem State.NodeOk.setNode {s : State} (h : s.NodeOk) (i : NodeIdx) (v : NodeSlot) : (s.setNode i v).NodeOk := by
  unfold State.NodeOk State.setNode
  by_cases hi : i = 511
  · simp only [hi, if_true]; exact h
  · simp only [hi, if_false]
    refine ⟨Cells.set_wf _ _ _ h.1, fun k hk => ?_⟩
    rcases (Cells.mem_keys_set _ _ _ _).mp hk with rfl | hk
    · have := i.isLt
      have : i.toNat ≠ 511 := fun e => hi (BitVec.eq_of_toNat_eq e)
      omega
    · exact h.2 k hk

theorem State.NodeOk.of_node {s t : State} (h : s.NodeOk) (hn : t.node = s.node) : t.NodeOk := by
  unfold State.NodeOk; rw [hn]; exact h

theorem loadLeaves_nodeOk (bs : List Byte) (i : Nat) (s : State) (h : s.NodeOk) : (loadLeaves bs i s).NodeOk := by
  induction bs generalizing i s with
  | nil => exact h
  | cons b bs ih => unfold loadLeaves; exact ih _ _ (h.setNode _ _)

theorem mergeStep_nodeOk (s : State) (h : s.NodeOk) : (mergeStep s).NodeOk := by
  refine State.NodeOk.of_node (s := ((s.deactivate s.selection.1).deactivate s.selection.2).setNode s.nodeCount
    (s.parentOf s.selection.1 s.selection.2)) ?_ (by simp only [mergeStep, State.mergedNodes])
  unfold State.deactivate
  exact ((h.setNode _ _).setNode _ _).setNode _ _

theorem mergeSteps_nodeOk (n : Nat) (s : State) (h : s.NodeOk) : (mergeSteps n s).NodeOk := by
  induction n generalizing s with
  | zero => exact h
  | succ n ih =>
    rw [mergeSteps_succ]
    split
    · exact ih _ (mergeStep_nodeOk s h)
    · exact h

theorem State.built_nodeOk (s : State) (h : s.NodeOk) : s.built.NodeOk :=
  (loadLeaves_nodeOk s.presentSymbols 0 s h).of_node rfl

theorem State.tree_nodeOk (s : State) (h : s.NodeOk) : s.tree.NodeOk := mergeSteps_nodeOk _ _ (s.built_nodeOk h)

/-! ### The code tables -/

/-- A code table in canonical form, inside the 256 symbols. -/
def codesOk (m : Cells Code) : Prop := Cells.wf m ∧ ∀ k ∈ m.map Prod.fst, k < 256

theorem codesOk_set {m : Cells Code} (h : codesOk m) (b : Byte) (c : Code) : codesOk (Cells.set m b.toNat c) := by
  refine ⟨Cells.set_wf _ _ _ h.1, fun k hk => ?_⟩
  rcases (Cells.mem_keys_set _ _ _ _).mp hk with rfl | hk
  · exact b.isLt
  · exact h.2 k hk

theorem codesOk_empty : codesOk emptyCodes := by
  refine ⟨Cells.ofList_wf _ _, fun k hk => ?_⟩
  have := (Cells.mem_keys_ofList _ _ _).mp hk
  rw [List.length_replicate] at this
  omega

theorem codesOk_walk (s : State) (levels : Nat) (i : NodeIdx) (p : List Bool) (m u : Cells Code)
    (h : walk s levels i p m = some u) (hm : codesOk m) : codesOk u := by
  induction levels generalizing i p m u with
  | zero => simp [walk] at h
  | succ n ih =>
    unfold walk at h
    split at h
    · obtain rfl := Option.some.inj h
      exact codesOk_set hm _ _
    · split at h
      · cases h
      · rename_i v hv
        exact ih _ _ _ _ h (ih _ _ _ _ hv hm)

theorem State.codeTable_ok {s : State} {u : Cells Code} (h : s.codeTable = some u) : codesOk u := by
  unfold State.codeTable at h
  split at h
  · obtain rfl := Option.some.inj h
    exact codesOk_set codesOk_empty _ _
  · exact codesOk_walk _ _ _ _ _ _ h codesOk_empty

/-! ### The bodies -/

theorem clearBody_step (s : State) : BodyStep s (clearBody s) := by
  refine ⟨rfl, fun h => ⟨h.caps.congr rfl rfl rfl (Nat.zero_le _), ?_, ?_, ?_⟩⟩
  · exact h.mem.congr rfl rfl rfl ⟨h.mem.node_wf, h.mem.node_lt⟩ ⟨h.mem.code_wf, h.mem.code_lt⟩ ⟨h.mem.out_wf, h.mem.out_lt⟩
  · exact State.TreeInv.idle_of rfl rfl
  · exact State.CodesInv.of_false rfl

theorem scanBody_step (s : State) : BodyStep s (scanBody s) := by
  refine ⟨rfl, fun h => ⟨h.caps.congr rfl rfl rfl h.caps.outLen_le, ?_, ?_, ?_⟩⟩
  · exact h.mem.congr rfl rfl rfl ⟨h.mem.node_wf, h.mem.node_lt⟩ ⟨h.mem.code_wf, h.mem.code_lt⟩ ⟨h.mem.out_wf, h.mem.out_lt⟩
  · exact State.TreeInv.idle_of rfl rfl
  · exact State.CodesInv.of_false rfl

theorem State.built_step (s : State) (hk : s.symCount ≠ 0) : BodyStep s s.built := by
  have hf := s.built_frame
  refine ⟨by rw [hf]; rfl, fun h => ⟨?_, ?_, s.built_treeInv hk, State.CodesInv.of_false (by rw [hf])⟩⟩
  · exact h.caps.congr (by rw [hf]) (by rw [hf]) (by rw [hf]) (by rw [hf]; exact h.caps.outLen_le)
  · exact h.mem.congr (by rw [hf]) (by rw [hf]) (by rw [hf]) (s.built_nodeOk ⟨h.mem.node_wf, h.mem.node_lt⟩)
      (by rw [hf]; exact ⟨h.mem.code_wf, h.mem.code_lt⟩) (by rw [hf]; exact ⟨h.mem.out_wf, h.mem.out_lt⟩)

theorem noTree_step (s : State) : BodyStep s { s with codesValid := false, bstate := .idle, single := false } := by
  refine ⟨rfl, fun h => ⟨h.caps.congr rfl rfl rfl h.caps.outLen_le, ?_, ?_, ?_⟩⟩
  · exact h.mem.congr rfl rfl rfl ⟨h.mem.node_wf, h.mem.node_lt⟩ ⟨h.mem.code_wf, h.mem.code_lt⟩ ⟨h.mem.out_wf, h.mem.out_lt⟩
  · exact State.TreeInv.idle_of rfl rfl
  · exact State.CodesInv.of_false rfl

theorem buildInitBody_step (s : State) : (buildInitBody s).All (BodyStep s) := by
  by_cases hk : s.symCount = 0
  · rw [buildInitBody_empty s hk]; exact noTree_step s
  · rw [buildInitBody_ok s hk]; exact s.built_step hk

theorem mergeSteps_step (n : Nat) (s : State) (hc : s.bstate = .merge ∨ s.codesValid = false) :
    BodyStep s (mergeSteps n s) := by
  have hf := mergeSteps_frame n s
  refine ⟨by rw [hf]; rfl, fun h => ⟨?_, ?_, mergeSteps_treeInv n s h.tree, State.CodesInv.of_false ?_⟩⟩
  · exact h.caps.congr (by rw [hf]) (by rw [hf]) (by rw [hf]) (by rw [hf]; exact h.caps.outLen_le)
  · exact h.mem.congr (by rw [hf]) (by rw [hf]) (by rw [hf]) (mergeSteps_nodeOk n s ⟨h.mem.node_wf, h.mem.node_lt⟩)
      (by rw [hf]; exact ⟨h.mem.code_wf, h.mem.code_lt⟩) (by rw [hf]; exact ⟨h.mem.out_wf, h.mem.out_lt⟩)
  · rw [hf]
    show s.codesValid = false
    rcases hc with hm | hc
    · cases hv : s.codesValid with
      | false => rfl
      | true => have := (h.codes hv).1; rw [hm] at this; cases this
    · exact hc

theorem buildStepBody_step (n : Nat) (s : State) : (buildStepBody n s).All (BodyStep s) := by
  unfold buildStepBody
  split
  · exact mergeSteps_step n s (.inl ‹_›)
  · exact BodyStep.refl s

theorem State.tree_step (s : State) (hk : s.symCount ≠ 0) : BodyStep s s.tree :=
  (s.built_step hk).trans (mergeSteps_step _ _ (.inr (by rw [s.built_frame])))

theorem buildBody_step (s : State) : (buildBody s).All (BodyStep s) := by
  by_cases hk : s.symCount = 0
  · rw [buildBody_empty s hk]; exact noTree_step s
  · rw [buildBody_ok s hk]; exact s.tree_step hk

theorem State.coded_codeTable (s : State) (u : Cells Code) : (s.coded u).codeTable = s.codeTable :=
  State.codeTable_congr rfl rfl rfl rfl

theorem State.coded_step {s : State} (hd : s.bstate = .done) {u : Cells Code} (hu : s.codeTable = some u) :
    BodyStep s (s.coded u) := by
  refine ⟨rfl, fun h => ⟨h.caps.congr rfl rfl rfl h.caps.outLen_le, ?_, ?_, ?_⟩⟩
  · exact h.mem.congr rfl rfl rfl ⟨h.mem.node_wf, h.mem.node_lt⟩ (State.codeTable_ok hu) ⟨h.mem.out_wf, h.mem.out_lt⟩
  · exact h.tree.congr rfl rfl rfl rfl rfl rfl rfl rfl
  · intro _
    rw [State.coded_codeTable]
    exact ⟨hd, hu⟩

theorem assignBody_step (s : State) : (assignBody s).All (BodyStep s) := by
  unfold assignBody
  by_cases hd : s.bstate = .done
  · rw [if_pos hd]
    cases hu : s.codeTable with
    | none => trivial
    | some u => exact State.coded_step hd hu
  · rw [if_neg hd]; exact BodyStep.refl s

theorem packBody_step (s : State) : (packBody s).All (BodyStep s) := by
  unfold packBody
  split
  · exact BodyStep.refl s
  · split
    · exact BodyStep.refl s
    · dsimp only
      split
      · exact BodyStep.refl s
      · rename_i hle
        have hlen := s.length_container (s.payloadOf s.inBytes)
        generalize hT : containerSize s.symCount (s.payloadOf s.inBytes).length = total at *
        refine ⟨rfl, fun h => ⟨h.caps.congr rfl rfl rfl ?_, ?_, ?_, ?_⟩⟩
        · have h1 := h.caps.capOut_le
          show (BitVec.ofNat 32 total).toNat ≤ _
          rw [BitVec.toNat_ofNat, Nat.mod_eq_of_lt (by omega)]
          omega
        · refine h.mem.congr rfl rfl rfl ⟨h.mem.node_wf, h.mem.node_lt⟩ ⟨h.mem.code_wf, h.mem.code_lt⟩
            ⟨Cells.ofList_wf _ _, fun k hk => ?_⟩
          have := (Cells.mem_keys_ofList _ _ _).mp hk
          omega
        · exact h.tree.congr rfl rfl rfl rfl rfl rfl rfl rfl
        · exact h.codes.congr rfl rfl rfl rfl rfl rfl rfl

theorem parseBody_step (s : State) : (parseBody s).All (BodyStep s) := by
  unfold parseBody
  split
  · refine ⟨rfl, fun h => ⟨h.caps.congr rfl rfl rfl h.caps.outLen_le, ?_, ?_, ?_⟩⟩
    · exact h.mem.congr rfl rfl rfl ⟨h.mem.node_wf, h.mem.node_lt⟩ ⟨h.mem.code_wf, h.mem.code_lt⟩
        ⟨h.mem.out_wf, h.mem.out_lt⟩
    · exact h.tree.congr rfl rfl rfl rfl rfl rfl rfl rfl
    · exact h.codes.congr rfl rfl rfl rfl rfl rfl rfl
  · refine ⟨rfl, fun h => ⟨h.caps.congr rfl rfl rfl h.caps.outLen_le, ?_, ?_, ?_⟩⟩
    · exact h.mem.congr rfl rfl rfl ⟨h.mem.node_wf, h.mem.node_lt⟩ ⟨h.mem.code_wf, h.mem.code_lt⟩
        ⟨h.mem.out_wf, h.mem.out_lt⟩
    · exact State.TreeInv.idle_of rfl rfl
    · exact State.CodesInv.of_false rfl

/-- The decode walk emits at most OUT_CAP symbols (45_container_decode R274). -/
theorem State.foldlM_decodeBit_length (s : State) (bits : List Bool) (c d : Cursor) (hc : c.out.length ≤ s.capOut.toNat)
    (h : bits.foldlM s.decodeBit c = .ok d) : d.out.length ≤ s.capOut.toNat := by
  have hemit : ∀ (c d : Cursor) (b : Byte), c.out.length ≤ s.capOut.toNat → s.emit c b = .ok d →
      d.out.length ≤ s.capOut.toNat := by
    intro c d b hc h
    unfold State.emit at h
    split at h
    · cases h
    · obtain rfl := Except.ok.inj h
      rw [List.length_append, List.length_singleton]
      omega
  induction bits generalizing c with
  | nil => obtain rfl := Except.ok.inj h; exact hc
  | cons bit bits ih =>
    rw [List.foldlM_cons] at h
    cases hb : s.decodeBit c bit with
    | error e => rw [hb] at h; cases h
    | ok e =>
      rw [hb] at h
      refine ih e ?_ h
      unfold State.decodeBit at hb
      split at hb
      · exact hemit _ _ _ hc hb
      · dsimp only at hb
        split at hb
        · exact hemit _ _ _ hc hb
        · obtain rfl := Except.ok.inj hb
          exact hc

theorem decodeBody_step (s : State) : (decodeBody s).All (BodyStep s) := by
  unfold decodeBody
  split
  · exact BodyStep.refl s
  · split
    · exact BodyStep.refl s
    · split
      · exact BodyStep.refl s
      · rename_i c hc
        split
        · exact BodyStep.refl s
        · have hlen := s.foldlM_decodeBit_length _ _ c (by simp) hc
          refine ⟨rfl, fun h => ⟨h.caps.congr rfl rfl rfl ?_, ?_, ?_, ?_⟩⟩
          · have h1 := h.caps.capOut_le
            show (BitVec.ofNat 32 c.out.length).toNat ≤ _
            rw [BitVec.toNat_ofNat, Nat.mod_eq_of_lt (by omega)]
            exact hlen
          · refine h.mem.congr rfl rfl rfl ⟨h.mem.node_wf, h.mem.node_lt⟩ ⟨h.mem.code_wf, h.mem.code_lt⟩
              ⟨Cells.ofList_wf _ _, fun k hk => ?_⟩
            have := (Cells.mem_keys_ofList _ _ _).mp hk
            omega
          · exact h.tree.congr rfl rfl rfl rfl rfl rfl rfl rfl
          · exact h.codes.congr rfl rfl rfl rfl rfl rfl rfl

theorem All_andThen_step {s : State} {r : Result} {f : State → Result} (hr : r.All (BodyStep s))
    (hf : ∀ t, (f t).All (BodyStep t)) : (r.andThen f).All (BodyStep s) := by
  refine Result.All.andThen hr (fun _ h => h) fun t ht => ?_
  have := hf t
  revert this
  cases f t with
  | ok u => exact fun h => ht.trans h
  | raised c i u => exact fun h => ht.trans h
  | stuck e => exact fun _ => trivial

theorem compressBody_step (s : State) : (compressBody s).All (BodyStep s) := by
  unfold compressBody
  refine All_andThen_step (All_andThen_step ?_ assignBody_step) packBody_step
  have h := buildBody_step (scanBody s)
  revert h
  cases buildBody (scanBody s) with
  | ok u => exact fun h => (scanBody_step s).trans h
  | raised c i u => exact fun h => (scanBody_step s).trans h
  | stuck e => exact fun _ => trivial

theorem decompressBody_step (s : State) : (decompressBody s).All (BodyStep s) :=
  All_andThen_step (All_andThen_step (parseBody_step s) buildBody_step) decodeBody_step

/-! ### The commands -/

/-- The body of a command (40_control R141). -/
def Instr.body : Instr → State → Result
  | .nop, s => .ok s
  | .clear, s => .ok (clearBody s)
  | .scan, s => .ok (scanBody s)
  | .build, s => buildBody s
  | .buildInit, s => buildInitBody s
  | .buildStep n, s => buildStepBody n s
  | .assign, s => assignBody s
  | .pack, s => packBody s
  | .parse, s => parseBody s
  | .decode, s => decodeBody s
  | .compress, s => compressBody s
  | .decompress, s => decompressBody s

/-- The commands that leave OUT_BUF unspecified when they fail (60_exceptions R313). -/
def Instr.spoils : Instr → Bool
  | .pack | .decode | .compress | .decompress => true
  | _ => false

theorem exec_eq (i : Instr) (s : State) : exec i s = (Instr.body i s).finish (Instr.spoils i) := by
  cases i <;> rfl

theorem body_step (i : Instr) (s : State) : (Instr.body i s).All (BodyStep s) := by
  cases i with
  | nop => exact BodyStep.refl s
  | clear => exact clearBody_step s
  | scan => exact scanBody_step s
  | build => exact buildBody_step s
  | buildInit => exact buildInitBody_step s
  | buildStep n => exact buildStepBody_step n s
  | assign => exact assignBody_step s
  | pack => exact packBody_step s
  | parse => exact parseBody_step s
  | decode => exact decodeBody_step s
  | compress => exact compressBody_step s
  | decompress => exact decompressBody_step s

/-- The two ways a command answers a next state (40_control R141, 60_exceptions R313). -/
theorem exec_next {i : Instr} {s t : State} (h : exec i s = .next t) :
    (∃ u, Instr.body i s = .ok u ∧ BodyStep s u ∧ t = u.completed) ∨
      ∃ c info u, Instr.body i s = .raised c info u ∧ BodyStep s u ∧ t = u.takeError (Instr.spoils i) c info := by
  rw [exec_eq] at h
  have hb := body_step i s
  cases hr : Instr.body i s with
  | ok u => rw [hr] at h hb; exact .inl ⟨u, rfl, hb, (Host.Outcome.next.inj h).symm⟩
  | raised c info u => rw [hr] at h hb; exact .inr ⟨c, info, u, rfl, hb, (Host.Outcome.next.inj h).symm⟩
  | stuck e => rw [hr] at h; cases h

/-! ### The transitions -/

theorem Cause.code_ne_zero (c : Cause) : c.code ≠ 0 ∧ c.code.toNat ≤ 6 := by cases c <;> decide

theorem completed_inv {s u : State} (hs : s.Inv) (hbusy : s.busy = true) (h : BodyStep s u) : u.completed.Inv := by
  obtain ⟨hk, hb⟩ := h
  have hB := hb ⟨hs.caps, hs.mem, hs.tree, hs.codes⟩
  obtain ⟨-, he⟩ := hs.flags.busy_done hbusy
  have h0 : s.errCode = 0 := by
    by_contra hne
    rw [hs.flags.err_code.mpr hne] at he
    cases he
  have hn := hs.flags.no_err he
  unfold Keeps at hk
  have e1 : u.err = false := by rw [hk]; exact he
  have e2 : u.errCode = 0 := by rw [hk]; exact h0
  have e3 : u.errSub = 0 ∧ u.errOp = 0 ∧ u.errInfo = 0 := by rw [hk]; exact hn
  refine ⟨hB.caps.congr rfl rfl rfl hB.caps.outLen_le, ?_, ?_, hB.tree.congr rfl rfl rfl rfl rfl rfl rfl rfl,
    hB.codes.congr rfl rfl rfl rfl rfl rfl rfl⟩
  · exact hB.mem.congr rfl rfl rfl ⟨hB.mem.node_wf, hB.mem.node_lt⟩ ⟨hB.mem.code_wf, hB.mem.code_lt⟩
      ⟨hB.mem.out_wf, hB.mem.out_lt⟩
  · refine ⟨fun h => ?_, rfl, ?_, fun _ => e3, ?_, fun h => ?_⟩
    · cases h
    · rw [State.completed_err, State.completed_errCode, e1, e2]; simp
    · rw [State.completed_errCode, e2]; decide
    · rw [State.completed_err, e1] at h; cases h

theorem takeError_inv {u : State} (hB : u.BodyInv) (spoils : Bool) (c : Cause) (info : Word) :
    (u.takeError spoils c info).Inv := by
  refine ⟨hB.caps.congr rfl rfl rfl (Nat.zero_le _), ?_, ?_, hB.tree.congr rfl rfl rfl rfl rfl rfl rfl rfl,
    hB.codes.congr rfl rfl rfl rfl rfl rfl rfl⟩
  · refine hB.mem.congr rfl rfl rfl ⟨hB.mem.node_wf, hB.mem.node_lt⟩ ⟨hB.mem.code_wf, hB.mem.code_lt⟩ ?_
    rw [State.takeError_outBuf]
    cases spoils
    · exact ⟨hB.mem.out_wf, hB.mem.out_lt⟩
    · exact ⟨List.Pairwise.nil, fun k hk => by cases hk⟩
  · refine ⟨fun h => ?_, rfl, ?_, fun h => ?_, ?_, fun _ => rfl⟩
    · cases h
    · rw [State.takeError_err, State.takeError_errCode]
      exact ⟨fun _ => (Cause.code_ne_zero c).1, fun _ => rfl⟩
    · cases h
    · rw [State.takeError_errCode]; exact (Cause.code_ne_zero c).2

/-- Every command keeps the invariant. -/
theorem exec_inv {i : Instr} {s t : State} (hs : s.Inv) (hbusy : s.busy = true) (h : exec i s = .next t) : t.Inv := by
  rcases exec_next h with ⟨u, -, hu, rfl⟩ | ⟨c, info, u, -, hu, rfl⟩
  · exact completed_inv hs hbusy hu
  · exact takeError_inv (hu.2 ⟨hs.caps, hs.mem, hs.tree, hs.codes⟩) _ _ _

/-- A command stops only where ASSIGN's walk does not end (43_codec_table R213), which the invariant excludes. -/
theorem body_not_stuck {i : Instr} {s : State} (hs : s.Inv) (f : Fault) : Instr.body i s ≠ .stuck f := by
  intro h
  have hnoPack : ∀ u : State, packBody u ≠ .stuck f := by
    intro u e
    unfold packBody at e
    split at e
    · cases e
    · split at e
      · cases e
      · dsimp only at e; split at e <;> cases e
  have hnoDecode : ∀ u : State, decodeBody u ≠ .stuck f := by
    intro u e
    unfold decodeBody at e
    split at e
    · cases e
    · split at e
      · cases e
      · split at e
        · cases e
        · split at e <;> cases e
  have hnoParse : ∀ u : State, parseBody u ≠ .stuck f := by
    intro u e
    unfold parseBody at e
    split at e <;> cases e
  have hnoBuild : ∀ u : State, buildBody u ≠ .stuck f := by
    intro u e
    by_cases hk : u.symCount = 0
    · rw [buildBody_empty u hk] at e; cases e
    · rw [buildBody_ok u hk] at e; cases e
  have hnoAssign : ∀ u : State, u.TreeInv → assignBody u ≠ .stuck f := by
    intro u hu e
    unfold assignBody at e
    split at e
    · rename_i hd
      obtain ⟨v, hv⟩ := hu.codeTable_some hd
      rw [hv] at e
      cases e
    · cases e
  cases i with
  | nop => cases h
  | clear => cases h
  | scan => cases h
  | build => exact hnoBuild s h
  | buildInit =>
    change buildInitBody s = _ at h
    by_cases hk : s.symCount = 0
    · rw [buildInitBody_empty s hk] at h; cases h
    · rw [buildInitBody_ok s hk] at h; cases h
  | buildStep n => change buildStepBody n s = _ at h; unfold buildStepBody at h; split at h <;> cases h
  | assign => exact hnoAssign s hs.tree h
  | pack => exact hnoPack s h
  | parse => exact hnoParse s h
  | decode => exact hnoDecode s h
  | compress =>
    change compressBody s = _ at h
    by_cases h0 : s.inLen = 0
    · rw [compressBody_empty s h0] at h; cases h
    · obtain ⟨u, -, hu⟩ := compressBody_eq s h0
      rw [hu] at h
      exact hnoPack _ h
  | decompress =>
    change decompressBody s = _ at h
    unfold decompressBody at h
    cases hp : parseBody s with
    | stuck e => rw [hp] at h; exact hnoParse s (hp.trans h)
    | raised c info u => rw [hp] at h; cases h
    | ok u =>
      rw [hp] at h
      change (buildBody u).andThen decodeBody = _ at h
      cases hb : buildBody u with
      | stuck e => rw [hb] at h; exact hnoBuild u (hb.trans h)
      | raised c info v => rw [hb] at h; cases h
      | ok v => rw [hb] at h; exact hnoDecode v h

end Sys2Proof.Machine
end

