-- ==== Sys2Proof/Laws/Step.lean ====
section
/-!
SUPPORT. What the parts of a step do: each kind of turn keeps the invariant and takes itself off the list, and the controller's
turn does not stop under the invariant.
-/

namespace Sys2Proof.Machine

/-! ### The host's side keeps the invariant -/

/-- A change of the fields that no clause of the invariant names, or that clears DONE. -/
theorem State.Inv.congr {s t : State} (h : s.Inv) (d : Bool) (hd : d = true → s.done = true)
    (ht : t = { s with done := d, hostViol := t.hostViol, strict := t.strict, irqEn := t.irqEn, rdata := t.rdata,
                       turns := t.turns, draw := t.draw }) : t.Inv := by
  rw [ht]
  refine ⟨h.caps.congr rfl rfl rfl h.caps.outLen_le, ?_, ?_, h.tree.congr rfl rfl rfl rfl rfl rfl rfl rfl,
    h.codes.congr rfl rfl rfl rfl rfl rfl rfl⟩
  · exact h.mem.congr rfl rfl rfl ⟨h.mem.node_wf, h.mem.node_lt⟩ ⟨h.mem.code_wf, h.mem.code_lt⟩ ⟨h.mem.out_wf, h.mem.out_lt⟩
  · refine ⟨fun hb => ⟨?_, (h.flags.busy_done hb).2⟩, h.flags.phase_zero, h.flags.err_code, h.flags.no_err,
      h.flags.code_le, h.flags.err_out⟩
    have := (h.flags.busy_done hb).1
    show d = false
    cases d with
    | false => rfl
    | true => rw [hd rfl] at this; cases this

theorem violate_inv {s : State} (h : s.Inv) : s.violate.Inv := h.congr s.done id rfl

theorem popTurn_inv {s : State} (h : s.Inv) : s.popTurn.Inv := h.congr s.done id rfl

theorem hostRead_inv {s : State} (h : s.Inv) (size : Size) (addr : Word) : (s.hostRead size addr).Inv := by
  unfold State.hostRead
  split
  · exact h.congr s.done id rfl
  · split
    · exact h.congr s.done id rfl
    · exact h.congr s.done id rfl

theorem accept_inv {s : State} (h : s.Inv) (w : Word) : (s.accept w).Inv := by
  refine ⟨h.caps.congr rfl rfl rfl h.caps.outLen_le, ?_, ?_, h.tree.congr rfl rfl rfl rfl rfl rfl rfl rfl,
    h.codes.congr rfl rfl rfl rfl rfl rfl rfl⟩
  · exact h.mem.congr rfl rfl rfl ⟨h.mem.node_wf, h.mem.node_lt⟩ ⟨h.mem.code_wf, h.mem.code_lt⟩ ⟨h.mem.out_wf, h.mem.out_lt⟩
  · refine ⟨fun _ => ⟨rfl, rfl⟩, h.flags.phase_zero, by simp, fun _ => ⟨rfl, rfl, rfl⟩, ?_, fun e => ?_⟩
    · rw [State.accept_errCode]; decide
    · cases e

theorem writeInLen_inv {s : State} (h : s.Inv) (data : Word) : (s.writeInLen data).Inv := by
  unfold State.writeInLen
  split
  · rename_i hle
    refine ⟨⟨h.caps.capIn_pos, h.caps.capIn_le, h.caps.capOut_pos, h.caps.capOut_le, hle, h.caps.outLen_le⟩, ?_, ?_,
      h.tree.congr rfl rfl rfl rfl rfl rfl rfl rfl, h.codes.congr rfl rfl rfl rfl rfl rfl rfl⟩
    · exact h.mem.congr rfl rfl rfl ⟨h.mem.node_wf, h.mem.node_lt⟩ ⟨h.mem.code_wf, h.mem.code_lt⟩
        ⟨h.mem.out_wf, h.mem.out_lt⟩
    · exact ⟨h.flags.busy_done, h.flags.phase_zero, h.flags.err_code, h.flags.no_err, h.flags.code_le, h.flags.err_out⟩
  · exact violate_inv h

theorem writeFreq_inv {s : State} (h : s.Inv) (b : Byte) (data : Word) : (s.writeFreq b data).Inv := by
  refine ⟨h.caps.congr rfl rfl rfl h.caps.outLen_le, ?_, ?_, State.TreeInv.idle_of rfl rfl, State.CodesInv.of_false rfl⟩
  · exact h.mem.congr rfl rfl rfl ⟨h.mem.node_wf, h.mem.node_lt⟩ ⟨h.mem.code_wf, h.mem.code_lt⟩ ⟨h.mem.out_wf, h.mem.out_lt⟩
  · exact ⟨h.flags.busy_done, h.flags.phase_zero, h.flags.err_code, h.flags.no_err, h.flags.code_le, h.flags.err_out⟩

theorem writeInBuf_inv {s : State} (h : s.Inv) (j : Nat) (hj : j < s.capIn.toNat) (data : Byte) :
    (s.writeInBuf j data).Inv := by
  refine ⟨h.caps.congr rfl rfl rfl h.caps.outLen_le, ?_, ?_, h.tree.congr rfl rfl rfl rfl rfl rfl rfl rfl,
    h.codes.congr rfl rfl rfl rfl rfl rfl rfl⟩
  · refine ⟨h.mem.node_wf, h.mem.node_lt, h.mem.code_wf, h.mem.code_lt, Cells.set_wf _ _ _ h.mem.in_wf, fun k hk => ?_,
      h.mem.out_wf, h.mem.out_lt⟩
    rcases (Cells.mem_keys_set _ _ _ _).mp hk with rfl | hk
    · exact hj
    · exact h.mem.in_lt k hk
  · exact ⟨h.flags.busy_done, h.flags.phase_zero, h.flags.err_code, h.flags.no_err, h.flags.code_le, h.flags.err_out⟩

theorem csrPlace_ne_inBuf (o j : Nat) : csrPlace o ≠ .inBuf j := by
  unfold csrPlace
  split <;> simp

/-- A byte of the IN_BUF window is a byte of IN_BUF (20_memory R80). -/
theorem State.place_inBuf {s : State} {size : Size} {addr : Word} {j : Nat} (h : s.place size addr = some (.inBuf j)) :
    size = .byte ∧ addr.toNat = inBase + j ∧ j < s.capIn.toNat := by
  unfold State.place at h
  dsimp only at h
  by_cases h1 : addr.toNat < 0x6000
  · exfalso
    rw [if_pos h1] at h
    repeat' split at h
    all_goals first
      | exact csrPlace_ne_inBuf _ _ (Option.some.inj h)
      | cases h
  · rw [if_neg h1] at h
    split at h
    · split at h
      · rename_i hw hs
        have := Place.inBuf.inj (Option.some.inj h)
        exact ⟨hs, by omega, by omega⟩
      · cases h
    · split at h
      · split at h <;> cases h
      · cases h

theorem hostWrite_inv {s : State} (h : s.Inv) (size : Size) (addr data : Word) : (s.hostWrite size addr data).Inv := by
  unfold State.hostWrite
  split
  · exact violate_inv h
  · split
    · exact violate_inv h
    · rename_i p hp
      cases p with
      | csr r =>
        cases r
        case cmd => exact accept_inv h data
        case status =>
          refine h.congr (s.done && !data.getLsbD 1) (fun e => ?_) rfl
          rw [Bool.and_eq_true] at e
          exact e.1
        case config => exact h.congr s.done id rfl
        case inLen => exact writeInLen_inv h data
        all_goals exact violate_inv h
      | reserved => exact h
      | freq b => exact writeFreq_inv h b data
      | codeLen b => exact violate_inv h
      | node i w => exact violate_inv h
      | codeBits b w => exact violate_inv h
      | inBuf j => exact writeInBuf_inv h j (State.place_inBuf hp).2.2 _
      | outBuf j => exact violate_inv h

/-! ### Reset -/

/-- The state after a reset, whatever the model's own fields are. -/
theorem reset_like_inv (cin cout : Word) (h1 : 1 ≤ cin.toNat) (h2 : cin.toNat ≤ 2 ^ 28) (h3 : 1 ≤ cout.toNat)
    (h4 : cout.toNat ≤ 2 ^ 28) (turns : List Turn) (draw era : Nat) :
    State.Inv { State.resetOf cin cout with turns := turns, draw := draw, era := era } := by
  refine ⟨⟨h1, h2, h3, h4, Nat.zero_le _, Nat.zero_le _⟩, ?_, ?_, State.TreeInv.idle_of rfl rfl, State.CodesInv.of_false rfl⟩
  · constructor <;> first | exact List.Pairwise.nil | (intro k hk; cases hk)
  · refine ⟨fun e => Bool.noConfusion e, rfl, ?_, fun _ => ⟨rfl, rfl, rfl⟩, Nat.zero_le _, fun e => Bool.noConfusion e⟩
    exact ⟨fun e => Bool.noConfusion e, fun e => absurd rfl e⟩

theorem rst_inv {s : State} (h : s.Inv) : s.rst.Inv :=
  reset_like_inv s.capIn s.capOut h.caps.capIn_pos h.caps.capIn_le h.caps.capOut_pos h.caps.capOut_le _ _ _

/-! ### The controller -/

theorem execIllegal_eq (e : Illegal) (s : State) : execIllegal e s = .next (s.takeError false (Illegal.cause e) 0) := rfl

theorem complete_inv {s t : State} (hs : s.Inv) (hb : s.busy = true) (h : s.complete = .next t) : t.Inv := by
  unfold State.complete at h
  split at h
  · exact exec_inv hs hb h
  · rw [execIllegal_eq] at h
    obtain rfl := Host.Outcome.next.inj h
    exact takeError_inv ⟨hs.caps, hs.mem, hs.tree, hs.codes⟩ _ _ _

/-- Under the invariant a command completes: it neither faults nor is refused. -/
theorem exec_completes {s : State} (hs : s.Inv) (i : Instr) : ∃ t, exec i s = .next t := by
  rw [exec_eq]
  cases h : Instr.body i s with
  | ok u => exact ⟨_, rfl⟩
  | raised c info u => exact ⟨_, rfl⟩
  | stuck f => exact absurd h (body_not_stuck hs f)

theorem complete_completes {s : State} (hs : s.Inv) : ∃ t, s.complete = .next t := by
  unfold State.complete
  split
  · exact exec_completes hs _
  · exact ⟨_, rfl⟩

/-- What a complete transition leaves (40_control R141). -/
theorem exec_flags {i : Instr} {s t : State} (h : exec i s = .next t) :
    t.busy = false ∧ t.done = true ∧ t.phase = 0 ∧ t.turns = s.turns ∧ t.cmd = s.cmd := by
  have keep : ∀ u, BodyStep s u → u.turns = s.turns ∧ u.cmd = s.cmd := by
    intro u hu
    have hk := hu.1
    unfold Keeps at hk
    rw [hk]
    exact ⟨rfl, rfl⟩
  rcases exec_next h with ⟨u, -, hu, rfl⟩ | ⟨c, info, u, -, hu, rfl⟩ <;> exact ⟨rfl, rfl, rfl, keep u hu⟩

theorem complete_flags {s t : State} (h : s.complete = .next t) :
    t.busy = false ∧ t.done = true ∧ t.phase = 0 ∧ t.turns = s.turns ∧ t.cmd = s.cmd := by
  unfold State.complete at h
  split at h
  · exact exec_flags h
  · rw [execIllegal_eq] at h
    obtain rfl := Host.Outcome.next.inj h
    exact ⟨rfl, rfl, rfl, rfl, rfl⟩

/-! ### One step -/

theorem State.turns_nil {s : State} (h : s.turns = []) : { s with turns := [] } = s := by
  cases s; simp only at h; rw [h]

/-- A step in which the controller moves (20_memory R89). -/
theorem step_controller {s : State} (h : s.controllerMoves) : step s = State.controllerTurn { s with turns := s.turns.tail } := by
  unfold step
  cases ht : s.turns with
  | nil => rw [List.tail_nil, State.turns_nil ht]
  | cons a r =>
    rcases h with h | h
    · rw [ht] at h; cases h
    · rw [ht, List.head?_cons] at h
      obtain rfl := Option.some.inj h
      unfold State.popTurn
      rw [ht]

/-- The controller's turn while a command runs (40_control R141). -/
theorem step_complete {s : State} (h : s.controllerMoves) (hb : s.busy = true) :
    step s = State.complete { s with turns := s.turns.tail } := by
  rw [step_controller h]
  unfold State.controllerTurn
  rw [if_pos hb]

theorem controllerTurn_inv {s t : State} (hs : s.Inv) (h : s.controllerTurn = .next t) : t.Inv := by
  unfold State.controllerTurn at h
  split at h
  · exact complete_inv hs ‹_› h
  · obtain rfl := Host.Outcome.next.inj h; exact hs

theorem controllerTurn_completes {s : State} (hs : s.Inv) : ∃ t, s.controllerTurn = .next t := by
  unfold State.controllerTurn
  split
  · exact complete_completes hs
  · exact ⟨s, rfl⟩

theorem hostRead_turns (s : State) (size : Size) (addr : Word) : (s.hostRead size addr).turns = s.turns := by
  unfold State.hostRead
  split
  · rfl
  · split <;> rfl

theorem hostWrite_turns (s : State) (size : Size) (addr data : Word) : (s.hostWrite size addr data).turns = s.turns := by
  unfold State.hostWrite
  split
  · rfl
  · split
    · rfl
    · rename_i p hp
      cases p with
      | csr r =>
        cases r
        case inLen => show (s.writeInLen data).turns = _; unfold State.writeInLen; split <;> rfl
        all_goals rfl
      | _ => rfl

theorem controllerTurn_turns {s t : State} (h : s.controllerTurn = .next t) : t.turns = s.turns := by
  unfold State.controllerTurn at h
  split at h
  · exact (complete_flags h).2.2.2.1
  · obtain rfl := Host.Outcome.next.inj h; rfl

/-- Every step takes one turn off the list. -/
theorem step_turns {s t : State} (h : step s = .next t) : t.turns = s.turns.tail := by
  unfold step at h
  split at h
  · rename_i e; rw [controllerTurn_turns h, e]; rfl
  · rw [controllerTurn_turns h]; rfl
  · obtain rfl := Host.Outcome.next.inj h; exact hostRead_turns _ _ _
  · obtain rfl := Host.Outcome.next.inj h; exact hostWrite_turns _ _ _ _
  · obtain rfl := Host.Outcome.next.inj h; rfl

theorem runSteps_succ (n : Nat) {s t : State} (h : runSteps n s = .next t) : runSteps (n + 1) s = step t := by
  induction n generalizing s with
  | zero =>
    obtain rfl := Host.Outcome.next.inj h
    show (match step s with | .next t => runSteps 0 t | .fault f => .fault f | .refused r => .refused r) = _
    cases step s <;> rfl
  | succ n ih =>
    change (match step s with | .next t => runSteps n t | .fault f => .fault f | .refused r => .refused r) = _ at h
    show (match step s with | .next t => runSteps (n + 1) t | .fault f => .fault f | .refused r => .refused r) = _
    cases hs : step s with
    | next u => rw [hs] at h; exact ih h
    | fault f => rw [hs] at h; cases h
    | refused r => rw [hs] at h; cases h

end Sys2Proof.Machine
end

