-- ==== Sys2Proof/Laws/Bus.lean ====
section
/-!
SUPPORT. The host's side (20_memory): what the address map gives, what a read and a write do at a place, the fields of the
status word, and what a step can do.
-/

namespace Sys2Proof.Machine

/-! ### The address map -/

/-- A word-aligned access below the buffer windows (20_memory R80). -/
theorem State.place_word (s : State) (a : Nat) (h : a < 0x6000) (h4 : a % 4 = 0) : s.place .word (BitVec.ofNat 32 a) =
    if a < 0x100 then some (csrPlace a)
    else if a < 0x400 then none
    else if a < 0x800 then some (.freq (BitVec.ofNat 8 ((a - 0x400) / 4)))
    else if a < 0xC00 then some (.codeLen (BitVec.ofNat 8 ((a - 0x800) / 4)))
    else if a < 0x2000 then none
    else if a < 0x4000 then some (.node (BitVec.ofNat 9 ((a - 0x2000) / 16)) (BitVec.ofNat 2 (a / 4 % 4)))
    else some (.codeBits (BitVec.ofNat 8 ((a - 0x4000) / 32)) (BitVec.ofNat 3 (a / 4 % 8))) := by
  have e : (BitVec.ofNat 32 a).toNat = a := by rw [BitVec.toNat_ofNat, Nat.mod_eq_of_lt (by omega)]
  unfold State.place
  dsimp only
  rw [e, if_pos h, if_pos ⟨rfl, h4⟩]

/-- A CSR stands at its offset (10_state R31). -/
theorem State.place_csr (s : State) (r : Csr) : s.place .word (BitVec.ofNat 32 r.offset) = some (.csr r) := by
  have h : r.offset < 0x100 ∧ r.offset % 4 = 0 ∧ csrPlace r.offset = .csr r := by cases r <;> decide
  rw [s.place_word _ (by omega) h.2.1, if_pos h.1, h.2.2]

/-- The offsets past the last CSR are reserved (10_state R48). -/
theorem csrPlace_reserved (a : Nat) (h : 0x48 ≤ a) : csrPlace a = .reserved := by
  unfold csrPlace
  have : allCsrs.find? (fun r => r.offset = a) = none := by
    rw [List.find?_eq_none]
    intro r hr
    have : r.offset < 0x48 := by revert r; decide
    simp
    omega
  rw [this]

/-- An access names nothing exactly when it violates 20_memory R84 (a), (b) or (c). -/
theorem State.place_none_iff (s : State) (h1 : s.capIn.toNat ≤ 2 ^ 28) (h2 : s.capOut.toNat ≤ 2 ^ 28) (size : Size)
    (addr : Word) : s.place size addr = none ↔ s.badAccess size addr.toNat := by
  have ha := addr.isLt
  unfold State.place State.badAccess State.mapped inBase outBase
  dsimp only
  generalize addr.toNat = a at *
  generalize s.capIn.toNat = ci at *
  generalize s.capOut.toNat = co at *
  cases size <;> simp only [ne_eq, not_true_eq_false, not_false_eq_true, false_or, true_or, or_false, true_and, false_and,
    reduceCtorEq, and_true, and_false, if_false, if_true]
  · repeat' split
    all_goals simp; omega
  · repeat' split
    all_goals simp; omega

/-! ### Reads and writes at a place -/

/-- A read of what the map names (20_memory R87, R88). -/
theorem State.hostRead_of_place {s : State} {size : Size} {addr : Word} {p : Place} (h : s.place size addr = some p) :
    s.hostRead size addr =
      if s.busy then { s with rdata := s.busyValue p, draw := s.draw + 1 } else { s with rdata := s.idleValue p } := by
  unfold State.hostRead
  rw [h]

/-- A violating read (20_memory R84). -/
theorem State.hostRead_of_none {s : State} {size : Size} {addr : Word} (h : s.place size addr = none) :
    s.hostRead size addr = { s with hostViol := true, rdata := 0 } := by
  unfold State.hostRead
  rw [h]
  rfl

/-- A write is a violation, or, while idle, a write of what the map names (20_memory R84, R88). -/
theorem State.hostWrite_cases (s : State) (size : Size) (addr data : Word) :
    s.hostWrite size addr data = s.violate ∨
      (s.busy = false ∧ ∃ p, s.place size addr = some p ∧ s.hostWrite size addr data = s.idleWrite data p) := by
  unfold State.hostWrite
  split
  · exact .inl rfl
  · rename_i hb
    cases hp : s.place size addr with
    | none => exact .inl rfl
    | some p => exact .inr ⟨by simpa using hb, p, rfl, rfl⟩

theorem State.hostWrite_of_place {s : State} (hb : s.busy = false) {size : Size} {addr : Word} {p : Place}
    (h : s.place size addr = some p) (data : Word) : s.hostWrite size addr data = s.idleWrite data p := by
  unfold State.hostWrite
  rw [if_neg (by rw [hb]; simp), h]

/-! ### The status word -/

/-- The fields of a STATUS word (10_state R33). -/
theorem statusLayout_bits (ph : BitVec 3) (bs : BitVec 2) (a b c d e f g h : Bool) (w : Word)
    (hw : w = statusLayout ph bs a b c d e f g h) :
    w.getLsbD 0 = h ∧ w.getLsbD 1 = g ∧ w.getLsbD 2 = f ∧ w.getLsbD 3 = e ∧ w.getLsbD 4 = d ∧ w.getLsbD 5 = c ∧
      w.getLsbD 6 = b ∧ w.getLsbD 7 = a := by
  subst hw
  unfold statusLayout
  refine ⟨?_, ?_, ?_, ?_, ?_, ?_, ?_, ?_⟩ <;> simp only [BitVec.getLsbD_append, BitVec.getLsbD_ofBool] <;> simp

theorem statusLayout_fields (ph : BitVec 3) (bs : BitVec 2) (a b c d e f g h : Bool) (w : Word)
    (hw : w = statusLayout ph bs a b c d e f g h) :
    w.extractLsb' 8 2 = bs ∧ w.extractLsb' 10 2 = 0 ∧ w.extractLsb' 12 3 = ph ∧ w.extractLsb' 15 17 = 0 := by
  subst hw
  unfold statusLayout
  refine ⟨?_, ?_, ?_, ?_⟩ <;> refine BitVec.eq_of_getLsbD_eq fun i hi => ?_ <;>
    interval_cases i <;> simp only [BitVec.getLsbD_append, BitVec.getLsbD_ofBool, BitVec.getLsbD_extractLsb'] <;> simp

/-- The phase shown is one of those given (10_state R59). -/
theorem pickPhase_mem (ps : List (BitVec 3)) (choice : Nat) (h : ps ≠ []) : pickPhase ps choice ∈ ps := by
  unfold pickPhase
  rw [List.getD_eq_getElem _ _ (Nat.mod_lt _ (List.length_pos_iff.mpr h))]
  exact List.getElem_mem _

/-! ### A step -/

/-- Everything a step can do (20_memory R89). -/
theorem step_cases {s t : State} (h : step s = .next t) :
    (s.controllerMoves ∧ ((s.busy = true ∧ s.popTurn.complete = .next t) ∨ (s.busy = false ∧ t = s.popTurn))) ∨
    (∃ size addr rest, s.turns = .read size addr :: rest ∧ t = s.popTurn.hostRead size addr) ∨
    (∃ size addr data rest, s.turns = .write size addr data :: rest ∧ t = s.popTurn.hostWrite size addr data) ∨
    (s.turns.head? = some .rst ∧ t = s.popTurn.rst) := by
  by_cases hm : s.controllerMoves
  · refine .inl ⟨hm, ?_⟩
    rw [step_controller hm] at h
    unfold State.controllerTurn at h
    split at h
    · rename_i hb
      exact .inl ⟨hb, h⟩
    · rename_i hb
      have hb' : ¬ s.busy = true := hb
      exact .inr ⟨by simpa using hb', (Host.Outcome.next.inj h).symm⟩
  · unfold step at h
    split at h
    · rename_i ht
      exact (hm (.inl ht)).elim
    · rename_i ht
      exact (hm (.inr (by rw [ht]; rfl))).elim
    · rename_i size addr rest ht
      exact .inr (.inl ⟨size, addr, rest, ht, (Host.Outcome.next.inj h).symm⟩)
    · rename_i size addr data rest ht
      exact .inr (.inr (.inl ⟨size, addr, data, rest, ht, (Host.Outcome.next.inj h).symm⟩))
    · rename_i ht
      exact .inr (.inr (.inr ⟨by rw [ht]; rfl, (Host.Outcome.next.inj h).symm⟩))

/-- How a command word completes (40_control R141, 30_encoding R114). -/
theorem complete_cases {s t : State} (h : s.complete = .next t) :
    (∃ i, decode s.cmd = .ok i ∧ exec i s = .next t) ∨ ∃ e, t = s.takeError false (Illegal.cause e) 0 := by
  unfold State.complete at h
  split at h
  · rename_i i hi
    exact .inl ⟨i, hi, h⟩
  · exact .inr ⟨_, (Host.Outcome.next.inj h).symm⟩

end Sys2Proof.Machine
end

