-- ==== Sys2Proof/Laws/Decode.lean ====
section
/-!
SUPPORT. The fields of an encoded command (30_encoding R110), and what the decoder does with the fields of a word.
-/

namespace Sys2Proof

/-- OP of an encoded command. -/
theorem opField_encode (i : Instr) : opField (encode i) = i.opcode := by
  unfold opField encode
  generalize i.arg = a
  generalize i.opcode = o
  refine BitVec.eq_of_getLsbD_eq fun j hj => ?_
  rw [BitVec.getLsbD_extractLsb', BitVec.getLsbD_append]
  simp [hj]

/-- ARG of an encoded command. -/
theorem argField_encode (i : Instr) : argField (encode i) = i.arg := by
  unfold argField encode
  generalize i.arg = a
  generalize i.opcode = o
  refine BitVec.eq_of_getLsbD_eq fun j hj => ?_
  rw [BitVec.getLsbD_extractLsb', BitVec.getLsbD_append, BitVec.getLsbD_append]
  simp [hj]

/-- RSV of an encoded command. -/
theorem rsvField_encode (i : Instr) : rsvField (encode i) = 0 := by
  unfold rsvField encode
  generalize i.arg = a
  generalize i.opcode = o
  refine BitVec.eq_of_getLsbD_eq fun j hj => ?_
  rw [BitVec.getLsbD_extractLsb', BitVec.getLsbD_append, BitVec.getLsbD_append]
  have h1 : ¬ 24 + j < 8 := by omega
  have h2 : ¬ 24 + j - 8 < 16 := by omega
  simp only [h1, h2, if_false]
  simp

/-- A word is its three fields put together (30_encoding R110). -/
theorem word_of_fields (w : Word) : w = rsvField w ++ argField w ++ opField w := by
  unfold rsvField argField opField
  refine BitVec.eq_of_getLsbD_eq fun j hj => ?_
  rw [BitVec.getLsbD_append, BitVec.getLsbD_append]
  simp only [BitVec.getLsbD_extractLsb']
  split
  · simp; omega
  · split
    · have : 8 + (j - 8) = j := by omega
      rw [this]; simp; omega
    · have : 24 + (j - 8 - 16) = j := by omega
      rw [this]; simp; omega

/-- The command of an opcode and a merge count has that opcode and that count. -/
theorem commandOf_some {op : Byte} {arg : BitVec 16} {i : Instr} (h : commandOf op arg.toNat = some i) :
    i.opcode = op ∧ i.wf = true ∧ (op = 0x22 → i.arg = arg) ∧ (op ≠ 0x22 → i.arg = 0) := by
  unfold commandOf at h
  by_cases hnop : op = 0x00
  · rw [if_pos hnop] at h
    obtain rfl := Option.some.inj h
    subst hnop
    exact ⟨rfl, rfl, fun e => absurd e (by decide), fun _ => rfl⟩
  rw [if_neg hnop] at h
  by_cases hclear : op = 0x01
  · rw [if_pos hclear] at h
    obtain rfl := Option.some.inj h
    subst hclear
    exact ⟨rfl, rfl, fun e => absurd e (by decide), fun _ => rfl⟩
  rw [if_neg hclear] at h
  by_cases hscan : op = 0x10
  · rw [if_pos hscan] at h
    obtain rfl := Option.some.inj h
    subst hscan
    exact ⟨rfl, rfl, fun e => absurd e (by decide), fun _ => rfl⟩
  rw [if_neg hscan] at h
  by_cases hbuild : op = 0x20
  · rw [if_pos hbuild] at h
    obtain rfl := Option.some.inj h
    subst hbuild
    exact ⟨rfl, rfl, fun e => absurd e (by decide), fun _ => rfl⟩
  rw [if_neg hbuild] at h
  by_cases hbuildInit : op = 0x21
  · rw [if_pos hbuildInit] at h
    obtain rfl := Option.some.inj h
    subst hbuildInit
    exact ⟨rfl, rfl, fun e => absurd e (by decide), fun _ => rfl⟩
  rw [if_neg hbuildInit] at h
  by_cases hbs : op = 0x22
  · rw [if_pos hbs] at h
    obtain rfl := Option.some.inj h
    subst hbs
    refine ⟨rfl, decide_eq_true arg.isLt, fun _ => ?_, fun e => absurd rfl e⟩
    show BitVec.ofNat 16 arg.toNat = arg
    rw [BitVec.ofNat_toNat, BitVec.setWidth_eq]
  rw [if_neg hbs] at h
  by_cases hassign : op = 0x30
  · rw [if_pos hassign] at h
    obtain rfl := Option.some.inj h
    subst hassign
    exact ⟨rfl, rfl, fun e => absurd e (by decide), fun _ => rfl⟩
  rw [if_neg hassign] at h
  by_cases hpack : op = 0x40
  · rw [if_pos hpack] at h
    obtain rfl := Option.some.inj h
    subst hpack
    exact ⟨rfl, rfl, fun e => absurd e (by decide), fun _ => rfl⟩
  rw [if_neg hpack] at h
  by_cases hparse : op = 0x50
  · rw [if_pos hparse] at h
    obtain rfl := Option.some.inj h
    subst hparse
    exact ⟨rfl, rfl, fun e => absurd e (by decide), fun _ => rfl⟩
  rw [if_neg hparse] at h
  by_cases hdecode : op = 0x51
  · rw [if_pos hdecode] at h
    obtain rfl := Option.some.inj h
    subst hdecode
    exact ⟨rfl, rfl, fun e => absurd e (by decide), fun _ => rfl⟩
  rw [if_neg hdecode] at h
  by_cases hcompress : op = 0x80
  · rw [if_pos hcompress] at h
    obtain rfl := Option.some.inj h
    subst hcompress
    exact ⟨rfl, rfl, fun e => absurd e (by decide), fun _ => rfl⟩
  rw [if_neg hcompress] at h
  by_cases hdecompress : op = 0x81
  · rw [if_pos hdecompress] at h
    obtain rfl := Option.some.inj h
    subst hdecompress
    exact ⟨rfl, rfl, fun e => absurd e (by decide), fun _ => rfl⟩
  rw [if_neg hdecompress] at h
  cases h

/-- The opcode map names every command by its opcode and operand. -/
theorem commandOf_opcode (i : Instr) (h : i.wf = true) : commandOf i.opcode i.arg.toNat = some i := by
  cases i with
  | buildStep n =>
    have hn : n < 65536 := by simpa [Instr.wf] using h
    have e : (Instr.buildStep n).arg.toNat = n := by
      show (BitVec.ofNat 16 n).toNat = n
      rw [BitVec.toNat_ofNat, Nat.mod_eq_of_lt hn]
    rw [e]
    rfl
  | _ => rfl

/-- What a decoded word's fields are (30_encoding R114). -/
theorem decode_ok_iff (w : Word) (i : Instr) : decode w = .ok i ↔
    commandOf (opField w) (argField w).toNat = some i ∧ rsvField w = 0 ∧ (opField w = 0x22 ∨ argField w = 0) := by
  unfold decode
  split
  · rename_i h; rw [h]; simp
  · rename_i j h
    rw [h]
    split
    · rename_i hr
      exact ⟨(fun e => by cases e), fun e => absurd e.2.1 hr⟩
    · rename_i hr
      simp only [ne_eq, not_not] at hr
      split
      · rename_i ha
        exact ⟨(fun e => by cases e), fun e => e.2.2.elim (fun h => absurd h ha.1) (fun h => absurd h ha.2)⟩
      · rename_i ha
        have : opField w = 0x22 ∨ argField w = 0 := by
          by_contra hc
          rw [not_or] at hc
          exact ha ⟨hc.1, hc.2⟩
        constructor
        · intro e; cases e; exact ⟨rfl, hr, this⟩
        · rintro ⟨e, -⟩; cases e; rfl

/-- The 12 values of OP that name a command (30_encoding R113). -/
def legalOpcodes : List Byte := [0x00, 0x01, 0x10, 0x20, 0x21, 0x22, 0x30, 0x40, 0x50, 0x51, 0x80, 0x81]

/-- The opcodes that name no command (30_encoding R114 (a)). -/
theorem commandOf_none (op : Byte) (n : Nat) : commandOf op n = none ↔ op ∉ legalOpcodes := by
  unfold legalOpcodes
  simp only [List.mem_cons, List.not_mem_nil, or_false]
  constructor
  · intro h
    rintro (rfl | rfl | rfl | rfl | rfl | rfl | rfl | rfl | rfl | rfl | rfl | rfl) <;> cases h
  · intro h
    unfold commandOf
    rw [if_neg fun e => h (Or.inl e)]
    rw [if_neg fun e => h (Or.inr (Or.inl e))]
    rw [if_neg fun e => h (Or.inr (Or.inr (Or.inl e)))]
    rw [if_neg fun e => h (Or.inr (Or.inr (Or.inr (Or.inl e))))]
    rw [if_neg fun e => h (Or.inr (Or.inr (Or.inr (Or.inr (Or.inl e)))))]
    rw [if_neg fun e => h (Or.inr (Or.inr (Or.inr (Or.inr (Or.inr (Or.inl e))))))]
    rw [if_neg fun e => h (Or.inr (Or.inr (Or.inr (Or.inr (Or.inr (Or.inr (Or.inl e)))))))]
    rw [if_neg fun e => h (Or.inr (Or.inr (Or.inr (Or.inr (Or.inr (Or.inr (Or.inr (Or.inl e))))))))]
    rw [if_neg fun e => h (Or.inr (Or.inr (Or.inr (Or.inr (Or.inr (Or.inr (Or.inr (Or.inr (Or.inl e)))))))))]
    rw [if_neg fun e => h (Or.inr (Or.inr (Or.inr (Or.inr (Or.inr (Or.inr (Or.inr (Or.inr (Or.inr (Or.inl e))))))))))]
    rw [if_neg fun e => h (Or.inr (Or.inr (Or.inr (Or.inr (Or.inr (Or.inr (Or.inr (Or.inr (Or.inr (Or.inr (Or.inl e)))))))))))]
    rw [if_neg fun e => h (Or.inr (Or.inr (Or.inr (Or.inr (Or.inr (Or.inr (Or.inr (Or.inr (Or.inr (Or.inr (Or.inr (e))))))))))))]

/-- The two ways a word is illegal (30_encoding R114). -/
theorem decode_error_iff (w : Word) :
    (decode w = .error .badOpcode ↔ opField w ∉ legalOpcodes) ∧
      (decode w = .error .badField ↔
        opField w ∈ legalOpcodes ∧ (rsvField w ≠ 0 ∨ (opField w ≠ 0x22 ∧ argField w ≠ 0))) := by
  have hmem : opField w ∈ legalOpcodes ↔ commandOf (opField w) (argField w).toNat ≠ none := by
    rw [ne_eq, commandOf_none, not_not]
  rw [← commandOf_none (opField w) (argField w).toNat, hmem]
  unfold decode
  split
  · rename_i h; rw [h]; simp
  · rename_i h
    rw [h]
    split
    · rename_i h2; exact ⟨⟨(fun e => by cases e), (fun e => by cases e)⟩, ⟨fun _ => ⟨by simp, .inl h2⟩, fun _ => rfl⟩⟩
    · rename_i h2
      split
      · rename_i h3; exact ⟨⟨(fun e => by cases e), (fun e => by cases e)⟩, ⟨fun _ => ⟨by simp, .inr h3⟩, fun _ => rfl⟩⟩
      · rename_i h3
        refine ⟨⟨(fun e => by cases e), (fun e => by cases e)⟩, ⟨(fun e => by cases e), fun e => ?_⟩⟩
        rcases e.2 with h4 | h4
        · exact absurd h4 h2
        · exact absurd h4 h3

end Sys2Proof
end

