-- ==== Sys2Proof/Machine/HostProgram.lean ====
section
/-!
DEFINITION. Host programs as lists of turns (30_encoding R116 to R118): the transactions, the symbolic addresses and the
pseudo-instructions. No step reads this file.
-/

namespace Sys2Proof.Machine

/-- `sw ADDR, IMM32` (30_encoding R117). -/
def sw (addr data : Word) : Turn := .write .word addr data

/-- `lw ADDR` (30_encoding R117). -/
def lw (addr : Word) : Turn := .read .word addr

/-- `sb ADDR, IMM8` (30_encoding R117). -/
def sb (addr : Word) (data : Byte) : Turn := .write .byte addr (data.setWidth 32)

/-- `lb ADDR` (30_encoding R117). -/
def lb (addr : Word) : Turn := .read .byte addr

/-- The address of a CSR by its name (30_encoding R117). -/
def csrAddr (r : Csr) : Word := BitVec.ofNat 32 r.offset

/-- The address of FREQ[b] (30_encoding R117). -/
def freqAddr (b : Byte) : Word := BitVec.ofNat 32 (0x400 + 4 * b.toNat)

/-- The address of CODE_LEN[b] (30_encoding R117). -/
def codeLenAddr (b : Byte) : Word := BitVec.ofNat 32 (0x800 + 4 * b.toNat)

/-- The address of NODE[i].w (30_encoding R117). -/
def nodeAddr (i : NodeIdx) (w : BitVec 2) : Word := BitVec.ofNat 32 (0x2000 + 16 * i.toNat + 4 * w.toNat)

/-- The address of CODE_BITS[b].w (30_encoding R117). -/
def codeBitsAddr (b : Byte) (w : BitVec 3) : Word := BitVec.ofNat 32 (0x4000 + 32 * b.toNat + 4 * w.toNat)

/-- The address of IN_BUF[j] (30_encoding R117). -/
def inAddr (j : Nat) : Word := BitVec.ofNat 32 (inBase + j)

/-- The address of OUT_BUF[j] (30_encoding R117). -/
def outAddr (j : Nat) : Word := BitVec.ofNat 32 (outBase + j)

/-- The byte writes of `LOADIN` from offset j on (30_encoding R118). -/
def loadBytes : Nat → List Byte → List Turn
  | _, [] => []
  | j, b :: bs => sb (inAddr j) b :: loadBytes (j + 1) bs

/-- `LOADIN b0 b1 …` (30_encoding R118). -/
def loadIn (bs : List Byte) : List Turn := loadBytes 0 bs ++ [sw (csrAddr .inLen) (BitVec.ofNat 32 bs.length)]

/-- The bytes of an ASCII text, without a terminator (30_encoding R118). -/
def textBytes (text : String) : List Byte := text.toList.map fun c => BitVec.ofNat 8 c.toNat

/-- `LOADIN "text"` (30_encoding R118). -/
def loadText (text : String) : List Turn := loadIn (textBytes text)

/-- `SETFREQ s, v` (30_encoding R118). -/
def setFreq (b : Byte) (v : Word) : Turn := sw (freqAddr b) v

/-- The value that the last read bound to its name (30_encoding R117). -/
def State.bound (s : State) : Word := s.rdata

/-- t[1] of the value last read: what `WAITDONE` polls STATUS for (30_encoding R118). -/
def State.seesDone (s : State) : Bool := s.bound.getLsbD 1

/-- `WAITDONE` in the runs where the given number of STATUS polls come before the complete transition and one poll after it
(30_encoding R118, 20_memory R89): the host's loop with the controller's move placed in it. The loop makes no other poll:
those before see DONE = 0 and the last one sees DONE = 1 (waitDone_sees in Sys2Proof/Laws/HostProgram.lean). Where the command
has completed before the loop begins, the controller's turn changes nothing and no poll comes before it. -/
def waitDone (polls : Nat) : List Turn :=
  List.replicate polls (lw (csrAddr .status)) ++ [.controller, lw (csrAddr .status)]

/-- `RUN M` (30_encoding R118): the word of M to CMD, then WAITDONE with the given number of polls before completion. -/
def run (i : Instr) (polls : Nat) : List Turn := sw (csrAddr .cmd) (encode i) :: waitDone polls

/-- The read of `CHECK ADDR = V` (30_encoding R118). -/
def check (addr : Word) : Turn := lw addr

/-- The claim of `CHECK ADDR = V` (30_encoding R118), in the state that its read leaves. -/
def State.checks (s : State) (v : Word) : Bool := s.bound = v

end Sys2Proof.Machine
end

