-- ==== Sys2Proof/Laws/HostProgram.lean ====
section
/-!
SUPPORT. WAITDONE (30_encoding R118): its polls before the complete transition see DONE = 0, and the one after it sees DONE = 1.
-/

namespace Sys2Proof.Machine

/-- A poll of STATUS (10_state R33, R34): it sees DONE, which reads 0 while a command runs, and moves nothing. -/
theorem State.poll_sees (s : State) :
    (s.hostRead .word (csrAddr .status)).seesDone = (!s.busy && s.done) ∧
      (s.hostRead .word (csrAddr .status)).busy = s.busy := by
  unfold csrAddr
  rw [State.hostRead_of_place (s.place_csr .status)]
  cases hb : s.busy with
  | true => exact ⟨(statusLayout_bits _ _ _ _ _ _ _ _ _ _ _ rfl).2.1, rfl⟩
  | false => exact ⟨(statusLayout_bits _ _ _ _ _ _ _ _ _ _ _ rfl).2.1, rfl⟩

/-- WAITDONE terminates (30_encoding R118): from a running command, each poll before the completion sees DONE = 0, and the
last one, after it, sees DONE = 1. -/
theorem waitDone_sees (n : Nat) (rest : List Turn) (s : State) (hs : s.Inv) (hb : s.busy = true)
    (ht : s.turns = waitDone n ++ rest) :
    (∀ k, 1 ≤ k → k ≤ n → ∃ u, runSteps k s = .next u ∧ u.seesDone = false) ∧
      ∃ t, runSteps (n + 2) s = .next t ∧ t.seesDone = true ∧ t.busy = false ∧ t.turns = rest := by
  induction n generalizing s with
  | zero =>
    refine ⟨fun k h1 h2 => absurd (h1.trans h2) (by decide), ?_⟩
    have ht : s.turns = .controller :: lw (csrAddr .status) :: rest := ht
    obtain ⟨c, hc⟩ := complete_completes (popTurn_inv hs)
    have hf := complete_flags hc
    have h1 : step s = .next c := by
      unfold step
      rw [ht]
      show (if s.busy then s.popTurn.complete else .next s.popTurn) = _
      rw [if_pos hb, hc]
    have hct : c.turns = lw (csrAddr .status) :: rest := by rw [step_turns h1, ht]; rfl
    have h2 : step c = .next (c.popTurn.hostRead .word (csrAddr .status)) := by
      unfold step
      rw [hct]
      rfl
    have hp := c.popTurn.poll_sees
    refine ⟨_, ?_, hp.1.trans ?_, hp.2.trans hf.1, by rw [step_turns h2, hct]; rfl⟩
    · rw [runSteps_succ 1 (runSteps_succ 0 rfl |>.trans h1), h2]
    · show (!c.busy && c.done) = true
      rw [hf.1, hf.2.1]
      rfl
  | succ n ih =>
    have ht : s.turns = lw (csrAddr .status) :: (waitDone n ++ rest) := ht
    have h1 : step s = .next (s.popTurn.hostRead .word (csrAddr .status)) := by
      unfold step
      rw [ht]
      rfl
    have hp := s.popTurn.poll_sees
    have hrun : ∀ k, runSteps (k + 1) s = runSteps k (s.popTurn.hostRead .word (csrAddr .status)) := by
      intro k
      show (match step s with | .next t => runSteps k t | .fault f => .fault f | .refused r => .refused r) = _
      rw [h1]
    obtain ⟨i1, i2⟩ := ih _ (hostRead_inv (popTurn_inv hs) _ _) (hp.2.trans hb) (by rw [step_turns h1, ht]; rfl)
    refine ⟨fun k k1 k2 => ?_, by rw [hrun]; exact i2⟩
    obtain ⟨k, rfl⟩ := Nat.exists_eq_add_of_le' k1
    rw [hrun]
    cases k with
    | zero =>
      refine ⟨_, rfl, hp.1.trans ?_⟩
      show (!s.busy && s.done) = false
      rw [hb]
      rfl
    | succ k => exact i1 (k + 1) (by omega) (by omega)

end Sys2Proof.Machine
end

