-- ==== Sys2Proof/Laws/Parse.lean ====
section
/-!
SUPPORT. PARSE (45_container_decode R260): its reading of the entries, entry by entry, in the spec's own words.
-/

namespace Sys2Proof.Machine

theorem State.be16_zero (s : State) : s.be16 0 = s.headerCount := rfl

/-- BE32 as a number (00_scope R17). -/
theorem State.be32_toNat (s : State) (a : Nat) : (s.be32 a).toNat =
    (s.inByte a).toNat * 2 ^ 24 + (s.inByte (a + 1)).toNat * 2 ^ 16 + (s.inByte (a + 2)).toNat * 2 ^ 8 +
      (s.inByte (a + 3)).toNat := by
  unfold State.be32
  have h0 := (s.inByte a).isLt
  have h1 := (s.inByte (a + 1)).isLt
  have h2 := (s.inByte (a + 2)).isLt
  have h3 := (s.inByte (a + 3)).isLt
  simp only [BitVec.toNat_append]
  rw [← Nat.shiftLeft_add_eq_or_of_lt h1, ← Nat.shiftLeft_add_eq_or_of_lt h2, ← Nat.shiftLeft_add_eq_or_of_lt h3]
  simp only [Nat.shiftLeft_eq]
  omega

theorem State.be32_entry (s : State) (i : Nat) : (s.be32 (2 + 5 * i + 1)).toNat = s.headerFreq i := by
  rw [State.be32_toNat]
  unfold State.headerFreq
  have e0 : 2 + 5 * i + 1 = 3 + 5 * i := by omega
  have e1 : 2 + 5 * i + 1 + 1 = 4 + 5 * i := by omega
  have e2 : 2 + 5 * i + 1 + 2 = 5 + 5 * i := by omega
  have e3 : 2 + 5 * i + 1 + 3 = 6 + 5 * i := by omega
  rw [e0, show 3 + 5 * i + 1 = 4 + 5 * i by omega, show 3 + 5 * i + 2 = 5 + 5 * i by omega,
    show 3 + 5 * i + 3 = 6 + 5 * i by omega]

/-- The entries before entry i, as PARSE has seen them. -/
def State.entriesTo (s : State) (i : Nat) : List (Byte × Word) :=
  (List.range i).map fun j => (s.inByte (2 + 5 * j), s.be32 (2 + 5 * j + 1))

theorem State.entriesTo_succ (s : State) (i : Nat) :
    s.entriesTo (i + 1) = s.entriesTo i ++ [(s.inByte (2 + 5 * i), s.be32 (2 + 5 * i + 1))] := by
  unfold State.entriesTo
  rw [List.range_succ, List.map_append]
  rfl

theorem State.entriesTo_any (s : State) (i : Nat) :
    (s.entriesTo i).any (·.1 = s.inByte (2 + 5 * i)) = true ↔ s.entryRepeats i := by
  unfold State.entriesTo State.entryRepeats
  simp

/-- One entry read (45_container_decode R260). -/
theorem State.parseEntries_step (s : State) (n i : Nat) : s.parseEntries (n + 1) i (s.entriesTo i) =
    if s.headerFreq i = 0 then .error (.zeroFreq, 2 + 5 * i)
    else if (s.entriesTo i).any (·.1 = s.inByte (2 + 5 * i)) then .error (.dupSymbol, 2 + 5 * i)
    else s.parseEntries n (i + 1) (s.entriesTo (i + 1)) := by
  rw [s.entriesTo_succ i]
  conv_lhs => unfold State.parseEntries
  dsimp only
  have e : s.be32 (2 + 5 * i + 1) = 0 ↔ s.headerFreq i = 0 := by
    rw [← s.be32_entry i, ← BitVec.toNat_inj]
    rfl
  simp only [e]

/-- Entries without a defect are passed over. -/
theorem State.parseEntries_skip (s : State) (m n i : Nat) (h : ∀ j, i ≤ j → j < i + m → s.entryOk j) :
    s.parseEntries (m + n) i (s.entriesTo i) = s.parseEntries n (i + m) (s.entriesTo (i + m)) := by
  induction m generalizing i with
  | zero => rw [Nat.zero_add]; rfl
  | succ m ih =>
    have h0 := h i (le_refl i) (by omega)
    have e : m + 1 + n = (m + n) + 1 := by omega
    rw [e, s.parseEntries_step, if_neg h0.1, if_neg (fun hr => h0.2 ((s.entriesTo_any i).mp hr)),
      ih (i + 1) fun j hj hj' => h j (by omega) (by omega)]
    have e2 : i + 1 + m = i + (m + 1) := by omega
    rw [e2]

/-- A table without a defect. -/
theorem State.parseEntries_good (s : State) (k : Nat) (h : ∀ i < k, s.entryOk i) :
    s.parseEntries k 0 [] = .ok (s.entriesTo k) := by
  have := s.parseEntries_skip k 0 0 fun j _ hj => h j (by omega)
  rw [Nat.add_zero, Nat.zero_add] at this
  exact this

/-- The first defect of a table. -/
theorem State.parseEntries_bad (s : State) (k i : Nat) (hi : i < k) (h : ∀ j < i, s.entryOk j) :
    (s.headerFreq i = 0 → s.parseEntries k 0 [] = .error (.zeroFreq, 2 + 5 * i)) ∧
      (s.headerFreq i ≠ 0 → s.entryRepeats i → s.parseEntries k 0 [] = .error (.dupSymbol, 2 + 5 * i)) := by
  have e : k = i + ((k - i - 1) + 1) := by omega
  have h1 := s.parseEntries_skip i ((k - i - 1) + 1) 0 fun j _ hj => h j (by omega)
  rw [← e, Nat.zero_add, s.parseEntries_step] at h1
  constructor
  · intro h0
    rw [if_pos h0] at h1
    exact h1
  · intro h0 hr
    rw [if_neg h0, if_pos ((s.entriesTo_any i).mpr hr)] at h1
    exact h1

/-- A table that PARSE accepts has no defect. -/
theorem State.parseEntries_ok (s : State) (k : Nat) {es : List (Byte × Word)} (h : s.parseEntries k 0 [] = .ok es) :
    (∀ i < k, s.entryOk i) ∧ es = s.entriesTo k := by
  have hall : ∀ i < k, s.entryOk i := by
    intro i
    induction i using Nat.strong_induction_on with
    | _ i ih =>
      intro hi
      have hb := s.parseEntries_bad k i hi fun j hj => ih j hj (by omega)
      constructor
      · intro h0; rw [hb.1 h0] at h; cases h
      · intro hr
        by_cases h0 : s.headerFreq i = 0
        · rw [hb.1 h0] at h; cases h
        · rw [hb.2 h0 hr] at h; cases h
  refine ⟨hall, ?_⟩
  rw [s.parseEntries_good k hall] at h
  exact (Except.ok.inj h).symm

/-- The symbols of a table without a defect are distinct. -/
theorem State.entriesTo_nodup (s : State) (k : Nat) (h : ∀ i < k, s.entryOk i) :
    ((s.entriesTo k).map Prod.fst).Nodup := by
  induction k with
  | zero => exact List.nodup_nil
  | succ k ih =>
    rw [s.entriesTo_succ, List.map_append, List.nodup_append]
    refine ⟨ih fun i hi => h i (by omega), List.nodup_singleton _, fun a ha b hb => ?_⟩
    rintro rfl
    obtain rfl := List.mem_singleton.mp hb
    refine (h k (by omega)).2 ?_
    unfold State.entriesTo at ha
    simp only [List.map_map, List.mem_map, List.mem_range] at ha
    obtain ⟨j, hj, he⟩ := ha
    exact ⟨j, hj, he⟩

/-- The frequency map of a table without a defect (45_container_decode R262). -/
theorem State.freqOfEntries_entriesTo (s : State) (k : Nat) (h : ∀ i < k, s.entryOk i) :
    (∀ i < k, (freqOfEntries (s.entriesTo k))[(s.inByte (2 + 5 * i)).toNat]'(s.inByte (2 + 5 * i)).isLt =
      s.be32 (2 + 5 * i + 1)) ∧
    ∀ b : Byte, (∀ i < k, s.inByte (2 + 5 * i) ≠ b) → (freqOfEntries (s.entriesTo k))[b.toNat]'b.isLt = 0 := by
  constructor
  · intro i hi
    refine getElem_freqOfEntries_mem _ _ _ ?_ (s.entriesTo_nodup k h)
    exact List.mem_map.mpr ⟨i, List.mem_range.mpr hi, rfl⟩
  · intro b hb
    refine getElem_freqOfEntries_not_mem _ _ fun hm => ?_
    unfold State.entriesTo at hm
    simp only [List.map_map, List.mem_map, List.mem_range] at hm
    obtain ⟨j, hj, he⟩ := hm
    exact hb j hj he

/-- A header that PARSE accepts (45_container_decode R260). -/
theorem State.parseHeader_ok (s : State) {es : List (Byte × Word)} {pad : Nat} (h : s.parseHeader = .ok (es, pad)) :
    1 ≤ s.headerCount ∧ s.headerCount ≤ 256 ∧ headerSize s.headerCount ≤ s.inLen.toNat ∧
      (∀ i < s.headerCount, s.entryOk i) ∧ es = s.entriesTo s.headerCount := by
  unfold State.parseHeader at h
  dsimp only at h
  rw [State.be16_zero] at h
  split at h
  · cases h
  split at h
  · cases h
  split at h
  · cases h
  split at h
  · cases h
  split at h
  · cases h
  · rename_i es' he
    split at h
    · cases h
    · split at h
      · cases h
      · obtain ⟨rfl, -⟩ := Prod.mk.inj (Except.ok.inj h)
        obtain ⟨h1, h2⟩ := s.parseEntries_ok _ he
        exact ⟨by omega, by omega, by omega, h1, h2⟩

/-- A PARSE that does not raise leaves a map that is not empty (46_composite R291). -/
theorem parseBody_symCount {s t : State} (h : parseBody s = .ok t) : t.symCount ≠ 0 := by
  unfold parseBody at h
  cases hp : s.parseHeader with
  | error d => rw [hp] at h; cases h
  | ok r =>
    obtain ⟨es, pad⟩ := r
    rw [hp] at h
    obtain ⟨h1, h2, h3, h4, rfl⟩ := s.parseHeader_ok hp
    have hf := (s.freqOfEntries_entriesTo _ h4).1 0 (by omega)
    have ht : t.freq = freqOfEntries (s.entriesTo s.headerCount) := by
      rw [← Result.ok.inj h]
    intro h0
    have hnil : t.presentSymbols = [] := List.eq_nil_of_length_eq_zero h0
    have hmem : s.inByte (2 + 5 * 0) ∈ t.presentSymbols := by
      rw [State.mem_presentSymbols]
      unfold State.freqAt
      simp only [ht]
      rw [hf]
      intro e
      refine (h4 0 (by omega)).1 ?_
      rw [← s.be32_entry 0, e]
      rfl
    rw [hnil] at hmem
    cases hmem

end Sys2Proof.Machine
end

