-- ==== Sys2Proof/Laws/Raises.lean ====
section
/-!
SUPPORT. Which sub-causes each command body raises (60_exceptions R310).
-/

namespace Sys2Proof.Machine

/-- The sub-cause a body raises is in a list. -/
def Result.RaisesIn (l : List Cause) : Result → Prop
  | .raised c _ _ => c ∈ l
  | .ok _ | .stuck _ => True

theorem Result.RaisesIn.mono {l m : List Cause} {r : Result} (h : r.RaisesIn l) (hlm : l ⊆ m) : r.RaisesIn m := by
  cases r with
  | raised c i s => exact hlm h
  | _ => trivial

theorem Result.RaisesIn.andThen {l : List Cause} {r : Result} {f : State → Result} (h : r.RaisesIn l)
    (hf : ∀ s, (f s).RaisesIn l) : (r.andThen f).RaisesIn l := by
  cases r with
  | ok s => exact hf s
  | raised c i s => exact h
  | stuck e => trivial

theorem buildInitBody_raises (s : State) : (buildInitBody s).RaisesIn [.emptyMap] := by
  by_cases h : s.symCount = 0
  · rw [buildInitBody_empty s h]; exact List.mem_singleton.mpr rfl
  · rw [buildInitBody_ok s h]; trivial

theorem buildBody_raises (s : State) : (buildBody s).RaisesIn [.emptyMap] :=
  (buildInitBody_raises s).andThen fun _ => trivial

theorem buildStepBody_raises (n : Nat) (s : State) : (buildStepBody n s).RaisesIn [.notMerging] := by
  unfold buildStepBody
  split
  · trivial
  · exact List.mem_singleton.mpr rfl

theorem assignBody_raises (s : State) : (assignBody s).RaisesIn [.noTree] := by
  unfold assignBody
  split
  · split <;> trivial
  · exact List.mem_singleton.mpr rfl

theorem packBody_raises (s : State) : (packBody s).RaisesIn [.noCodes, .noCode, .outputOverflow] := by
  unfold packBody
  split
  · simp [Result.RaisesIn]
  · split
    · simp [Result.RaisesIn]
    · dsimp only
      split
      · simp [Result.RaisesIn]
      · trivial

/-- The sub-causes of a header defect, in the order of PARSE's checks. -/
def headerCauses : List Cause :=
  [.shortCount, .zeroCount, .countRange, .shortHeader, .zeroFreq, .dupSymbol, .padRange, .padEmpty]

theorem parseEntries_cause (s : State) (n i : Nat) (seen : List (Byte × Word)) {d : Cause × Nat}
    (h : s.parseEntries n i seen = .error d) : d.1 ∈ headerCauses := by
  induction n generalizing i seen with
  | zero => cases h
  | succ n ih =>
    unfold State.parseEntries at h
    dsimp only at h
    split at h
    · cases h; simp [headerCauses]
    · split at h
      · cases h; simp [headerCauses]
      · exact ih _ _ h

theorem parseHeader_cause (s : State) {d : Cause × Nat} (h : s.parseHeader = .error d) : d.1 ∈ headerCauses := by
  unfold State.parseHeader at h
  dsimp only at h
  split at h
  · cases h; simp [headerCauses]
  split at h
  · cases h; simp [headerCauses]
  split at h
  · cases h; simp [headerCauses]
  split at h
  · cases h; simp [headerCauses]
  split at h
  · rename_i e he
    cases h
    exact parseEntries_cause s _ _ _ he
  · split at h
    · cases h; simp [headerCauses]
    · split at h
      · cases h; simp [headerCauses]
      · cases h

theorem parseBody_raises (s : State) : (parseBody s).RaisesIn headerCauses := by
  unfold parseBody
  split
  · rename_i c info h; exact parseHeader_cause s h
  · trivial

theorem State.foldlM_decodeBit_cause (s : State) (bits : List Bool) (c : Cursor) {e : Cause}
    (h : bits.foldlM s.decodeBit c = .error e) : e = .outputOverflow := by
  have hemit : ∀ (c : Cursor) (b : Byte) (e : Cause), s.emit c b = .error e → e = .outputOverflow := by
    intro c b e h
    unfold State.emit at h
    split at h
    · cases h; rfl
    · cases h
  induction bits generalizing c with
  | nil => cases h
  | cons bit bits ih =>
    rw [List.foldlM_cons] at h
    cases hb : s.decodeBit c bit with
    | ok d => rw [hb] at h; exact ih d h
    | error e' =>
      rw [hb] at h
      have : e' = e := Except.error.inj h
      subst this
      unfold State.decodeBit at hb
      split at hb
      · exact hemit _ _ _ hb
      · dsimp only at hb
        split at hb
        · exact hemit _ _ _ hb
        · cases hb

theorem decodeBody_raises (s : State) : (decodeBody s).RaisesIn [.noHeader, .noTree, .outputOverflow, .midWalk] := by
  unfold decodeBody
  split
  · simp [Result.RaisesIn]
  · split
    · simp [Result.RaisesIn]
    · split
      · rename_i c h
        rw [s.foldlM_decodeBit_cause _ _ h]
        simp [Result.RaisesIn]
      · split
        · simp [Result.RaisesIn]
        · trivial

/-- COMPRESS raises only EMPTY_MAP and OutputOverflow (46_composite R290). -/
theorem compressBody_raises (s : State) : (compressBody s).RaisesIn [.emptyMap, .outputOverflow] := by
  by_cases h0 : s.inLen = 0
  · rw [compressBody_empty s h0]; simp [Result.RaisesIn]
  · obtain ⟨u, hu, he⟩ := compressBody_eq s h0
    rw [he, compress_pack s h0 hu]
    split
    · simp [Result.RaisesIn]
    · trivial

end Sys2Proof.Machine
end

