-- ==== Sys2Proof/Laws/Stages.lean ====
section
/-!
SUPPORT. The bodies read nothing that a completion writes, so a stage of a composite command may as well be a command of its own
(46_composite R290, R291); and what each command can raise.
-/

namespace Sys2Proof.Machine

/-- A body's result with its state changed. -/
def Result.map (f : State → State) : Result → Result
  | .ok s => .ok (f s)
  | .raised c i s => .raised c i (f s)
  | .stuck e => .stuck e

theorem loadLeaves_completed (bs : List Byte) (i : Nat) (s : State) :
    loadLeaves bs i s.completed = (loadLeaves bs i s).completed := by
  induction bs generalizing i s with
  | nil => rfl
  | cons b bs ih =>
    unfold loadLeaves
    exact ih (i + 1) (s.setNode (BitVec.ofNat 9 i) (leafSlot b (s.freqAt b)))

theorem State.built_completed (s : State) : s.completed.built = s.built.completed := by
  have h1 : s.completed.symCount = s.symCount := rfl
  have h2 : s.completed.presentSymbols = s.presentSymbols := rfl
  unfold State.built
  rw [h1, h2, loadLeaves_completed]
  rfl

theorem SameTree.completed (s : State) : SameTree s s.completed := ⟨rfl, rfl, rfl, rfl, rfl, fun _ => rfl, fun _ _ => rfl⟩

theorem mergeStep_completed (s : State) (hF : s.Forest) (h2 : 2 ≤ s.activeCount.toNat) :
    mergeStep s.completed = (mergeStep s).completed := by
  have hsel := (SameTree.completed s).selection hF h2
  have hn : ∀ a b : NodeIdx, s.completed.mergedNodes a b = s.mergedNodes a b := fun _ _ => rfl
  unfold mergeStep
  rw [hsel]
  simp only [hn]
  rfl

theorem mergeSteps_completed (n : Nat) (s : State) (h : s.TreeInv) :
    mergeSteps n s.completed = (mergeSteps n s).completed := by
  induction n generalizing s with
  | zero => rfl
  | succ n ih =>
    rw [mergeSteps_succ, mergeSteps_succ, State.completed_bstate]
    split
    · rename_i hm
      rw [mergeStep_completed s (h.forest (by rw [hm]; simp)) (h.merge hm)]
      exact ih _ (h.mergeStep hm)
    · rfl

theorem State.tree_completed (s : State) (hk : s.symCount ≠ 0) : s.completed.tree = s.tree.completed := by
  have h1 : s.completed.symCount = s.symCount := rfl
  unfold State.tree
  rw [h1, s.built_completed]
  exact mergeSteps_completed _ _ (s.built_treeInv hk)

theorem State.codeTable_completed (s : State) : s.completed.codeTable = s.codeTable :=
  State.codeTable_congr rfl rfl rfl rfl

theorem State.firstWithoutCode_completed (s : State) (bs : List Byte) (j : Nat) :
    s.completed.firstWithoutCode bs j = s.firstWithoutCode bs j := by
  induction bs generalizing j with
  | nil => rfl
  | cons b bs ih =>
    have h : s.completed.codeAt b = s.codeAt b := rfl
    unfold State.firstWithoutCode
    rw [h, ih]

theorem packBody_completed (s : State) : packBody s.completed = (packBody s).map State.completed := by
  have h1 : s.completed.inBytes = s.inBytes := rfl
  have h2 : ∀ bs, s.completed.payloadOf bs = s.payloadOf bs := fun _ => rfl
  have h3 : ∀ p, s.completed.container p = s.container p := fun _ => rfl
  have h4 : s.completed.symCount = s.symCount := rfl
  unfold packBody
  rw [h1, s.firstWithoutCode_completed, State.completed_codesValid]
  split
  · rfl
  · split
    · rfl
    · simp only [h2, h3, h4, State.completed_capOut]
      split <;> rfl

theorem decodeBody_completed (s : State) : decodeBody s.completed = (decodeBody s).map State.completed := by
  have h1 : s.completed.payloadBitList = s.payloadBitList := rfl
  have h2 : s.completed.decodeBit = s.decodeBit := rfl
  unfold decodeBody
  rw [h1, h2, State.completed_hdrValid, State.completed_bstate, State.completed_root, State.completed_strict]
  split
  · rfl
  · split
    · rfl
    · split
      · rfl
      · split <;> rfl

/-! ### The sub-causes of every command -/

/-- A header that PARSE accepts leaves a complete build, so DECOMPRESS raises no SequenceError (46_composite R291). -/
theorem decompressBody_raises (s : State) : (decompressBody s).RaisesIn (headerCauses ++ [.outputOverflow, .midWalk]) := by
  unfold decompressBody
  cases h : parseBody s with
  | raised c i t =>
    have hr := parseBody_raises s
    rw [h] at hr
    exact List.mem_append_left _ hr
  | stuck e => trivial
  | ok r =>
    show ((buildBody r).andThen decodeBody).RaisesIn (headerCauses ++ [.outputOverflow, .midWalk])
    have hk := parseBody_symCount h
    rw [buildBody_ok r hk]
    show (decodeBody r.tree).RaisesIn (headerCauses ++ [.outputOverflow, .midWalk])
    have hv : r.hdrValid = true := by
      unfold parseBody at h
      split at h
      · cases h
      · rw [← Result.ok.inj h]
    have hv' : r.tree.hdrValid = true := by rw [r.tree_frame]; exact hv
    have hd := r.tree_done hk
    unfold decodeBody
    rw [if_neg (by rw [hv']; simp), if_neg (by rw [hd]; simp)]
    split
    · rename_i hf
      rw [r.tree.foldlM_decodeBit_cause _ _ hf]
      show Cause.outputOverflow ∈ _
      decide
    · split
      · show Cause.midWalk ∈ _
        decide
      · trivial

/-- The sub-causes a command can raise (60_exceptions R310, R312). -/
def Instr.causes : Instr → List Cause
  | .nop | .clear | .scan => []
  | .build | .buildInit => [.emptyMap]
  | .buildStep _ => [.notMerging]
  | .assign => [.noTree]
  | .pack => [.noCodes, .noCode, .outputOverflow]
  | .parse => headerCauses
  | .decode => [.noHeader, .noTree, .outputOverflow, .midWalk]
  | .compress => [.emptyMap, .outputOverflow]
  | .decompress => headerCauses ++ [.outputOverflow, .midWalk]

theorem body_raises (i : Instr) (s : State) : (Instr.body i s).RaisesIn (Instr.causes i) := by
  cases i with
  | nop => trivial
  | clear => trivial
  | scan => trivial
  | build => exact buildBody_raises s
  | buildInit => exact buildInitBody_raises s
  | buildStep n => exact buildStepBody_raises n s
  | assign => exact assignBody_raises s
  | pack => exact packBody_raises s
  | parse => exact parseBody_raises s
  | decode => exact decodeBody_raises s
  | compress => exact compressBody_raises s
  | decompress => exact decompressBody_raises s

end Sys2Proof.Machine
end

