-- ==== Sys2Proof/Laws/Input.lean ====
section
/-!
SUPPORT. The block reads only IN_BUF[0 .. IN_LEN-1] (10_state R55, 70_reset R343): no command sees what stands past it.
-/

namespace Sys2Proof.Machine

/-- The same state with other contents of IN_BUF. -/
def State.withInput (s : State) (m : List Host.Cell) : State := { s with inBuf := m }

/-- Two contents of IN_BUF that agree below IN_LEN. -/
def State.sameInput (s : State) (m : List Host.Cell) : Prop := ∀ j < s.inLen.toNat, (s.withInput m).inByte j = s.inByte j

theorem State.inBytes_withInput {s : State} {m : List Host.Cell} (h : s.sameInput m) : (s.withInput m).inBytes = s.inBytes :=
  List.map_congr_left fun j hj => h j (List.mem_range.mp hj)

/-! ### Bodies that read no input -/

theorem loadLeaves_withInput (bs : List Byte) (i : Nat) (s : State) (m : List Host.Cell) :
    loadLeaves bs i (s.withInput m) = (loadLeaves bs i s).withInput m := by
  induction bs generalizing i s with
  | nil => rfl
  | cons b bs ih => exact ih (i + 1) (s.setNode (BitVec.ofNat 9 i) (leafSlot b (s.freqAt b)))

theorem buildInitBody_withInput (s : State) (m : List Host.Cell) :
    buildInitBody (s.withInput m) = (buildInitBody s).map (·.withInput m) := by
  have h1 : (s.withInput m).symCount = s.symCount := rfl
  have h2 : (s.withInput m).presentSymbols = s.presentSymbols := rfl
  unfold buildInitBody
  simp only [h1, h2, loadLeaves_withInput]
  split <;> rfl

theorem State.argmin_withInput (s : State) (m : List Host.Cell) (l : List NodeIdx) :
    (s.withInput m).argmin l = s.argmin l := by
  induction l with
  | nil => rfl
  | cons i l ih =>
    have h : ∀ i j, (s.withInput m).keyLt i j = s.keyLt i j := fun _ _ => rfl
    simp only [State.argmin, ih, h]

theorem mergeStep_withInput (s : State) (m : List Host.Cell) :
    mergeStep (s.withInput m) = (mergeStep s).withInput m := by
  have h1 : (s.withInput m).activeSet = s.activeSet := rfl
  have h2 : (s.withInput m).selection = s.selection := by
    unfold State.selection
    simp only [h1, State.argmin_withInput]
    rfl
  have h3 : ∀ a b, (s.withInput m).mergedNodes a b = s.mergedNodes a b := fun _ _ => rfl
  unfold mergeStep
  rw [h2]
  simp only [h3]
  rfl

theorem mergeSteps_withInput (n : Nat) (s : State) (m : List Host.Cell) :
    mergeSteps n (s.withInput m) = (mergeSteps n s).withInput m := by
  induction n generalizing s with
  | zero => rfl
  | succ n ih =>
    rw [mergeSteps_succ, mergeSteps_succ]
    show (if s.bstate = .merge then _ else _) = _
    split
    · rw [mergeStep_withInput, ih]
    · rfl

theorem buildStepBody_withInput (n : Nat) (s : State) (m : List Host.Cell) :
    buildStepBody n (s.withInput m) = (buildStepBody n s).map (·.withInput m) := by
  unfold buildStepBody
  rw [mergeSteps_withInput]
  show (if s.bstate = .merge then _ else _) = _
  split <;> rfl

theorem buildBody_withInput (s : State) (m : List Host.Cell) :
    buildBody (s.withInput m) = (buildBody s).map (·.withInput m) := by
  have h : (s.withInput m).symCount = s.symCount := rfl
  unfold buildBody
  rw [buildInitBody_withInput, h]
  cases buildInitBody s with
  | ok t => exact congrArg Result.ok (mergeSteps_withInput _ t m)
  | raised => rfl
  | stuck => rfl

theorem assignBody_withInput (s : State) (m : List Host.Cell) :
    assignBody (s.withInput m) = (assignBody s).map (·.withInput m) := by
  have h : (s.withInput m).codeTable = s.codeTable := State.codeTable_congr rfl rfl rfl rfl
  unfold assignBody
  rw [h]
  show (if s.bstate = .done then _ else _) = _
  split
  · split <;> rfl
  · rfl

/-! ### Bodies that read the input -/

theorem scanBody_withInput {s : State} {m : List Host.Cell} (h : s.sameInput m) :
    scanBody (s.withInput m) = (scanBody s).withInput m := by
  unfold scanBody
  rw [State.inBytes_withInput h]
  rfl

theorem State.firstWithoutCode_withInput (s : State) (m : List Host.Cell) (bs : List Byte) (j : Nat) :
    (s.withInput m).firstWithoutCode bs j = s.firstWithoutCode bs j := by
  induction bs generalizing j with
  | nil => rfl
  | cons b bs ih =>
    have h : (s.withInput m).codeAt b = s.codeAt b := rfl
    unfold State.firstWithoutCode
    rw [h, ih]

theorem packBody_withInput {s : State} {m : List Host.Cell} (h : s.sameInput m) :
    packBody (s.withInput m) = (packBody s).map (·.withInput m) := by
  have h2 : ∀ bs, (s.withInput m).payloadOf bs = s.payloadOf bs := fun _ => rfl
  have h3 : ∀ p, (s.withInput m).container p = s.container p := fun _ => rfl
  have h4 : (s.withInput m).symCount = s.symCount := rfl
  have h5 : (s.withInput m).capOut = s.capOut := rfl
  unfold packBody
  rw [State.inBytes_withInput h, State.firstWithoutCode_withInput]
  show (if s.codesValid = false then _ else _) = _
  split
  · rfl
  · split
    · rfl
    · simp only [h2, h3, h4, h5]
      split <;> rfl

theorem State.parseEntries_withInput {s : State} {m : List Host.Cell} (h : s.sameInput m) (n i : Nat)
    (seen : List (Byte × Word)) (hi : 2 + 5 * (i + n) < s.inLen.toNat) :
    (s.withInput m).parseEntries n i seen = s.parseEntries n i seen := by
  induction n generalizing i seen with
  | zero => rfl
  | succ n ih =>
    have hb : (s.withInput m).inByte (2 + 5 * i) = s.inByte (2 + 5 * i) := h _ (by omega)
    have hf : (s.withInput m).be32 (2 + 5 * i + 1) = s.be32 (2 + 5 * i + 1) := by
      unfold State.be32
      rw [h _ (by omega), h _ (by omega), h _ (by omega), h _ (by omega)]
    unfold State.parseEntries
    simp only [hb, hf, ih (i + 1) _ (by omega)]

theorem State.parseHeader_withInput {s : State} {m : List Host.Cell} (h : s.sameInput m) :
    (s.withInput m).parseHeader = s.parseHeader := by
  have hl : (s.withInput m).inLen = s.inLen := rfl
  unfold State.parseHeader
  simp only [hl]
  by_cases h2 : s.inLen.toNat < 2
  · rw [if_pos h2, if_pos h2]
  have hk : (s.withInput m).be16 0 = s.be16 0 := by
    unfold State.be16
    rw [h _ (by omega), h _ (by omega)]
  rw [hk]
  by_cases h3 : s.inLen.toNat < headerSize (s.be16 0)
  · simp only [if_pos h3]
  unfold headerSize at h3 ⊢
  rw [State.parseEntries_withInput h _ _ _ (by omega), h (2 + 5 * s.be16 0) (by omega)]

theorem parseBody_withInput {s : State} {m : List Host.Cell} (h : s.sameInput m) :
    parseBody (s.withInput m) = (parseBody s).map (·.withInput m) := by
  unfold parseBody
  rw [State.parseHeader_withInput h]
  split
  · rfl
  · rename_i entries pad he
    have h2 := (s.parseHeader_ok he).2.2.1
    unfold headerSize at h2
    have hk : (s.withInput m).be16 0 = s.be16 0 := by
      unfold State.be16
      rw [h _ (by omega), h _ (by omega)]
    simp only [hk]
    rfl

theorem State.payloadBitList_withInput {s : State} {m : List Host.Cell} (h : s.sameInput m) :
    (s.withInput m).payloadBitList = s.payloadBitList := by
  refine List.map_congr_left fun j _ => ?_
  show (s.withInput m).inputBit s.payloadOff.toNat j = _
  unfold State.inputBit State.payloadBit
  show (if s.payloadOff.toNat + j / 8 < s.inLen.toNat then _ else _) = _
  split
  · rename_i hj
    rw [h _ hj]
  · rfl

theorem decodeBody_withInput {s : State} {m : List Host.Cell} (h : s.sameInput m) :
    decodeBody (s.withInput m) = (decodeBody s).map (·.withInput m) := by
  have h2 : (s.withInput m).decodeBit = s.decodeBit := rfl
  unfold decodeBody
  rw [State.payloadBitList_withInput h, h2]
  show (if s.hdrValid = false then _ else if s.bstate ≠ .done then _ else _) = _
  split
  · rfl
  · split
    · rfl
    · have h3 : (s.withInput m).root = s.root := rfl
      have h4 : (s.withInput m).strict = s.strict := rfl
      rw [h3, h4]
      split
      · rfl
      · split <;> rfl

/-! ### Commands -/

theorem State.sameInput.keep {s t : State} {m : List Host.Cell} (h : s.sameInput m) (ht : Keeps s t) : t.sameInput m := by
  intro j hj
  have e1 : t.inLen = s.inLen := by rw [ht]
  have e2 : t.inByte j = s.inByte j := by rw [ht]; rfl
  have e3 : (t.withInput m).inByte j = (s.withInput m).inByte j := by rw [ht]; rfl
  rw [e2, e3]
  exact h j (by rw [← e1]; exact hj)

/-- A body that sees no difference past IN_LEN, run after a body. -/
theorem Result.andThen_withInput {r : Result} {f : State → Result} {m : List Host.Cell} {s : State}
    (hr : r.All (BodyStep s)) (hs : s.sameInput m)
    (hf : ∀ t, t.sameInput m → f (t.withInput m) = (f t).map (·.withInput m)) :
    (r.map (·.withInput m)).andThen f = (r.andThen f).map (·.withInput m) := by
  cases r with
  | ok t => exact hf t (hs.keep hr.1)
  | raised => rfl
  | stuck => rfl

theorem compressBody_withInput {s : State} {m : List Host.Cell} (h : s.sameInput m) :
    compressBody (s.withInput m) = (compressBody s).map (·.withInput m) := by
  have h1 := h.keep (scanBody_step s).1
  unfold compressBody
  rw [scanBody_withInput h, buildBody_withInput, Result.andThen_withInput (buildBody_step _) h1
    fun t _ => assignBody_withInput t m]
  exact Result.andThen_withInput (All_andThen_step (buildBody_step _) assignBody_step) h1 fun _ => packBody_withInput

theorem decompressBody_withInput {s : State} {m : List Host.Cell} (h : s.sameInput m) :
    decompressBody (s.withInput m) = (decompressBody s).map (·.withInput m) := by
  unfold decompressBody
  rw [parseBody_withInput h, Result.andThen_withInput (parseBody_step s) h fun t _ => buildBody_withInput t m]
  exact Result.andThen_withInput (All_andThen_step (parseBody_step s) buildBody_step) h fun _ => decodeBody_withInput

theorem body_withInput (i : Instr) {s : State} {m : List Host.Cell} (h : s.sameInput m) :
    Instr.body i (s.withInput m) = (Instr.body i s).map (·.withInput m) := by
  cases i with
  | nop => rfl
  | clear => rfl
  | scan => exact congrArg Result.ok (scanBody_withInput h)
  | build => exact buildBody_withInput s m
  | buildInit => exact buildInitBody_withInput s m
  | buildStep n => exact buildStepBody_withInput n s m
  | assign => exact assignBody_withInput s m
  | pack => exact packBody_withInput h
  | parse => exact parseBody_withInput h
  | decode => exact decodeBody_withInput h
  | compress => exact compressBody_withInput h
  | decompress => exact decompressBody_withInput h

/-- No command sees what IN_BUF holds at IN_LEN and above (10_state R55, 70_reset R343). -/
theorem exec_withInput {i : Instr} {s t : State} {m : List Host.Cell} (hs : s.sameInput m) (h : exec i s = .next t) :
    exec i (s.withInput m) = .next (t.withInput m) := by
  rw [exec_eq] at h ⊢
  rw [body_withInput i hs]
  cases hr : Instr.body i s with
  | ok u => rw [hr] at h; cases h; rfl
  | raised c info u => rw [hr] at h; cases h; rfl
  | stuck e => rw [hr] at h; cases h

end Sys2Proof.Machine
end

