-- ==== Sys2Proof/Laws/PerInstr.lean ====
section
/-!
SUPPORT. What holds of every command as syntax: the fields of its word (30_encoding R110, R111, R113).
-/

namespace Sys2Proof.Laws.EncodeFields

/-- The word of a command has its opcode, its operand (0 for every command but BUILD_STEP) and RSV = 0 in its three fields. -/
def Statement (i : Instr) : Prop :=
  opField (encode i) = i.opcode ∧ argField (encode i) = i.arg ∧ rsvField (encode i) = 0 ∧
    (i.opcode ≠ 0x22 → i.arg = 0)

/-- Every command has them, whatever its operand. -/
theorem of (i : Instr) (h : i.opcode ≠ 0x22 → i.arg = 0) : Statement i :=
  ⟨opField_encode i, argField_encode i, rsvField_encode i, h⟩

theorem nop : Statement .nop := of _ fun _ => rfl
theorem clear : Statement .clear := of _ fun _ => rfl
theorem scan : Statement .scan := of _ fun _ => rfl
theorem build : Statement .build := of _ fun _ => rfl
theorem buildInit : Statement .buildInit := of _ fun _ => rfl
theorem buildStep (count : Nat) : Statement (.buildStep count) := of _ fun h => absurd rfl h
theorem assign : Statement .assign := of _ fun _ => rfl
theorem pack : Statement .pack := of _ fun _ => rfl
theorem parse : Statement .parse := of _ fun _ => rfl
theorem decode : Statement .decode := of _ fun _ => rfl
theorem compress : Statement .compress := of _ fun _ => rfl
theorem decompress : Statement .decompress := of _ fun _ => rfl

end Sys2Proof.Laws.EncodeFields
end

