-- ==== Sys2Proof/Laws/Rank.lean ====
section
/-!
SUPPORT. The number of present symbols and the index of each among them (10_state R40, 42_tree_builder R182).
-/

namespace Sys2Proof.Machine

/-- The number of non-zero entries among the first n. -/
def nonZeroBefore (fs : List Word) (n : Nat) : Nat := (List.range n).countP fun m => fs.getD m 0 ≠ 0

theorem nonZeroBefore_cons (f : Word) (fs : List Word) (n : Nat) :
    nonZeroBefore (f :: fs) (n + 1) = (if f = 0 then 0 else 1) + nonZeroBefore fs n := by
  unfold nonZeroBefore
  rw [List.range_succ_eq_map, List.countP_cons, List.countP_map, Nat.add_comm]
  congr 1
  by_cases h : f = 0
  · simp [h]
  · simp only [h, if_false]; simp; exact h

theorem presentFrom_length_eq (fs : List Word) (i : Nat) : (presentFrom i fs).length = nonZeroBefore fs fs.length := by
  induction fs generalizing i with
  | nil => rfl
  | cons f fs ih =>
    rw [List.length_cons, nonZeroBefore_cons]
    unfold presentFrom
    split
    · rw [ih]; omega
    · rw [List.length_cons, ih]; omega

theorem getElem?_presentFrom (fs : List Word) (i n : Nat) (hn : n < fs.length) (hne : fs.getD n 0 ≠ 0) :
    (presentFrom i fs)[nonZeroBefore fs n]? = some (BitVec.ofNat 8 (i + n)) := by
  induction fs generalizing i n with
  | nil => simp at hn
  | cons f fs ih =>
    cases n with
    | zero =>
      have hf : f ≠ 0 := by simpa using hne
      unfold presentFrom
      rw [if_neg hf]
      rfl
    | succ n =>
      have h1 : n < fs.length := by simpa using hn
      have h2 : fs.getD n 0 ≠ 0 := by simpa using hne
      have e : i + (n + 1) = i + 1 + n := by omega
      rw [nonZeroBefore_cons, e]
      unfold presentFrom
      split
      · rw [Nat.zero_add]; exact ih (i + 1) n h1 h2
      · rw [Nat.add_comm 1 (nonZeroBefore fs n), List.getElem?_cons_succ]; exact ih (i + 1) n h1 h2

theorem State.freq_getD (s : State) (n : Nat) (hn : n < 256) : s.freq.toList.getD n 0 = s.freqAt (BitVec.ofNat 8 n) := by
  unfold State.freqAt
  have e : (BitVec.ofNat 8 n).toNat = n := by rw [BitVec.toNat_ofNat, Nat.mod_eq_of_lt (by omega)]
  rw [List.getD_eq_getElem _ _ (by simpa using hn)]
  simp only [Vector.getElem_toList, e]

/-- A present symbol stands at the index of its rank (42_tree_builder R183). -/
theorem State.getElem?_rank (s : State) (b : Byte) (hb : s.freqAt b ≠ 0) : s.presentSymbols[s.rank b]? = some b := by
  have hlen : s.freq.toList.length = 256 := by simp
  have hn := b.isLt
  have e : s.rank b = nonZeroBefore s.freq.toList b.toNat := by
    unfold State.rank nonZeroBefore
    refine List.countP_congr fun m hm => ?_
    rw [List.mem_range] at hm
    rw [s.freq_getD m (by omega)]
  unfold State.presentSymbols
  rw [e, getElem?_presentFrom _ 0 b.toNat (by omega) (by rw [s.freq_getD _ hn]; simpa using hb)]
  simp

theorem State.rank_lt (s : State) (b : Byte) (hb : s.freqAt b ≠ 0) : s.rank b < s.symCount := by
  obtain ⟨h, -⟩ := List.getElem?_eq_some_iff.mp (s.getElem?_rank b hb)
  exact h

theorem State.symCount_eq_nonZero (s : State) : s.symCount = nonZeroBefore s.freq.toList 256 := by
  unfold State.symCount State.presentSymbols
  rw [presentFrom_length_eq]
  simp

theorem State.alphabetSize_eq_nonZero (s : State) : s.alphabetSize = nonZeroBefore s.freq.toList 256 := by
  unfold State.alphabetSize nonZeroBefore
  refine List.countP_congr fun m hm => ?_
  rw [List.mem_range] at hm
  rw [s.freq_getD m hm]

end Sys2Proof.Machine
end

