-- ==== Sys2Proof/Laws/Walk.lean ====
section
/-!
SUPPORT. The decode walk on any payload (45_container_decode R270 to R275): whole codes, the incomplete one, the output's
limit, and how deep a path goes (43_codec_table R213).
-/

namespace Sys2Proof.Machine

/-- A path from ROOT in the terms of the walk. -/
theorem State.isPath_iff (s : State) (p : List Bool) (b : Byte) : s.IsPath p b ↔ p ≠ [] ∧ s.Ends s.root p b.toNat :=
  ⟨fun h => ⟨h.nonempty, h.leaf, by rw [h.symbol], h.inner⟩,
    fun h => ⟨h.1, h.2.inner, h.2.leaf, BitVec.eq_of_toNat_eq h.2.symbol⟩⟩

/-- The string p leads from node i through internal nodes only, its end included. -/
def State.Inner (s : State) (i : NodeIdx) (p : List Bool) : Prop :=
  ∀ m, 1 ≤ m → m ≤ p.length → (s.nodeAt (s.follow i (p.take m))).kind = .internal

theorem State.Inner.of_cons {s : State} {i : NodeIdx} {d : Bool} {p : List Bool} (h : s.Inner i (d :: p)) :
    (s.nodeAt (s.branch i d)).kind = .internal ∧ s.Inner (s.branch i d) p := by
  refine ⟨h 1 (le_refl 1) (by simp), fun m h1 h2 => ?_⟩
  have h3 := h (m + 1) (by omega) (by simpa using h2)
  rw [List.take_succ_cons] at h3
  exact h3

theorem State.Inner.cons {s : State} {i : NodeIdx} {d : Bool} {p : List Bool}
    (hd : (s.nodeAt (s.branch i d)).kind = .internal) (h : s.Inner (s.branch i d) p) : s.Inner i (d :: p) := by
  intro m h1 h2
  cases m with
  | zero => omega
  | succ m =>
    simp only [List.take_succ_cons, State.follow]
    cases m with
    | zero => exact hd
    | succ m => exact h (m + 1) (by omega) (by simpa using h2)

/-! ### Depth -/

/-- Each internal node on the way down has a smaller index, and none is below k (42_tree_builder R189). -/
theorem State.Forest.inner_length {s : State} (h : s.Forest) (i : NodeIdx) (hi : i.toNat < s.nodeCount.toNat)
    (hk : (s.nodeAt i).kind = .internal) (p : List Bool) (hp : s.Inner i p) : p.length + s.symCount ≤ i.toNat := by
  induction p generalizing i with
  | nil => simpa using ((h.kind i hi).2).mp hk
  | cons d p ih =>
    obtain ⟨h1, h2⟩ := hp.of_cons
    have hlt : (s.branch i d).toNat < i.toNat := h.child_lt hi hk d
    have := ih _ (by omega) h1 h2
    rw [List.length_cons]
    omega

/-- A path below an internal node is no longer than the internal nodes are many (43_codec_table R213). -/
theorem State.Forest.ends_length {s : State} (h : s.Forest) (i : NodeIdx) (hi : i.toNat < s.nodeCount.toNat)
    (p : List Bool) (b : Nat) (hp : s.Ends i p b) (hne : p ≠ []) : p.length + s.symCount ≤ i.toNat + 1 := by
  have hk : (s.nodeAt i).kind = .internal := hp.inner 0 (List.length_pos_iff.mpr hne)
  have hl : (p.take (p.length - 1)).length = p.length - 1 := by rw [List.length_take]; omega
  have hin : s.Inner i (p.take (p.length - 1)) := by
    intro m h1 h2
    rw [hl] at h2
    rw [List.take_take, Nat.min_eq_left h2]
    exact hp.inner m (by omega)
  have := h.inner_length i hi hk _ hin
  have := List.length_pos_iff.mpr hne
  omega

/-! ### The walk -/

/-- The walk along the incomplete code (45_container_decode R275). -/
theorem State.foldlM_decodeBit_inner (s : State) (hs : s.single = false) (p : List Bool) (i : NodeIdx) (n : Nat)
    (out : List Byte) (h : s.Inner i p) :
    p.foldlM s.decodeBit ⟨i, n, out⟩ = .ok ⟨s.follow i p, n + p.length, out⟩ := by
  induction p generalizing i n with
  | nil => rfl
  | cons d p ih =>
    obtain ⟨h1, h2⟩ := h.of_cons
    rw [List.foldlM_cons, s.decodeBit_internal hs ⟨i, n, out⟩ d h1]
    have := ih _ (n + 1) h2
    rw [List.length_cons]
    show p.foldlM s.decodeBit ⟨s.branch i d, n + 1, out⟩ = _
    rw [this, Nat.add_assoc, Nat.add_comm 1]
    rfl

/-- The walk along a code when the output is full (45_container_decode R274). -/
theorem State.foldlM_decodeBit_full (s : State) (hs : s.single = false) (q : List Bool) (i : NodeIdx) (b n : Nat)
    (out : List Byte) (h : s.Ends i q b) (hq : q ≠ []) (ho : out.length = s.capOut.toNat) :
    q.foldlM s.decodeBit ⟨i, n, out⟩ = .error .outputOverflow := by
  induction q generalizing i n with
  | nil => exact absurd rfl hq
  | cons d q ih =>
    have h2 : s.Ends (s.branch i d) q b := h.of_cons.2
    rw [List.foldlM_cons]
    cases q with
    | nil =>
      have hl : (s.nodeAt (s.branch i d)).kind = .leaf := h2.leaf
      rw [s.decodeBit_leaf hs _ _ hl]
      unfold State.emit
      simp only [if_pos ho]
      rfl
    | cons e q =>
      have hl : (s.nodeAt (s.branch i d)).kind = .internal := h2.inner 0 (by simp)
      rw [s.decodeBit_internal hs ⟨i, n, out⟩ d hl]
      exact ih _ _ h2 (by simp)

/-- The walk along whole codes (45_container_decode R270): their symbols, or OutputOverflow (R274). -/
theorem State.foldlM_decodeBit_paths (s : State) (hs : s.single = false) (codes : List (Byte × List Bool))
    (out : List Byte) (h : ∀ c ∈ codes, s.IsPath c.2 c.1) (ho : out.length ≤ s.capOut.toNat) :
    (out.length + codes.length ≤ s.capOut.toNat →
      (codes.flatMap Prod.snd).foldlM s.decodeBit ⟨s.root, 0, out⟩ = .ok ⟨s.root, 0, out ++ codes.map Prod.fst⟩) ∧
    (s.capOut.toNat < out.length + codes.length →
      (codes.flatMap Prod.snd).foldlM s.decodeBit ⟨s.root, 0, out⟩ = .error .outputOverflow) := by
  induction codes generalizing out with
  | nil =>
    refine ⟨fun _ => by simp; rfl, fun hlt => ?_⟩
    rw [List.length_nil] at hlt
    omega
  | cons c codes ih =>
    obtain ⟨hne, hp⟩ := (s.isPath_iff _ _).mp (h c List.mem_cons_self)
    rw [List.flatMap_cons, List.foldlM_append, List.length_cons]
    by_cases hfull : out.length = s.capOut.toNat
    · rw [s.foldlM_decodeBit_full hs c.2 s.root _ 0 out hp hne hfull]
      exact ⟨fun hle => by omega, fun _ => rfl⟩
    · rw [s.foldlM_decodeBit_ends hs c.2 s.root c.1 0 out hp hne hfull]
      have := ih (out ++ [c.1]) (fun d hd => h d (List.mem_cons_of_mem _ hd)) (by simp; omega)
      rw [List.length_append, List.length_singleton, List.append_assoc] at this
      rw [List.map_cons]
      exact ⟨fun hle => this.1 (by omega), fun hlt => this.2 (by omega)⟩

/-- The walk on a single-leaf tree (45_container_decode R272): one symbol for each bit, or OutputOverflow. -/
theorem State.foldlM_decodeBit_single (s : State) (hs : s.single = true) (bits : List Bool) (c : Cursor)
    (ho : c.out.length ≤ s.capOut.toNat) :
    (c.out.length + bits.length ≤ s.capOut.toNat → c.cur = s.root → c.pending = 0 →
      bits.foldlM s.decodeBit c =
        .ok ⟨s.root, 0, c.out ++ List.replicate bits.length (s.nodeAt s.root).symbol⟩) ∧
    (s.capOut.toNat < c.out.length + bits.length → bits.foldlM s.decodeBit c = .error .outputOverflow) := by
  induction bits generalizing c with
  | nil =>
    refine ⟨fun _ h1 h2 => ?_, fun hlt => ?_⟩
    · cases c; subst h1 h2; simp; rfl
    · rw [List.length_nil] at hlt; omega
  | cons bit bits ih =>
    rw [List.foldlM_cons, List.length_cons]
    by_cases hfull : c.out.length = s.capOut.toNat
    · refine ⟨fun hle => by omega, fun _ => ?_⟩
      unfold State.decodeBit State.emit
      rw [hs]
      simp only [hfull, if_true]
      rfl
    · rw [s.decodeBit_single hs bit c hfull]
      have hnext := ih ⟨s.root, 0, c.out ++ [(s.nodeAt s.root).symbol]⟩ (by simp; omega)
      have hl : (c.out ++ [(s.nodeAt s.root).symbol]).length = c.out.length + 1 := by simp
      refine ⟨fun hle _ _ => ?_, fun hlt => hnext.2 (by simp only [hl]; omega)⟩
      have h1 := hnext.1 (by simp only [hl]; omega) rfl rfl
      rw [List.append_assoc] at h1
      rw [List.replicate_succ]
      exact h1

/-- From an internal node a string either stays at internal nodes or has a first leaf on its way. -/
theorem State.Forest.inner_or_ends {s : State} (h : s.Forest) (i : NodeIdx) (hi : i.toNat < s.nodeCount.toNat)
    (hk : (s.nodeAt i).kind = .internal) (bits : List Bool) :
    s.Inner i bits ∨ ∃ (q r : List Bool) (b : Byte), bits = q ++ r ∧ q ≠ [] ∧ s.Ends i q b.toNat := by
  induction bits generalizing i with
  | nil => exact .inl fun m h1 h2 => absurd h2 (by simp; omega)
  | cons d bits ih =>
    have hlt : (s.branch i d).toNat < i.toNat := h.child_lt hi hk d
    cases hc : (s.nodeAt (s.branch i d)).kind with
    | leaf =>
      refine .inr ⟨[d], bits, (s.nodeAt (s.branch i d)).symbol, rfl, by simp, State.Ends.cons hk ⟨hc, rfl, ?_⟩⟩
      intro m hm
      simp at hm
    | internal =>
      rcases ih _ (by omega) hc with hin | ⟨q, r, b, he, hq, hend⟩
      · exact .inl (State.Inner.cons hc hin)
      · exact .inr ⟨d :: q, r, b, by rw [he]; rfl, by simp, State.Ends.cons hk hend⟩

end Sys2Proof.Machine
end

