-- ==== Sys2Proof/Tests/Slice0.lean ====
section
/-!
SUPPORT. Tests against the spec's own vectors (95_test_vectors), and, for every obligation with hypotheses, a state and operands
that meet them.
-/

namespace Sys2Proof.Tests

open Sys2Proof.Machine

-- One theorem after another: the kernel evaluations below, all at once, take more threads than the sandbox gives.
set_option Elab.async false

/-! ### Well-formedness and decoding (30_encoding R111, R113, R114) -/

theorem test_illFormed_count : (Instr.buildStep 65536).wf = false := by decide
theorem test_wellFormed_count : (Instr.buildStep 65535).wf = true := by decide

/-- 30_encoding R113: control family. -/
theorem test_decode_clear : decode 0b00000000000000000000000000000001 = .ok .clear := by decide
/-- 30_encoding R113: frequency scan. -/
theorem test_decode_scan : decode 0b00000000000000000000000000010000 = .ok .scan := by decide
/-- 30_encoding R113: tree builder; V-DEC2 has the merge count 3 in bits 23:8. -/
theorem test_decode_buildStep : decode 0b00000000000000000000001100100010 = .ok (.buildStep 3) := by decide
/-- V-DEC3. -/
theorem test_decode_buildStep_max : decode 0b00000000111111111111111100100010 = .ok (.buildStep 65535) := by decide
theorem test_decode_buildInit : decode 0b00000000000000000000000000100001 = .ok .buildInit := by decide
theorem test_decode_build : decode 0b00000000000000000000000000100000 = .ok .build := by decide
/-- 30_encoding R113: code table, pack. -/
theorem test_decode_assign : decode 0b00000000000000000000000000110000 = .ok .assign := by decide
theorem test_decode_pack : decode 0b00000000000000000000000001000000 = .ok .pack := by decide
/-- 30_encoding R113: container. -/
theorem test_decode_parse : decode 0b00000000000000000000000001010000 = .ok .parse := by decide
theorem test_decode_decode : decode 0b00000000000000000000000001010001 = .ok .decode := by decide
/-- 30_encoding R113: composites. -/
theorem test_decode_compress : decode 0b00000000000000000000000010000000 = .ok .compress := by decide
theorem test_decode_decompress : decode 0b00000000000000000000000010000001 = .ok .decompress := by decide
theorem test_decode_nop : decode 0b00000000000000000000000000000000 = .ok .nop := by decide
/-- V-DEC4, V-DEC6: BAD_OPCODE, checked before BAD_FIELD. -/
theorem test_badOpcode : decode 0x00000002 = .error .badOpcode ∧ decode 0xFFFFFFFF = .error .badOpcode := by decide
/-- V-DEC7 to V-DEC10: BAD_FIELD. -/
theorem test_badField : decode 0x00000110 = .error .badField ∧ decode 0x01000020 = .error .badField ∧
    decode 0x01000022 = .error .badField ∧ decode 0x00008081 = .error .badField := by decide

/-! ### States to run on -/

/-- Accept the command and complete it. -/
def go (i : Instr) (s : State) : State :=
  match exec i (s.accept (encode i)) with
  | .next t => t
  | .fault _ | .refused _ => s

/-- The reset state of a block of the given OUT_CAP, with the given bytes in IN_BUF. -/
def limited (cout : Word) (bs : List Byte) : State :=
  { State.resetOf Config.inCap cout with inBuf := Cells.ofList 0 bs, inLen := BitVec.ofNat 32 bs.length }

/-- The reset state with the given bytes in IN_BUF. -/
def loaded (bs : List Byte) : State := limited Config.outCap bs

/-- The reset state with the given counts in FREQ. -/
def counted (es : List (Byte × Word)) : State := { State.reset with freq := freqOfEntries es }

/-- The container of "aaab" (V-PCK1). -/
def containerAaab : List Byte := [0x00, 0x02, 0x61, 0, 0, 0, 3, 0x62, 0, 0, 0, 1, 0x04, 0x10]

/-- The container of "abracadabra" (V-PCK2). -/
def containerC11 : List Byte := [0x00, 0x05, 0x61, 0, 0, 0, 5, 0x62, 0, 0, 0, 2, 0x63, 0, 0, 0, 1, 0x64, 0, 0, 0, 1,
  0x72, 0, 0, 0, 2, 0x01, 0x91, 0x75, 0x22]

/-- "aaab". -/
def aaab : List Byte := [0x61, 0x61, 0x61, 0x62]

/-- "abracadabra". -/
def abracadabra : List Byte := [0x61, 0x62, 0x72, 0x61, 0x63, 0x61, 0x64, 0x61, 0x62, 0x72, 0x61]

/-- The counts of "aaab". -/
def countedAaab : State := counted [(0x61, 3), (0x62, 1)]

/-- The counts and the input "aaab". -/
def inputAaab : State := { loaded aaab with freq := countedAaab.freq }

/-- V-BLD1 after BUILD_INIT, after BUILD; V-ASG1; V-BLD8c, a single leaf. -/
def merging : State := go .buildInit inputAaab
def built : State := go .build inputAaab
def assigned : State := go .assign built
def singleLeaf : State := go .build (counted [(0x78, 1)])

/-- The bytes of OUT_BUF below OUT_LEN. -/
def output (s : State) : List Byte := (List.range s.outLen.toNat).map s.outByte

/-! ### One command each (40_control to 46_composite) -/

/-- V-CTL1: NOP after a failed PARSE. -/
theorem test_nop : (go .nop (go .parse (loaded [0, 0]))).statusWord = 0x02 ∧
    (go .nop (go .parse (loaded [0, 0]))).errcodeWord = 0 := by decide +kernel

/-- V-CTL4: NOP leaves HOST_VIOL. -/
theorem test_nop_hostViol : (go .nop { State.reset with hostViol := true }).statusWord = 0x82 := by decide +kernel

/-- V-CTL2: CLEAR after COMPRESS of "aaab". -/
theorem test_clear : ∀ s, s = go .clear (go .compress (loaded aaab)) → s.statusWord = 0x02 ∧ s.symCount = 0 ∧
    s.outLen = 0 ∧ s.nodeCount = 0 ∧ s.padding = 0 ∧ s.payloadBits = 0 ∧ s.inLen = 4 := by
  intro s h
  rw [h]
  decide +kernel

/-- V-SCN1. -/
theorem test_scan : ∀ s, s = go .scan (loaded aaab) →
    s.freqAt 0x61 = 3 ∧ s.freqAt 0x62 = 1 ∧ s.symCount = 2 ∧ s.statusWord = 0x02 := by
  intro s h
  rw [h]
  decide +kernel

/-- V-SCN2: only IN_LEN bytes count. -/
theorem test_scan_short : ∀ s, s = go .scan { loaded aaab with inLen := 2 } →
    s.freqAt 0x61 = 2 ∧ s.freqAt 0x62 = 0 ∧ s.symCount = 1 := by
  intro s h
  rw [h]
  decide +kernel

/-- V-BLD1: BUILD_INIT. -/
theorem test_buildInit : merging.idleValue (.node 0 1) = 0x00610200 ∧ merging.idleValue (.node 1 0) = 1 ∧
    merging.idleValue (.node 1 1) = 0x00620200 ∧ merging.nodeCount = 2 ∧ merging.statusWord = 0x102 := by decide +kernel

/-- V-BLD8a: the empty map. -/
theorem test_buildInit_empty : ∀ s, s = go .buildInit State.reset → s.errcodeWord = 0x00210101 ∧ s.statusWord = 0x06 := by
  intro s h
  rw [h]
  decide +kernel

/-- V-BLD1: the merge (1, 0 → 2, 4): the first removed is ONE. -/
theorem test_buildStep : ∀ s, s = go (.buildStep 1) merging → s.idleValue (.node 2 0) = 4 ∧
    s.idleValue (.node 2 1) = 0x00000300 ∧ s.idleValue (.node 2 2) = 0x00010000 ∧ s.idleValue (.node 0 1) = 0x00610000 ∧
    s.root = 2 ∧ s.activeCount = 1 ∧ s.statusWord = 0x20A := by
  intro s h
  rw [h]
  decide +kernel

/-- V-BLD8e: NOT_MERGING. -/
theorem test_buildStep_notMerging : (go (.buildStep 1) State.reset).errcodeWord = 0x00220406 := by decide +kernel

/-- V-BLD4: among equal weights the smaller index, whatever the node is. -/
theorem test_build_ties : ∀ s, s = go .build (counted [(0x61, 1), (0x62, 1), (0x63, 1), (0x64, 1)]) →
    s.idleValue (.node 4 2) = 0x00000001 ∧ s.idleValue (.node 5 2) = 0x00020003 ∧ s.root = 6 := by
  intro s h
  rw [h]
  decide +kernel

/-- V-BLD8g: the weight's bits 39:32. -/
theorem test_build_weight : ∀ s, s = go .build (counted [(0, 0xFFFFFFFF), (1, 0xFFFFFFFF)]) →
    s.idleValue (.node 2 0) = 0xFFFFFFFE ∧ s.idleValue (.node 2 1) = 0x00000301 := by
  intro s h
  rw [h]
  decide +kernel

/-- V-ASG1. -/
theorem test_assign : assigned.codeAt 0x61 = ⟨1, 0⟩ ∧ (assigned.codeAt 0x62).word 0 = 0x80000000 ∧
    (assigned.codeAt 0x62).len = 1 ∧ (assigned.codeAt 0x63).len = 0 := by decide +kernel

/-- V-ASG9: NO_TREE. -/
theorem test_assign_noTree : (go .assign merging).errcodeWord = 0x00300106 := by decide +kernel

/-- V-PCK1. -/
theorem test_pack : ∀ s, s = go .pack assigned → output s = containerAaab ∧ s.padding = 4 ∧ s.payloadOff = 13 ∧
    s.payloadBits = 4 := by
  intro s h
  rw [h]
  decide +kernel

/-- V-PCK4: NO_CODE at offset 2. -/
theorem test_pack_noCode : ∀ s, s = go .pack { assigned with inBuf := Cells.ofList 0 [0x61, 0x62, 0x63], inLen := 3 } →
    s.errcodeWord = 0x00400201 ∧ s.errInfo = 2 ∧ s.outLen = 0 := by
  intro s h
  rw [h]
  decide +kernel

/-- V-PRS12: entries in descending order. -/
theorem test_parse : ∀ s, s = go .parse (loaded [0, 2, 0x62, 0, 0, 0, 1, 0x61, 0, 0, 0, 3, 4, 0x10]) → s.freqAt 0x61 = 3 ∧
    s.freqAt 0x62 = 1 ∧ s.padding = 4 ∧ s.payloadOff = 13 ∧ s.payloadBits = 4 ∧ s.statusWord = 0x22 := by
  intro s h
  rw [h]
  decide +kernel

/-- V-PRS8: DUP_SYMBOL in entry 1. -/
theorem test_parse_repeat : ∀ s, s = go .parse (loaded [0, 2, 0x61, 0, 0, 0, 3, 0x61, 0, 0, 0, 1, 4, 0x10]) →
    s.errcodeWord = 0x00500602 ∧ s.errInfo = 7 := by
  intro s h
  rw [h]
  decide +kernel

/-- V-DCD17: after PARSE, without BUILD. -/
theorem test_decode_noTree : (go .decode (go .parse (loaded containerAaab))).errcodeWord = 0x00510106 := by decide +kernel

/-- V-DCD12: a single leaf, three bits of value 1. -/
theorem test_decode_single : output (go .decode (go .build (go .parse (loaded [0, 1, 0x41, 0, 0, 0, 3, 5, 0xFF])))) =
    [0x41, 0x41, 0x41] := by decide +kernel

/-- V-COMP1b. -/
theorem test_compress : ∀ s, s = go .compress (loaded abracadabra) → output s = containerC11 ∧ s.statusWord = 0x21A := by
  intro s h
  rw [h]
  decide +kernel

/-- V-COMP3: the empty input. -/
theorem test_compress_empty : ∀ s, s = go .compress State.reset → s.errcodeWord = 0x00800101 ∧ s.statusWord = 0x06 := by
  intro s h
  rw [h]
  decide +kernel

/-- V-DCD2. -/
theorem test_decompress : ∀ s, s = go .decompress (loaded containerC11) → output s = abracadabra ∧ s.statusWord = 0x22A := by
  intro s h
  rw [h]
  decide +kernel

/-- V-DCD5: padding 0 under STRICT: one bit of an incomplete code. -/
theorem test_decompress_strict : ∀ s, s = go .decompress { loaded (containerC11.set 27 0) with strict := true } →
    s.errcodeWord = 0x00810103 ∧ s.errInfo = 1 ∧ s.outLen = 0 ∧ s.statusWord = 0x22E := by
  intro s h
  rw [h]
  decide +kernel

/-! ### The host (20_memory) and the interrupt (60_exceptions R316) -/

/-- V-HST1, V-HST3, V-HST5: violating writes. -/
theorem test_badWrites : (State.reset.hostWrite .byte 0x004 0x80).hostViol = true ∧
    (State.reset.hostWrite .byte 0x004 0x80).busy = false ∧ (State.reset.hostWrite .word 0x01C 5).hostViol = true ∧
    (State.reset.hostWrite .word 0x018 4097).hostViol = true := by decide +kernel

/-- V-HST2, V-HST4, V-HST7: violating reads. -/
theorem test_badReads : (State.reset.hostRead .word 0x100).hostViol = true ∧
    (State.reset.hostRead .word 0x10000000).hostViol = true ∧ (State.reset.hostRead .word 0x2002).hostViol = true := by
  decide +kernel

/-- V-HST6: a reserved CSR. -/
theorem test_reserved : (State.reset.hostWrite .word 0x048 7).hostViol = false := by decide +kernel

/-- V-HST9: a write to FREQ after COMPRESS. -/
theorem test_writeFreq : ((go .compress (loaded aaab)).hostWrite .word 0x584 3).statusWord = 0x02 := by decide +kernel

/-- V-HST13, V-HST12. -/
theorem test_reads : (State.reset.hostRead .word 0x3FF4).rdata = 0 ∧ (State.reset.hostRead .word 0x000).rdata = 0x48554631 := by
  decide +kernel

/-- V-IRQ1, V-IRQ2, V-IRQ3. -/
theorem test_irq : ∀ s, s = go .nop State.reset → s.irq = false ∧ (s.hostWrite .word 0x014 2).irq = true ∧
    ((s.hostWrite .word 0x014 2).hostWrite .word 0x008 2).irq = false := by
  intro s h
  rw [h]
  decide +kernel

/-- P1, its last lines: the two bytes of OUT_BUF through the bus. -/
theorem test_readOut : ∀ s, s = go .compress (loaded aaab) → (s.hostRead .byte 0x2000000C).rdata = 0x04 ∧
    (s.hostRead .byte 0x2000000D).rdata = 0x10 ∧ (s.hostRead .word 0x4C40).rdata = 0x80000000 := by
  intro s h
  rw [h]
  decide +kernel

/-- 30_encoding R118: LOADIN "ab" and RUN NOP as turns. -/
theorem test_program : loadIn [0x61, 0x62] = [.write .byte 0x10000000 0x61, .write .byte 0x10000001 0x62,
    .write .word 0x018 2] ∧
    run .nop 0 = [.write .word 0x004 0, .controller, .read .word 0x008] := by decide

/-- 30_encoding R118: LOADIN "aaab" is LOADIN 61 61 61 62. -/
theorem test_loadText : loadText "aaab" = loadIn [0x61, 0x61, 0x61, 0x62] := by decide

/-- P4: WAITDONE after an illegal word, and CHECK ERRCODE = 0x00100204. -/
theorem test_waitDone_illegal : ∃ t, runSteps 4 { State.reset with
    turns := sw (csrAddr .cmd) 0x00000110 :: waitDone 0 ++ [check (csrAddr .errcode)] } = .next t ∧
      t.checks 0x00100204 = true := ⟨_, rfl, by decide +kernel⟩

/-- The word that withFetchWord places runs in the very next step. -/
theorem test_placed : ∃ t, step (State.reset.withFetchWord 32 0x00000110) = .next t ∧ t.errcodeWord = 0x00100204 :=
  ⟨_, rfl, by decide +kernel⟩

/-! ### Witnesses: states and operands that meet the hypotheses of the obligations -/

theorem inv_reset : State.reset.Inv :=
  reset_like_inv Config.inCap Config.outCap (by decide) (by decide) (by decide) (by decide) [] 0 0

/-- A state that differs from reset in its counts and its input alone meets the invariant. -/
theorem fresh_inv (cout : Word) (h1 : 1 ≤ cout.toNat) (h2 : cout.toNat ≤ 2 ^ 28) (f : Vector Word 256)
    (m : List Host.Cell) (n : Word) (hw : Memory.wf m) (hm : ∀ k ∈ m.map Prod.fst, k < 4096) (hn : n.toNat ≤ 4096) :
    ({ State.resetOf Config.inCap cout with freq := f, inBuf := m, inLen := n } : State).Inv := by
  have h := reset_like_inv Config.inCap cout (by decide) (by decide) h1 h2 [] 0 0
  refine ⟨⟨h.caps.capIn_pos, h.caps.capIn_le, h.caps.capOut_pos, h.caps.capOut_le, hn, h.caps.outLen_le⟩, ?_, ?_,
    State.TreeInv.idle_of rfl rfl, State.CodesInv.of_false rfl⟩
  · exact ⟨h.mem.node_wf, h.mem.node_lt, h.mem.code_wf, h.mem.code_lt, hw, hm, h.mem.out_wf, h.mem.out_lt⟩
  · exact ⟨h.flags.busy_done, h.flags.phase_zero, h.flags.err_code, h.flags.no_err, h.flags.code_le, h.flags.err_out⟩

/-- A command answers the state that go names. -/
theorem exec_go {s : State} (hs : s.Inv) (i : Instr) : exec i (s.accept (encode i)) = .next (go i s) := by
  obtain ⟨t, h⟩ := exec_completes (accept_inv hs (encode i)) i
  unfold go
  rw [h]

/-- A command run whole keeps the invariant. -/
theorem go_inv {s : State} (hs : s.Inv) (i : Instr) : (go i s).Inv :=
  exec_inv (accept_inv hs _) rfl (exec_go hs i)

theorem inv_limited (cout : Word) (h1 : 1 ≤ cout.toNat) (h2 : cout.toNat ≤ 2 ^ 28) (bs : List Byte)
    (hw : Memory.wf (Cells.ofList 0 bs)) (hm : ∀ k ∈ (Cells.ofList 0 bs).map Prod.fst, k < 4096)
    (hn : (BitVec.ofNat 32 bs.length).toNat ≤ 4096) : (limited cout bs).Inv :=
  fresh_inv cout h1 h2 zeroFreq _ _ hw hm hn

theorem inv_counted (es : List (Byte × Word)) : (counted es).Inv :=
  fresh_inv Config.outCap (by decide) (by decide) (freqOfEntries es) [] 0 List.Pairwise.nil (by simp) (by decide)

theorem inv_inputAaab : inputAaab.Inv :=
  fresh_inv Config.outCap (by decide) (by decide) _ _ _ (by decide) (by decide) (by decide)

theorem inv_merging : merging.Inv := go_inv inv_inputAaab _
theorem inv_built : built.Inv := go_inv inv_inputAaab _
theorem inv_assigned : assigned.Inv := go_inv inv_built _
theorem inv_singleLeaf : singleLeaf.Inv := go_inv (inv_counted _) _

/-- A parsed header and the tree built from it. -/
def ready (cout : Word) (bs : List Byte) : State := go .build (go .parse (limited cout bs))

theorem inv_ready (cout : Word) (h1 : 1 ≤ cout.toNat) (h2 : cout.toNat ≤ 2 ^ 28) (bs : List Byte)
    (hw : Memory.wf (Cells.ofList 0 bs)) (hm : ∀ k ∈ (Cells.ofList 0 bs).map Prod.fst, k < 4096)
    (hn : (BitVec.ofNat 32 bs.length).toNat ≤ 4096) : (ready cout bs).Inv :=
  go_inv (go_inv (inv_limited cout h1 h2 bs hw hm hn) .parse) .build

theorem inv_strict {s : State} (h : s.Inv) : ({ s with strict := true } : State).Inv := h.congr s.done id rfl

theorem inv_turns {s : State} (h : s.Inv) (ts : List Turn) : ({ s with turns := ts } : State).Inv := h.congr s.done id rfl

/-- V-DCD4, V-DCD5: the container of "abracadabra" with its padding byte 0, under STRICT. -/
def readyC11 : State := { ready Config.outCap (containerC11.set 27 0) with strict := true }

theorem inv_readyC11 : readyC11.Inv :=
  inv_strict (inv_ready Config.outCap (by decide) (by decide) _ (by decide) (by decide) (by decide))

theorem witness_decodeOfEncode : (Instr.buildStep 0).wf = true ∧ (Instr.buildStep 65535).wf = true := by decide

theorem witness_encodeOfDecode : decode 0x00FFFF22 = .ok (.buildStep 65535) ∧ decode 0x00000022 = .ok (.buildStep 0) := by
  decide

theorem witness_illegalWords : State.reset.busy = false ∧ decode 0x000000FF = .error .badOpcode ∧
    decode 0x01000020 = .error .badField ∧ (State.reset.hostWrite .word 0x004 0x000000FF).controllerMoves :=
  ⟨rfl, by decide, by decide, .inl rfl⟩

/-- A state that runs NOP, and the four kinds of turn that stand next. -/
theorem witness_stepRunsDecodedCommand : ∀ s, s = State.reset.accept 0 → s.busy = true ∧ s.controllerMoves ∧
    decode s.cmd = .ok .nop ∧ State.reset.busy = false ∧ State.reset.controllerMoves ∧
    ({ s with turns := [.read .word 0x008] } : State).turns = .read .word 0x008 :: [] ∧
    ({ s with turns := [.write .word 0x008 0] } : State).turns = .write .word 0x008 0 :: [] := by
  intro s h
  rw [h]
  exact ⟨rfl, .inl rfl, rfl, rfl, .inl rfl, rfl, rfl⟩

theorem witness_placedWordRuns : decodeTableWord 32 0x00000080 = some .compress := by decide

theorem witness_acceptWrites : State.reset.busy = false ∧ (State.reset.accept 0).busy = true := ⟨rfl, rfl⟩

/-- A NOP after a COMPRESS: byte 13 of OUT_BUF is specified and the last below OUT_LEN. -/
theorem witness_commandFrame : ∀ s, s = go .compress (loaded aaab) → (∃ t, exec .nop s = .next t ∧ 13 < t.outLen.toNat) ∧
    (Cells.get? s.outBuf 13).isSome = true := by
  intro s h
  refine ⟨⟨_, rfl, ?_⟩, ?_⟩
  · rw [h]; decide +kernel
  · rw [h]; decide +kernel

/-- A BUILD that raises and a NOP that does not. -/
theorem witness_errorRowsOnly : ∀ s r, s = State.reset.accept 0x20 → r = State.reset.accept 0 →
    decode s.cmd = .ok .build ∧ s.err = false ∧ (∃ t, exec .build s = .next t ∧ t.err = true) ∧
    decode r.cmd = .ok .nop ∧ r.err = false ∧ ∃ t, exec .nop r = .next t ∧ t.err = false := by
  intro s r hs hr
  rw [hs, hr]
  exact ⟨by decide, rfl, ⟨_, exec_go inv_reset .build, by decide +kernel⟩, by decide, rfl, _, rfl, rfl⟩

/-- The first and the last byte of each buffer, and the first and the last reserved offset. -/
theorem witness_addressMap : 0 < State.reset.capIn.toNat ∧ 4095 < State.reset.capIn.toNat ∧
    State.reset.capIn.toNat ≤ 2 ^ 28 ∧ 4095 < State.reset.capOut.toNat ∧ State.reset.capOut.toNat ≤ 2 ^ 28 ∧
    0x048 % 4 = 0 ∧ 0x0FC % 4 = 0 := by decide

/-- V-HST1 to V-HST7, V-HST11: a violation of each kind (R84 (a) to (f)), and, at the edges, accesses that are none. -/
theorem witness_hostViolations : ∀ s r, s = State.reset → r = State.reset.accept 0 →
    s.badAccess .word 0x100 ∧ s.badAccess .word 0x6000 ∧ s.badAccess .byte 0x10001000 ∧ s.badAccess .byte 0x004 ∧
    s.badAccess .word 0x2002 ∧ s.badAccess .word 0x10000000 ∧ s.badWrite .word 0x01C 5 ∧ s.badWrite .word 0x018 4097 ∧
    r.badWrite .word 0x014 0 ∧ ¬ s.badAccess .word 0x0FC ∧ ¬ s.badAccess .byte 0x10000FFF ∧ ¬ s.badAccess .byte 0x20000FFF ∧
    ¬ s.badWrite .word 0x018 4096 ∧ ¬ s.badWrite .word 0x048 7 ∧ ¬ s.badWrite .byte 0x10000FFF 1 := by
  intro s r hs hr
  rw [hs, hr]
  simp [State.badWrite, State.badAccess, State.mapped, readOnlyAddr, State.reset, State.resetOf, State.accept, Config.inCap,
    Config.outCap]

/-- V-HST8. -/
theorem witness_hostViolSticky : ∀ s, s = { State.reset with hostViol := true, turns := [.write .word 0x008 0x80] } →
    s.hostViol = true ∧ ∃ t, step s = .next t ∧ t.hostViol = false := by
  intro s h
  rw [h]
  exact ⟨rfl, _, rfl, by decide⟩

theorem witness_busyReads : ∀ s, s = State.reset.accept 0x80 → s.busy = true ∧ decode s.cmd = .ok .compress ∧
    (s.place .word 0x008).isSome = true := by
  intro s h
  rw [h]
  exact ⟨rfl, by decide, by decide⟩

/-- For IdleCsrReads, StatusRegister, IdleTableReads, ConfigWrite, FreqWrite and InBufWrite. -/
theorem witness_idle : State.reset.busy = false ∧ 0 < State.reset.capIn.toNat ∧ 4095 < State.reset.capIn.toNat ∧
    State.reset.capIn.toNat ≤ 2 ^ 28 ∧ 4095 < State.reset.capOut.toNat ∧ State.reset.capOut.toNat ≤ 2 ^ 28 := by decide

theorem witness_inLenWrite : State.reset.busy = false ∧ (4096 : Word).toNat ≤ State.reset.capIn.toNat ∧
    State.reset.capIn.toNat < (4097 : Word).toNat := by decide

theorem witness_reservedCsrs : 0x048 ≤ 0x0FC ∧ 0x0FC ≤ 0x0FC ∧ 0x0FC % 4 = 0 ∧ State.reset.busy = false ∧
    (State.reset.accept 0).busy = true := by decide

/-- V-IRQ2, V-IRQ4: irq rises at a CONFIG write and at a completion. -/
theorem witness_irqLine : ∀ s r, s = { go .nop State.reset with turns := [.write .word 0x014 2] } →
    r = { State.reset.accept 0x00000002 with irqEn := true } →
    (s.busy = false ∧ s.irq = false ∧ ∃ t, step s = .next t ∧ t.irq = true) ∧
    (r.irq = false ∧ ∃ t, step r = .next t ∧ t.irq = true) ∧ ∃ t, exec .nop s = .next t := by
  intro s r hs hr
  rw [hs, hr]
  exact ⟨⟨rfl, by decide, _, rfl, by decide +kernel⟩, ⟨rfl, _, rfl, by decide +kernel⟩, _, rfl⟩

theorem witness_resetTurn : ({ State.reset.accept 0x80 with turns := [.rst] } : State).turns = .rst :: [] := rfl

theorem witness_nop : ∀ s, s = { State.reset with turns := [.write .word 0x004 0, .controller] } →
    s.busy = false ∧ s.turns = .write .word 0x004 0x00000000 :: .controller :: [] := by
  intro s h
  rw [h]
  exact ⟨rfl, rfl⟩

/-- The empty map, one symbol, and two; leaf 1 of "aaab". -/
theorem witness_buildInit : State.reset.alphabetSize = 0 ∧ (counted [(0x78, 1)]).alphabetSize = 1 ∧
    inputAaab.alphabetSize = 2 ∧ inputAaab.freqAt 0x62 ≠ 0 ∧ inputAaab.alphabetSize ≤ (2 : NodeIdx).toNat := by
  simp only [State.alphabetSize_eq_nonZero, ← State.symCount_eq_nonZero]
  decide +kernel

theorem witness_mergeStep : merging.Inv ∧ merging.bstate = .merge := ⟨inv_merging, by decide +kernel⟩

theorem witness_buildStepCounts : State.reset.bstate ≠ .merge ∧ merging.Inv ∧ merging.bstate = .merge ∧
    merging.activeCount.toNat ≤ 1 + 1 ∧ ¬ merging.activeCount.toNat ≤ 0 + 1 :=
  ⟨by decide, inv_merging, by decide +kernel, by decide +kernel, by decide +kernel⟩

/-- "abracadabra" split after two of its four merges (V-BLD3), and after all of them. -/
theorem witness_buildStepSplits : ∀ s,
    s = go .buildInit (counted [(0x61, 5), (0x62, 2), (0x63, 1), (0x64, 1), (0x72, 2)]) → s.Inv ∧ s.bstate = .merge ∧
    (go (.buildStep 2) s).bstate = .merge ∧ (go (.buildStep 4) s).bstate ≠ .merge := by
  intro s h
  rw [h]
  exact ⟨go_inv (inv_counted _) _, by decide +kernel, by decide +kernel, by decide +kernel⟩

theorem witness_buildMakesTree : State.reset.alphabetSize = 0 ∧ (counted [(0x78, 1)]).alphabetSize = 1 ∧
    inputAaab.alphabetSize ≠ 0 ∧ inputAaab.alphabetSize ≠ 1 := by
  simp only [State.alphabetSize_eq_nonZero, ← State.symCount_eq_nonZero]
  decide +kernel

theorem witness_completeTree : built.Inv ∧ built.treeValid = true ∧ built.symCount ≤ (2 : NodeIdx).toNat ∧
    (2 : NodeIdx).toNat < built.nodeCount.toNat :=
  ⟨inv_built, by decide +kernel, by decide +kernel, by decide +kernel⟩

/-- Two states with equal counts and different inputs. -/
theorem witness_treeDependsOnFreqOnly : inputAaab.freq = countedAaab.freq ∧ inputAaab.alphabetSize ≠ 0 ∧
    ∃ t u, exec .build inputAaab = .next t ∧ exec .build countedAaab = .next u := by
  obtain ⟨t, ht⟩ := exec_completes inv_inputAaab .build
  obtain ⟨u, hu⟩ := exec_completes (inv_counted [(0x61, 3), (0x62, 1)]) .build
  refine ⟨rfl, ?_, t, u, ht, hu⟩
  simp only [State.alphabetSize_eq_nonZero, ← State.symCount_eq_nonZero]
  decide +kernel

theorem witness_assign : merging.bstate ≠ .done ∧ built.Inv ∧ built.bstate = .done ∧ built.freqAt 0x63 = 0 ∧
    built.freqAt 0x61 ≠ 0 ∧ built.symCount ≠ 1 ∧ singleLeaf.Inv ∧ singleLeaf.bstate = .done ∧ singleLeaf.freqAt 0x78 ≠ 0 ∧
    singleLeaf.symCount = 1 :=
  ⟨by decide +kernel, inv_built, by decide +kernel, by decide +kernel, by decide +kernel, by decide +kernel, inv_singleLeaf,
    by decide +kernel, by decide +kernel, by decide +kernel⟩

/-- For CodeLengthBound, PrefixFree and ValidCodesMatchFreq. -/
theorem witness_codes : assigned.Inv ∧ assigned.codesValid = true ∧ assigned.hasCode 0x61 ∧ assigned.hasCode 0x62 ∧
    (0x61 : Byte) ≠ 0x62 := by
  refine ⟨inv_assigned, by decide +kernel, ?_, ?_, by decide⟩ <;> unfold State.hasCode <;> decide +kernel

/-- V-PCK6, V-PCK4, V-PCK7. -/
theorem witness_packErrors : ∀ s r, s = { assigned with inBuf := Cells.ofList 0 [0x61, 0x62, 0x63], inLen := 3 } →
    r = { assigned with capOut := 13 } →
    built.codesValid = false ∧
    (s.codesValid = true ∧ 2 < s.inLen.toNat ∧ ¬ s.hasCode (s.inByte 2) ∧ ∀ i < 2, s.hasCode (s.inByte i)) ∧
    (r.codesValid = true ∧ (∀ j < r.inLen.toNat, r.hasCode (r.inByte j)) ∧
      r.capOut.toNat < sizeOfContainer r.alphabetSize r.payloadLength) := by
  intro s r hs hr
  rw [hs, hr]
  unfold State.hasCode
  simp only [State.alphabetSize_eq_nonZero, ← State.symCount_eq_nonZero]
  decide +kernel

/-- V-PCK8: a container that fits exactly. -/
theorem witness_pack : ∀ s, s = { assigned with capOut := 14 } → s.codesValid = true ∧
    (∀ j < s.inLen.toNat, s.hasCode (s.inByte j)) ∧ sizeOfContainer s.alphabetSize s.payloadLength ≤ s.capOut.toNat ∧
    s.freqAt 0x62 ≠ 0 := by
  intro s h
  rw [h]
  unfold State.hasCode
  simp only [State.alphabetSize_eq_nonZero, ← State.symCount_eq_nonZero]
  decide +kernel

/-- V-PRS3, V-PRS4, V-PRS5 and V-PRS6: the first four defects. -/
theorem witness_parseErrors_counts :
    (loaded [0]).inLen.toNat < 2 ∧ (2 ≤ (loaded [0, 0]).inLen.toNat ∧ (loaded [0, 0]).headerCount = 0) ∧
    (2 ≤ (loaded [1, 1]).inLen.toNat ∧ 256 < (loaded [1, 1]).headerCount) ∧
    ∀ s, s = loaded [0, 2, 0x61, 0, 0, 0, 3, 0x62, 0, 0, 0] →
      2 ≤ s.inLen.toNat ∧ 1 ≤ s.headerCount ∧ s.headerCount ≤ 256 ∧ s.inLen.toNat < 2 + 5 * s.headerCount + 1 := by
  refine ⟨by decide, by decide +kernel, by decide +kernel, fun s h => ?_⟩
  rw [h]
  decide +kernel

/-- V-PRS7, V-PRS8: a table with a zero count and a table with a repeated symbol. -/
theorem witness_parseErrors_table : ∀ s r, s = loaded [0, 2, 0x61, 0, 0, 0, 0, 0x62, 0, 0, 0, 1, 4, 0x10] →
    r = loaded [0, 2, 0x61, 0, 0, 0, 3, 0x61, 0, 0, 0, 1, 4, 0x10] →
    (1 ≤ s.headerCount ∧ s.headerCount ≤ 256 ∧ 2 + 5 * s.headerCount + 1 ≤ s.inLen.toNat ∧ s.headerFreq 0 = 0) ∧
    (2 + 5 * r.headerCount + 1 ≤ r.inLen.toNat ∧ (∀ j < 1, r.entryOk j) ∧ r.headerFreq 1 ≠ 0 ∧ r.entryRepeats 1) := by
  intro s r hs hr
  rw [hs, hr]
  unfold State.entryOk State.entryRepeats
  decide +kernel

/-- V-PRS9, V-PRS10: a padding byte above 7, and one that is not 0 before an empty payload. -/
theorem witness_parseErrors_padding : ∀ s r, s = loaded (containerAaab.set 12 8) → r = loaded (containerAaab.take 13) →
    ((∀ i < s.headerCount, s.entryOk i) ∧ 7 < (s.inByte (2 + 5 * s.headerCount)).toNat) ∧
    ((∀ i < r.headerCount, r.entryOk i) ∧ (r.inByte (2 + 5 * r.headerCount)).toNat ≤ 7 ∧
      r.inByte (2 + 5 * r.headerCount) ≠ 0 ∧ r.inLen.toNat = 2 + 5 * r.headerCount + 1) := by
  intro s r hs hr
  rw [hs, hr]
  unfold State.entryOk State.entryRepeats
  decide +kernel

/-- V-PRS1. -/
theorem witness_parse : ∀ s, s = loaded containerAaab → 1 ≤ s.headerCount ∧ s.headerCount ≤ 256 ∧
    2 + 5 * s.headerCount + 1 ≤ s.inLen.toNat ∧ (∀ i < s.headerCount, s.entryOk i) ∧
    (s.inByte (2 + 5 * s.headerCount)).toNat ≤ 7 ∧ s.inLen.toNat ≠ 2 + 5 * s.headerCount + 1 ∧
    ∀ i < s.headerCount, s.inByte (2 + 5 * i) ≠ 0x63 := by
  intro s h
  rw [h]
  unfold State.entryOk State.entryRepeats
  decide +kernel

/-- V-DCD16, V-DCD17. -/
theorem witness_decodeNeeds : State.reset.hdrValid = false ∧ (go .parse (loaded containerAaab)).hdrValid = true ∧
    (go .parse (loaded containerAaab)).bstate ≠ .done := by decide +kernel

/-- The two codes of the tree of "aaab" (V-ASG1), whatever OUT_CAP is. -/
theorem path_ready3 : (ready 3 containerAaab).IsPath [false] 0x61 ∧ (ready 3 containerAaab).IsPath [true] 0x62 :=
  ⟨⟨by decide, by decide +kernel, by decide +kernel, by decide +kernel⟩,
    ⟨by decide, by decide +kernel, by decide +kernel, by decide +kernel⟩⟩

theorem path_ready4 : (ready 4 containerAaab).IsPath [false] 0x61 ∧ (ready 4 containerAaab).IsPath [true] 0x62 :=
  ⟨⟨by decide, by decide +kernel, by decide +kernel, by decide +kernel⟩,
    ⟨by decide, by decide +kernel, by decide +kernel, by decide +kernel⟩⟩

/-- The codes of "aaab" in order. -/
def codesAaab : List (Byte × List Bool) := [(0x61, [false]), (0x61, [false]), (0x61, [false]), (0x62, [true])]

/-- V-DCD1: the payload 0001 splits into four codes and an empty rest: one too many for OUT_CAP 3. -/
theorem witness_decodeWalksTree_overflow : ∀ s, s = ready 3 containerAaab → s.Inv ∧ s.hdrValid = true ∧ s.bstate = .done ∧
    s.single = false ∧ (∀ c ∈ codesAaab, s.IsPath c.2 c.1) ∧
    codesAaab.flatMap Prod.snd ++ [] = (List.range s.payloadBits.toNat).map (s.inBit s.payloadOff.toNat) ∧
    s.capOut.toNat < codesAaab.length := by
  intro s h
  rw [h]
  refine ⟨inv_ready 3 (by decide) (by decide) _ (by decide) (by decide) (by decide), by decide +kernel, by decide +kernel, by decide +kernel, ?_,
    by decide +kernel, by decide +kernel⟩
  intro c hc
  simp only [codesAaab, List.mem_cons, List.not_mem_nil, or_false] at hc
  rcases hc with rfl | rfl | rfl | rfl
  · exact path_ready3.1
  · exact path_ready3.1
  · exact path_ready3.1
  · exact path_ready3.2

/-- V-DCD1, V-DCD7: just enough for OUT_CAP 4. -/
theorem witness_decodeWalksTree : ∀ s, s = ready 4 containerAaab → s.Inv ∧ s.hdrValid = true ∧ s.bstate = .done ∧
    s.single = false ∧ (∀ c ∈ codesAaab, s.IsPath c.2 c.1) ∧
    codesAaab.flatMap Prod.snd ++ [] = (List.range s.payloadBits.toNat).map (s.inBit s.payloadOff.toNat) ∧
    codesAaab.length ≤ s.capOut.toNat := by
  intro s h
  rw [h]
  refine ⟨inv_ready 4 (by decide) (by decide) _ (by decide) (by decide) (by decide), by decide +kernel, by decide +kernel, by decide +kernel, ?_,
    by decide +kernel, by decide +kernel⟩
  intro c hc
  simp only [codesAaab, List.mem_cons, List.not_mem_nil, or_false] at hc
  rcases hc with rfl | rfl | rfl | rfl
  · exact path_ready4.1
  · exact path_ready4.1
  · exact path_ready4.1
  · exact path_ready4.2

/-- The codes of "abracadabra" (V-ASG2). -/
def codeC11 : Byte → List Bool
  | 0x61 => [true]
  | 0x62 => [false, false, true]
  | 0x63 => [false, true, true]
  | 0x64 => [false, true, false]
  | _ => [false, false, false]

theorem path_C11 : ∀ b ∈ ([0x61, 0x62, 0x63, 0x64, 0x72] : List Byte), readyC11.IsPath (codeC11 b) b := by
  intro b hb
  simp only [List.mem_cons, List.not_mem_nil, or_false] at hb
  rcases hb with rfl | rfl | rfl | rfl | rfl
  all_goals exact ⟨by decide, by decide +kernel, by decide +kernel, by decide +kernel⟩

/-- V-DCD5: one bit of an incomplete code is left, under STRICT. -/
theorem witness_decodeWalksTree_strict : ∀ s, s = readyC11 → s.Inv ∧ s.hdrValid = true ∧ s.bstate = .done ∧ s.single = false ∧
    (∀ c ∈ abracadabra.map fun b => (b, codeC11 b), s.IsPath c.2 c.1) ∧
    (∀ m, 1 ≤ m → m ≤ [false].length → (s.nodeAt (s.follow s.root ([false].take m))).kind = .internal) ∧
    (abracadabra.map fun b => (b, codeC11 b)).flatMap Prod.snd ++ [false] =
      (List.range s.payloadBits.toNat).map (s.inBit s.payloadOff.toNat) ∧ 11 ≤ s.capOut.toNat ∧ s.strict = true := by
  intro s h
  rw [h]
  refine ⟨inv_readyC11, by decide +kernel, by decide +kernel, by decide +kernel, ?_, ?_, by decide +kernel,
    by decide +kernel, by decide +kernel⟩
  · intro c hc
    obtain ⟨b, hb, rfl⟩ := List.mem_map.mp hc
    refine path_C11 b ?_
    revert b
    decide
  · intro m h1 h2
    obtain rfl : m = 1 := Nat.le_antisymm h2 h1
    decide +kernel

theorem witness_everyPayloadSplits : (ready 4 containerAaab).Inv ∧ (ready 4 containerAaab).bstate = .done ∧
    (ready 4 containerAaab).single = false :=
  ⟨inv_ready 4 (by decide) (by decide) _ (by decide) (by decide) (by decide), by decide +kernel, by decide +kernel⟩

/-- V-DCD11: eight bits on a single-leaf tree: they fit OUT_CAP 8, and not OUT_CAP 7. -/
theorem witness_decodeSingleLeaf : ∀ s r, s = ready 8 [0, 1, 0x41, 0, 0, 0, 5, 0, 0xFF] →
    r = ready 7 [0, 1, 0x41, 0, 0, 0, 5, 0, 0xFF] →
    (s.hdrValid = true ∧ s.bstate = .done ∧ s.single = true ∧ s.payloadBits.toNat ≤ s.capOut.toNat) ∧
    (r.hdrValid = true ∧ r.bstate = .done ∧ r.single = true ∧ r.capOut.toNat < r.payloadBits.toNat) := by
  intro s r hs hr
  rw [hs, hr]
  decide +kernel

theorem witness_compress : State.reset.inLen = 0 ∧ (loaded aaab).inLen ≠ 0 ∧ (loaded aaab).err = false := by decide

/-- A header that PARSE refuses and one that it accepts, of four payload bits. -/
theorem witness_decompress : (go .parse (loaded [0, 0])).hdrValid = false ∧
    (go .parse (loaded containerAaab)).hdrValid = true ∧
    (go .parse (loaded containerAaab)).payloadBits.toNat ≤ (loaded containerAaab).capOut.toNat := by decide +kernel

/-- V-COMP1a: the container of "aaab" in IN_BUF of a second state. -/
theorem witness_roundTrip : ∀ s r, s = loaded aaab → r = loaded containerAaab → s.inLen ≠ 0 ∧ s.err = false ∧
    s.inLen.toNat ≤ r.capOut.toNat ∧ r.err = false ∧
    ∃ c, exec .compress s = .next c ∧ c.err = false ∧ r.inLen = c.outLen ∧ ∀ j < c.outLen.toNat, r.inByte j = c.outByte j := by
  intro s r hs hr
  rw [hs, hr]
  exact ⟨by decide, rfl, by decide, rfl, _, rfl, by decide +kernel, by decide +kernel, by decide +kernel⟩

/-- Steps that write OUT_LEN and the code tables: the controller's turn of a COMPRESS; and an error that clears OUT_LEN. -/
theorem witness_outLenWriters : ∀ s r, s = (loaded aaab).accept 0x80 → r = (go .compress (loaded aaab)).accept 0xFF →
    (∃ t, step s = .next t ∧ t.outLen ≠ s.outLen ∧ (Cells.get? t.code 0) ≠ (Cells.get? s.code 0)) ∧
    ∃ t, step r = .next t ∧ t.outLen ≠ r.outLen := by
  intro s r hs hr
  rw [hs, hr]
  exact ⟨⟨_, rfl, by decide +kernel, by decide +kernel⟩, _, rfl, by decide +kernel⟩

/-- Two contents of IN_BUF that differ at IN_LEN only, and a SCAN of one of them. -/
theorem witness_inBufPastInput : ∀ s m, s = (loaded aaab).accept 0x10 → m = Cells.set (loaded aaab).inBuf 4 0x7A →
    (∀ j < s.inLen.toNat, State.inByte { s with inBuf := m } j = s.inByte j) ∧ m ≠ s.inBuf ∧ ∃ t, exec .scan s = .next t := by
  intro s m hs hm
  rw [hs, hm]
  exact ⟨by decide +kernel, by decide +kernel, _, rfl⟩

theorem witness_inBufWriters : ∀ s, s = { State.reset with turns := [.write .byte 0x10000FFF 1] } →
    ∃ t, step s = .next t ∧ t.inBuf ≠ s.inBuf := by
  intro s h
  rw [h]
  exact ⟨_, rfl, by decide +kernel⟩

/-- Steps into BSTATE 1, 2 and 0. -/
theorem witness_builderTransitions : ∀ a b c, a = inputAaab.accept 0x21 → b = merging.accept 0x122 → c = built.accept 0x10 →
    (∃ t, step a = .next t ∧ t.bstate ≠ a.bstate ∧ t.bstate = .merge) ∧
    (∃ t, step b = .next t ∧ t.bstate ≠ b.bstate ∧ t.bstate = .done) ∧
    ∃ t, step c = .next t ∧ t.bstate ≠ c.bstate ∧ t.bstate = .idle := by
  intro a b c ha hb hc
  rw [ha, hb, hc]
  exact ⟨⟨_, rfl, by decide +kernel, by decide +kernel⟩, ⟨_, rfl, by decide +kernel, by decide +kernel⟩, _, rfl,
    by decide +kernel, by decide +kernel⟩

theorem witness_invAtReset : 1 ≤ (1 : Word).toNat ∧ (0x10000000 : Word).toNat ≤ 2 ^ 28 := by decide

/-- For StepKeepsInv and StepNeverStops. -/
theorem witness_step : assigned.Inv ∧ ∃ t, step assigned = .next t := ⟨inv_assigned, _, rfl⟩

/-- A command that runs through a STATUS poll. -/
theorem witness_commandsComplete : ∀ s, s = { (assigned.accept 0x40) with turns := [.read .word 0x008] } →
    s.Inv ∧ s.busy = true ∧ ∀ u ∈ s.turns, u ≠ .rst ∧ u ≠ .controller := by
  intro s h
  rw [h]
  refine ⟨inv_turns (accept_inv inv_assigned 0x40) _, rfl, ?_⟩
  decide

end Sys2Proof.Tests
end

section
/-!
SUPPORT. The state family (10_state): STATUS and IN_LEN as the host sees them, the writers of OUT_LEN, and the reset values.
-/

namespace Sys2Proof.Machine

/-! ### STATUS (10_state R33, R49, R58) -/

/-- TREE_VALID is a function of the BSTATE field (10_state R49). -/
theorem State.treeValid_eq_bits (s : State) : s.treeValid = decide (s.bstate.bits = 2) := by
  unfold State.treeValid
  cases s.bstate <;> rfl

/-- The BSTATE field tells the builder's states apart (10_state R58). -/
theorem BState.bits_inj {a b : BState} : a.bits = b.bits ↔ a = b := by
  cases a <;> cases b <;> decide

/-- An idle write of STATUS in the words of 10_state R33: DONE and HOST_VIOL are cleared where 1 is written. -/
theorem State.writeStatus_eq (s : State) (data : Word) : s.writeStatus data =
    { s with done := if data.getLsbD 1 then false else s.done,
             hostViol := if data.getLsbD 7 then false else s.hostViol } := by
  unfold State.writeStatus
  cases data.getLsbD 1 <;> cases data.getLsbD 7 <;> simp

/-- An idle read of a CSR (20_memory R88). -/
theorem State.hostRead_csr {s : State} (hb : s.busy = false) (r : Csr) :
    s.hostRead .word (BitVec.ofNat 32 r.offset) = { s with rdata := s.csrValue r } := by
  rw [State.hostRead_of_place (s.place_csr r), hb]
  rfl

/-- An idle write of a CSR (20_memory R88). -/
theorem State.hostWrite_csr {s : State} (hb : s.busy = false) (r : Csr) (data : Word) :
    s.hostWrite .word (BitVec.ofNat 32 r.offset) data = s.idleWrite data (.csr r) :=
  State.hostWrite_of_place hb (s.place_csr r) data

/-- Settles O16, from the layout of the status word and the write-one-to-clear rule. -/
theorem statusRegister : Obligations.StatusRegister := by
  unfold Obligations.StatusRegister
  intro s hb
  constructor
  · obtain ⟨busy, done, err, tree, codes, hdr, single, viol⟩ := statusLayout_bits _ _ _ _ _ _ _ _ _ _ s.statusWord rfl
    obtain ⟨bst, gap, ph, high⟩ := statusLayout_fields _ _ _ _ _ _ _ _ _ _ s.statusWord rfl
    refine ⟨s.statusWord, State.hostRead_csr hb .status, busy, done, err, ?_, codes, hdr, single, viol, ?_, ?_, ?_, gap, ph,
      high⟩ <;> rw [bst]
    · rw [tree, s.treeValid_eq_bits]
    · exact BState.bits_inj (b := .idle)
    · exact BState.bits_inj (b := .merge)
    · exact BState.bits_inj (b := .done)
  · intro data
    exact (State.hostWrite_csr hb .status data).trans (s.writeStatus_eq data)

/-! ### IN_LEN (10_state R38) -/

theorem State.writeInLen_of_le {s : State} {v : Word} (h : v.toNat ≤ s.capIn.toNat) :
    s.writeInLen v = { s with inLen := v, hdrValid := false } := by
  unfold State.writeInLen
  rw [if_pos (BitVec.le_def.mpr h)]

theorem State.writeInLen_of_lt {s : State} {v : Word} (h : s.capIn.toNat < v.toNat) : s.writeInLen v = s.violate := by
  unfold State.writeInLen
  rw [if_neg fun hle => Nat.not_le.mpr h (BitVec.le_def.mp hle)]

/-- Settles O19: the write reaches IN_LEN, which compares it with IN_CAP. -/
theorem inLenWrite : Obligations.InLenWrite := by
  unfold Obligations.InLenWrite
  intro s v hb
  have hw : s.hostWrite .word 0x018 v = s.writeInLen v := State.hostWrite_csr hb .inLen v
  exact ⟨fun h => hw.trans (State.writeInLen_of_le h), fun h => hw.trans (State.writeInLen_of_lt h)⟩

/-! ### The writers of OUT_LEN (10_state R39) -/

/-- The commands whose body writes OUT_LEN (10_state R39). -/
def Instr.writesOutLen : Instr → Bool
  | .clear | .pack | .decode | .compress | .decompress => true
  | .nop | .scan | .build | .buildInit | .buildStep _ | .assign | .parse => false

theorem buildInitBody_outLen (s : State) : (buildInitBody s).All (·.outLen = s.outLen) := by
  by_cases hk : s.symCount = 0
  · rw [buildInitBody_empty s hk]
    rfl
  · rw [buildInitBody_ok s hk, s.built_frame]
    rfl

theorem mergeSteps_outLen (n : Nat) (s : State) : (mergeSteps n s).outLen = s.outLen := by rw [mergeSteps_frame]

theorem buildBody_outLen (s : State) : (buildBody s).All (·.outLen = s.outLen) :=
  (buildInitBody_outLen s).andThen (fun _ h => h) fun t h => (mergeSteps_outLen _ t).trans h

theorem buildStepBody_outLen (n : Nat) (s : State) : (buildStepBody n s).All (·.outLen = s.outLen) := by
  unfold buildStepBody
  split
  · exact mergeSteps_outLen n s
  · rfl

theorem assignBody_outLen (s : State) : (assignBody s).All (·.outLen = s.outLen) := by
  unfold assignBody
  split
  · split
    · rfl
    · trivial
  · rfl

theorem parseBody_outLen (s : State) : (parseBody s).All (·.outLen = s.outLen) := by
  unfold parseBody
  split <;> rfl

/-- The body of every other command leaves OUT_LEN alone. -/
theorem body_outLen {i : Instr} (hi : Instr.writesOutLen i = false) (s : State) :
    (Instr.body i s).All (·.outLen = s.outLen) := by
  cases i with
  | nop => rfl
  | scan => rfl
  | build => exact buildBody_outLen s
  | buildInit => exact buildInitBody_outLen s
  | buildStep n => exact buildStepBody_outLen n s
  | assign => exact assignBody_outLen s
  | parse => exact parseBody_outLen s
  | clear | pack | decode | compress | decompress => cases hi

/-- What a command does to OUT_LEN (10_state R39, 60_exceptions R313). -/
theorem exec_outLen {i : Instr} {s t : State} (h : exec i s = .next t) :
    (t.err = true ∧ t.outLen = 0) ∨ Instr.writesOutLen i = true ∨ t.outLen = s.outLen := by
  rcases exec_next h with ⟨u, hu, -, rfl⟩ | ⟨c, info, u, -, -, rfl⟩
  · cases hi : Instr.writesOutLen i with
    | true => exact .inr (.inl rfl)
    | false =>
      have hk := body_outLen hi s
      rw [hu] at hk
      exact .inr (.inr hk)
  · exact .inl ⟨rfl, rfl⟩

/-- CLEAR leaves OUT_LEN 0 (40_control R144). -/
theorem exec_clear_outLen {s t : State} (h : exec .clear s = .next t) : t.outLen = 0 := by
  obtain rfl := Host.Outcome.next.inj h
  rfl

theorem State.hostRead_outLen (s : State) (size : Size) (addr : Word) : (s.hostRead size addr).outLen = s.outLen := by
  cases h : s.place size addr with
  | none => rw [State.hostRead_of_none h]
  | some p =>
    rw [State.hostRead_of_place h]
    split <;> rfl

theorem State.writeInLen_outLen (s : State) (data : Word) : (s.writeInLen data).outLen = s.outLen := by
  unfold State.writeInLen
  split <;> rfl

theorem State.idleWrite_outLen (s : State) (data : Word) (p : Place) : (s.idleWrite data p).outLen = s.outLen := by
  cases p with
  | csr r =>
    cases r with
    | inLen => exact s.writeInLen_outLen data
    | _ => rfl
  | _ => rfl

theorem State.hostWrite_outLen (s : State) (size : Size) (addr data : Word) :
    (s.hostWrite size addr data).outLen = s.outLen := by
  rcases s.hostWrite_cases size addr data with h | ⟨-, p, -, h⟩ <;> rw [h]
  · rfl
  · exact s.idleWrite_outLen data p

/-- Settles O53: of the turns only reset and a completion can change OUT_LEN, and of the completions only those of the
commands that write it and of failed ones. -/
theorem outLenWriters : Obligations.OutLenWriters := by
  unfold Obligations.OutLenWriters
  intro s t h hne
  rcases step_cases h with ⟨hm, ⟨hb, hc⟩ | ⟨-, rfl⟩⟩ | ⟨size, addr, -, -, rfl⟩ | ⟨size, addr, data, -, -, rfl⟩ | ⟨hr, -⟩
  · refine .inr ⟨hb, hm, ?_⟩
    rcases complete_cases hc with ⟨i, hi, he⟩ | ⟨e, rfl⟩
    · have hci : s.completes i := ⟨hb, hm, hi⟩
      rcases exec_outLen he with herr | hw | hsame
      · simp [herr]
      · cases i with
        | pack | decode | compress | decompress => simp [hci]
        | clear => simp [hci, exec_clear_outLen he]
        | nop | scan | build | buildInit | buildStep | assign | parse => cases hw
      · exact absurd hsame hne
    · simp
  · exact absurd rfl hne
  · exact absurd (s.popTurn.hostRead_outLen size addr) hne
  · exact absurd (s.popTurn.hostWrite_outLen size addr data) hne
  · exact .inl hr

/-! ### Reset (10_state R61) -/

theorem State.freqAt_resetOf (cin cout : Word) (b : Byte) : (State.resetOf cin cout).freqAt b = 0 := getElem_zeroFreq b

/-- SYM_COUNT is 0 exactly for the empty frequency map (10_state R40). -/
theorem State.symCount_eq_zero_iff (s : State) : s.symCount = 0 ↔ ∀ b, s.freqAt b = 0 := by
  unfold State.symCount
  rw [List.length_eq_zero_iff, List.eq_nil_iff_forall_not_mem]
  simp [State.mem_presentSymbols]

/-- Settles O24: the stored elements stand in the reset state itself; FREQ, SYM_COUNT, slot 511 and ID are read from it. -/
theorem resetValues : Obligations.ResetValues := by
  unfold Obligations.ResetValues
  intro cin cout
  have hfreq := State.freqAt_resetOf cin cout
  have hsym := (State.symCount_eq_zero_iff _).mpr hfreq
  have hid := State.hostRead_csr (s := State.resetOf cin cout) rfl .id
  exact ⟨_, rfl, rfl, rfl, rfl, rfl, rfl, rfl, rfl, rfl, rfl, rfl, rfl, rfl, rfl, rfl, rfl, rfl, rfl, rfl, rfl, hsym, rfl, rfl,
    rfl, rfl, rfl, rfl, rfl, rfl, hfreq, rfl, rfl, congrArg State.rdata hid⟩

end Sys2Proof.Machine
end

section
/-!
SUPPORT. The command word family (30_encoding): the rows of the opcode map as match and mask words, and how an illegal word
completes.
-/

namespace Sys2Proof

/-! ### The opcode map (30_encoding R113) -/

/-- A word decodes to a command exactly when it is that command's word (30_encoding R110 to R114). -/
theorem decode_ok_iff_eq_encode {i : Instr} (hi : i.wf = true) (w : Word) : decode w = .ok i ↔ w = encode i := by
  rw [decode_ok_iff]
  constructor
  · rintro ⟨hc, hrsv, harg⟩
    obtain ⟨hop, -, hcount, hzero⟩ := commandOf_some hc
    have hfield : argField w = i.arg := by
      by_cases h : opField w = 0x22
      · exact (hcount h).symm
      · rw [hzero h, harg.resolve_left h]
    rw [word_of_fields w, hrsv, hfield, ← hop]
    rfl
  · rintro rfl
    rw [opField_encode, argField_encode, rsvField_encode]
    refine ⟨commandOf_opcode i hi, rfl, ?_⟩
    cases i with
    | buildStep => exact .inl rfl
    | _ => exact .inr rfl

/-- A row without an operand: its mask keeps every bit. -/
theorem decode_ok_iff_full_mask {i : Instr} (hi : i.wf = true) (w : Word) :
    decode w = .ok i ↔ w &&& 0xFFFFFFFF = encode i := by
  rw [decode_ok_iff_eq_encode hi, show (0xFFFFFFFF : Word) = BitVec.allOnes 32 from rfl, BitVec.and_allOnes]

/-- Only the opcode of BUILD_STEP names it, and its count is the operand. -/
theorem commandOf_buildStep_iff (op : Byte) (arg : BitVec 16) (n : Nat) :
    commandOf op arg.toNat = some (.buildStep n) ↔ op = 0x22 ∧ n = arg.toNat := by
  constructor
  · intro h
    obtain rfl : (0x22 : Byte) = op := (commandOf_some h).1
    exact ⟨rfl, Instr.buildStep.inj (Option.some.inj h.symm)⟩
  · rintro ⟨rfl, rfl⟩
    rfl

/-- Two words are equal when their three fields are (30_encoding R110). -/
theorem word_eq_iff (v w : Word) :
    v = w ↔ opField v = opField w ∧ argField v = argField w ∧ rsvField v = rsvField w := by
  constructor
  · rintro rfl
    exact ⟨rfl, rfl, rfl⟩
  · rintro ⟨hop, harg, hrsv⟩
    rw [word_of_fields v, hop, harg, hrsv, ← word_of_fields w]

/-- BUILD_STEP's mask keeps RSV and OP and drops ARG. -/
theorem buildStepMask_fields (w : Word) : opField (w &&& 0xFF0000FF) = opField w ∧
    argField (w &&& 0xFF0000FF) = 0 ∧ rsvField (w &&& 0xFF0000FF) = rsvField w := by
  unfold opField argField rsvField
  refine ⟨?_, ?_, ?_⟩ <;> rw [BitVec.extractLsb'_and]
  · exact BitVec.and_allOnes
  · exact BitVec.and_zero
  · exact BitVec.and_allOnes

/-- The row of BUILD_STEP, as the fields it fixes. -/
theorem and_buildStepMask_eq_iff (w : Word) : w &&& 0xFF0000FF = 0x00000022 ↔ opField w = 0x22 ∧ rsvField w = 0 := by
  obtain ⟨hop, harg, hrsv⟩ := buildStepMask_fields w
  rw [word_eq_iff, hop, harg, hrsv]
  exact ⟨fun ⟨h, _, h'⟩ => ⟨h, h'⟩, fun ⟨h, h'⟩ => ⟨h, rfl, h'⟩⟩

/-- BUILD_STEP is the one row whose mask leaves ARG free: it is the merge count (30_encoding R111). -/
theorem decode_buildStep_iff (w : Word) (n : Nat) :
    decode w = .ok (.buildStep n) ↔ w &&& 0xFF0000FF = 0x00000022 ∧ n = (argField w).toNat := by
  rw [decode_ok_iff, commandOf_buildStep_iff, and_buildStepMask_eq_iff]
  constructor
  · rintro ⟨⟨hop, hn⟩, hrsv, -⟩
    exact ⟨⟨hop, hrsv⟩, hn⟩
  · rintro ⟨⟨hop, hrsv⟩, hn⟩
    exact ⟨⟨hop, hn⟩, hrsv, .inl hop⟩

/-- Settles O3: every row but BUILD_STEP's matches the whole word of its command; BUILD_STEP's leaves ARG free. -/
theorem opcodeMapRows : Obligations.OpcodeMapRows := by
  unfold Obligations.OpcodeMapRows
  intro w
  have row : ∀ i : Instr, i.wf = true → (decode w = .ok i ↔ w &&& 0xFFFFFFFF = encode i) :=
    fun _ hi => decode_ok_iff_full_mask hi w
  exact ⟨row .nop rfl, row .clear rfl, row .scan rfl, row .build rfl, row .buildInit rfl, decode_buildStep_iff w,
    row .assign rfl, row .pack rfl, row .parse rfl, row .decode rfl, row .compress rfl, row .decompress rfl⟩

end Sys2Proof

namespace Sys2Proof.Machine

/-! ### Illegal words (30_encoding R114) -/

/-- The error of an illegal word in the numbers of 60_exceptions R310. -/
theorem State.takeError_illegal (s : State) (e : Illegal) :
    s.takeError false (Illegal.cause e) 0 = s.failed 4 (if e = .badOpcode then 1 else 2) 0 := by
  cases e <;> rfl

/-- The controller's step while an illegal word runs (30_encoding R114). -/
theorem step_illegal {s : State} (hm : s.controllerMoves) (hb : s.busy = true) {e : Illegal}
    (he : decode s.cmd = .error e) :
    step s = .next (State.failed { s with turns := s.turns.tail } 4 (if e = .badOpcode then 1 else 2) 0) := by
  rw [step_complete hm hb]
  unfold State.complete State.command
  simp only [he]
  rw [execIllegal_eq, State.takeError_illegal]

/-- Settles O5: the decoder's two refusals, the write to CMD, and the step that completes the word. -/
theorem illegalWords : Obligations.IllegalWords := by
  unfold Obligations.IllegalWords
  intro w
  obtain ⟨hopcode, hfield⟩ := decode_error_iff w
  refine ⟨hopcode, hfield, fun s hb e he => ?_⟩
  have haccept : s.hostWrite .word 0x004 w = s.accept w := State.hostWrite_csr hb .cmd w
  exact ⟨s.accept w, haccept, rfl, rfl, fun hm => step_illegal (s := s.accept w) hm rfl he⟩

end Sys2Proof.Machine
end

section
/-!
SUPPORT. The control family (40_control): accept as a write to CMD, the two steps of a NOP, and what CLEAR leaves.
-/

namespace Sys2Proof.Machine

/-! ### Accept (40_control R140) -/

/-- Every write while a command runs is a violation and nothing else (20_memory R86). -/
theorem State.hostWrite_of_busy {s : State} (hb : s.busy = true) (size : Size) (addr data : Word) :
    s.hostWrite size addr data = s.violate := by
  unfold State.hostWrite
  rw [if_pos hb]

/-- An idle write to CMD is the accept of its word (40_control R140). -/
theorem State.hostWrite_cmd {s : State} (hb : s.busy = false) (w : Word) : s.hostWrite .word 0x004 w = s.accept w :=
  State.hostWrite_csr hb .cmd w

/-- Settles O8: an idle write to CMD is accept, whatever the word; a busy one is a violation. -/
theorem acceptWrites : Obligations.AcceptWrites := by
  unfold Obligations.AcceptWrites
  intro s w
  exact ⟨fun hb => State.hostWrite_cmd hb w, fun hb => State.hostWrite_of_busy hb .word 0x004 w⟩

/-! ### NOP (40_control R143) -/

/-- A command whose body makes its writes completes with the writes of 40_control R141 on top. -/
theorem exec_of_body_ok {i : Instr} {s t : State} (h : Instr.body i s = .ok t) : exec i s = .next t.succeeded := by
  rw [exec_eq, h]
  rfl

theorem exec_nop (s : State) : exec .nop s = .next s.succeeded := exec_of_body_ok rfl

/-- A step that is a host write (20_memory R89). -/
theorem step_write {s : State} {size : Size} {addr data : Word} {rest : List Turn}
    (h : s.turns = .write size addr data :: rest) :
    step s = .next (State.hostWrite { s with turns := rest } size addr data) := by
  unfold step State.popTurn
  rw [h]
  rfl

/-- A step that completes the command i (40_control R141). -/
theorem State.completes.step_eq {s : State} {i : Instr} (h : s.completes i) :
    step s = exec i { s with turns := s.turns.tail } := by
  obtain ⟨hb, hm, hi⟩ := h
  rw [step_complete hm hb]
  unfold State.complete State.command
  simp only [hi]

/-- Right after a legal word has been accepted, the controller's step completes its command (40_control R140, R141). -/
theorem step_withAccepted {w : Word} {i : Instr} (hi : decode w = .ok i) (s : State) :
    step (s.withAccepted w) = exec i (s.accept w) :=
  State.completes.step_eq (s := s.withAccepted w) ⟨rfl, .inr rfl, hi⟩

/-- A word written to CMD while idle, with the controller to move next: its command is accepted and completed. -/
theorem runSteps_write_cmd {s : State} (hb : s.busy = false) {w : Word} {i : Instr} (hi : decode w = .ok i)
    {rest : List Turn} (h : s.turns = .write .word 0x004 w :: .controller :: rest) :
    runSteps 2 s = exec i (State.accept { s with turns := rest } w) := by
  have haccept : step s = .next (State.withAccepted { s with turns := rest } w) :=
    (step_write h).trans (congrArg _ (State.hostWrite_cmd (s := { s with turns := .controller :: rest }) hb w))
  rw [runSteps_succ 1 ((runSteps_succ 0 rfl).trans haccept), step_withAccepted hi]

/-- Settles O27: NOP has no body, and its accept has cleared ERR and the error registers. -/
theorem nopClearsErrorOnly : Obligations.NopClearsErrorOnly := by
  unfold Obligations.NopClearsErrorOnly
  intro s
  refine ⟨exec_nop s, fun rest hb ht => ?_⟩
  have hdecode : decode 0x00000000 = .ok .nop := by decide
  rw [runSteps_write_cmd hb hdecode ht, exec_nop]
  rfl

/-! ### CLEAR (40_control R144) -/

theorem exec_clear (s : State) : exec .clear s = .next (clearBody s).succeeded := exec_of_body_ok rfl

/-- BUILD of the empty map drops the tree and raises InvalidInput 1 (42_tree_builder R183, R188). -/
theorem exec_build_of_symCount_eq_zero {s : State} (h : s.symCount = 0) :
    exec .build s = .next (s.dropTree.failed 1 1 0) := by
  rw [exec_eq, show Instr.body .build s = buildBody s from rfl, buildBody_empty s h]
  rfl

/-- Settles O28: CLEAR leaves the empty map and no tree, so that BUILD has no tree left to drop when it raises. -/
theorem clearEmptiesDataPath : Obligations.ClearEmptiesDataPath := by
  unfold Obligations.ClearEmptiesDataPath
  intro s
  have hfreq : ∀ b, (clearBody s).succeeded.freqAt b = 0 := getElem_zeroFreq
  have hsym : (clearBody s).succeeded.symCount = 0 := (State.symCount_eq_zero_iff _).mpr hfreq
  have hdrop : (clearBody s).succeeded.dropTree = (clearBody s).succeeded := rfl
  have hbuild := exec_build_of_symCount_eq_zero hsym
  rw [hdrop] at hbuild
  exact ⟨(clearBody s).succeeded, exec_clear s, rfl, hfreq, hsym, hbuild⟩

end Sys2Proof.Machine
end

section
/-!
SUPPORT. The tree builder family (42_tree_builder): what one merge step selects and writes, and what a complete tree is.
-/

namespace Sys2Proof.Machine

/-! ### The selected nodes (42_tree_builder R181, R184) -/

theorem State.keyLt_iff_keyBelow (s : State) (i j : NodeIdx) : s.keyLt i j = true ↔ s.keyBelow i j := by
  rw [State.keyLt_iff]
  unfold State.keyBelow
  rw [BitVec.toNat_inj]

theorem State.isActive_iff_mem (s : State) (i : NodeIdx) : s.isActive i ↔ i ∈ s.activeSet := (s.mem_activeSet i).symm

/-- The two selected nodes are the least and the second least active ones (42_tree_builder R184). -/
theorem State.selection_least (s : State) (h : 2 ≤ s.activeSet.length) :
    s.isActive s.selection.1 ∧ s.isActive s.selection.2 ∧ s.keyBelow s.selection.1 s.selection.2 ∧
      ∀ c, s.isActive c → c ≠ s.selection.1 → c ≠ s.selection.2 → s.keyBelow s.selection.2 c := by
  simp only [State.isActive_iff_mem, ← State.keyLt_iff_keyBelow]
  obtain ⟨ha, hb, hne, hleast, hsecond⟩ := s.selection_spec h
  exact ⟨ha, hb, hleast _ hb hne.symm, hsecond⟩

/-! ### The merge step (42_tree_builder R185, R187) -/

/-- A merge step finds a free slot below 511 for the new node (42_tree_builder R185). -/
theorem State.Forest.nodeCount_lt {s : State} (h : s.Forest) (h2 : 2 ≤ s.activeCount.toNat) : s.nodeCount.toNat < 511 := by
  have := h.size; have := h.active_le; have := s.symCount_le
  omega

/-- A merge step in MERGE changes the node memory, the counters, ROOT and BSTATE (42_tree_builder R185). -/
theorem mergeStep_frame {s : State} (hm : s.bstate = .merge) : mergeStep s = { s with
    node := (mergeStep s).node, nodeCount := s.nodeCount + 1, activeCount := s.activeCount - 1,
    root := if s.activeCount = 2 then s.nodeCount else s.root,
    bstate := if s.activeCount = 2 then .done else .merge } := by
  have hlast : s.activeCount - 1 = 1 ↔ s.activeCount = 2 := sub_eq_iff_eq_add
  simp only [mergeStep, hlast, hm]

/-- A merge step changes the slots of the selected nodes and of the new node only (42_tree_builder R185). -/
theorem mergeStep_nodeAt_of_ne (s : State) {i : NodeIdx} (ha : i ≠ s.selection.1) (hb : i ≠ s.selection.2)
    (hn : i ≠ s.nodeCount) : (mergeStep s).nodeAt i = s.nodeAt i := by
  by_cases h511 : i = 511
  · rw [h511, State.nodeAt_511, State.nodeAt_511]
  · rw [mergeStep_nodeAt s i h511, if_neg hn.symm, if_neg (not_or.mpr ⟨hb.symm, ha.symm⟩)]

/-- A merge step takes the selected nodes out of the active set and changes nothing else of their slots (42_tree_builder
R185). -/
theorem State.Forest.nodeAt_mergeStep_selected {s : State} (h : s.Forest) (h2 : 2 ≤ s.activeCount.toNat) {i : NodeIdx}
    (hi : s.selection.2 = i ∨ s.selection.1 = i) (hact : s.isActive i) :
    (Machine.mergeStep s).nodeAt i = { s.nodeAt i with active := false } := by
  have hlt := h.nodeCount_lt h2
  have hin := hact.1
  have hnew : s.nodeCount ≠ i := fun e => by rw [e] at hin; omega
  rw [mergeStep_nodeAt s i (ne_511 (by omega)), if_neg hnew, if_pos hi]

/-- A merge step writes the parent of the selected nodes at NODE_COUNT (42_tree_builder R185). -/
theorem State.Forest.nodeAt_mergeStep_new {s : State} (h : s.Forest) (h2 : 2 ≤ s.activeCount.toNat) :
    (Machine.mergeStep s).nodeAt s.nodeCount = s.parentOf s.selection.1 s.selection.2 := by
  rw [mergeStep_nodeAt s _ (ne_511 (h.nodeCount_lt h2)), if_pos rfl]

/-- The sum in a merge step is exact: the new node is an internal node of the new forest (42_tree_builder R187). -/
theorem State.Forest.weight_parentOf {s : State} (h : s.Forest) (h2 : 2 ≤ s.activeCount.toNat) :
    (s.parentOf s.selection.1 s.selection.2).weight.toNat =
      (s.nodeAt s.selection.1).weight.toNat + (s.nodeAt s.selection.2).weight.toNat := by
  obtain ⟨ha, hb, -⟩ := s.selection_least (by rw [h.active_count]; exact h2)
  have hinternal : (Machine.mergeStep s).isInternal s.nodeCount := by
    refine ⟨?_, ?_⟩
    · rw [State.symCount_congr (mergeStep_freq s)]; exact h.count_lt.2
    · rw [mergeStep_nodeCount, toNat_add_one (h.nodeCount_lt h2)]; omega
  obtain ⟨-, -, -, -, -, hsum⟩ := (h.mergeStep h2).internal _ hinternal
  rw [h.nodeAt_mergeStep_new h2] at hsum
  calc (s.parentOf s.selection.1 s.selection.2).weight.toNat
      = ((Machine.mergeStep s).nodeAt s.selection.2).weight.toNat +
          ((Machine.mergeStep s).nodeAt s.selection.1).weight.toNat := hsum
    _ = _ := by
      rw [h.nodeAt_mergeStep_selected h2 (.inl rfl) hb, h.nodeAt_mergeStep_selected h2 (.inr rfl) ha, Nat.add_comm]

/-! ### BUILD_STEP (42_tree_builder R186) -/

theorem exec_buildStep {s : State} (hm : s.bstate = .merge) (n : Nat) :
    exec (.buildStep n) s = .next (mergeSteps n s).succeeded :=
  exec_of_body_ok (if_pos hm)

theorem mergeSteps_one {s : State} (hm : s.bstate = .merge) : mergeSteps 1 s = mergeStep s := if_pos hm

/-- Settles O32: BUILD_STEP 1 is one merge step, with the selected nodes as a and b. -/
theorem mergeStepMakesParent : Obligations.MergeStepMakesParent := by
  unfold Obligations.MergeStepMakesParent
  intro s hinv hm
  have h2 := hinv.tree.merge hm
  have hF := hinv.tree.forest (by rw [hm]; simp)
  obtain ⟨ha, hb, hab, hleast⟩ := s.selection_least (by rw [hF.active_count]; exact h2)
  have hnew := hF.nodeAt_mergeStep_new h2
  refine ⟨s.selection.1, s.selection.2, (mergeStep s).succeeded, ?_, ha, hb, hab, hleast, ?_,
    hF.nodeAt_mergeStep_selected h2 (.inr rfl) ha, hF.nodeAt_mergeStep_selected h2 (.inl rfl) hb, hnew, ?_,
    fun i => mergeStep_nodeAt_of_ne s⟩
  · rw [exec_buildStep hm, mergeSteps_one hm]
  · exact congrArg State.succeeded (mergeStep_frame hm)
  · exact (congrArg (fun x : NodeSlot => x.weight.toNat) hnew).trans (hF.weight_parentOf h2)

/-! ### The complete tree (42_tree_builder R189) -/

/-- A leaf of the forest has the count of its symbol as its weight, without loss (42_tree_builder R189 (b)). -/
theorem State.Forest.leaf_weight {s : State} (h : s.Forest) {i : NodeIdx} (hi : i.toNat < s.symCount) :
    (s.nodeAt i).weight.toNat = (s.freqAt (s.nodeAt i).symbol).toNat := by
  obtain ⟨b, active, -, -, hnode⟩ := h.leaf_of_lt hi
  rw [hnode]
  exact BitVec.toNat_setWidth_of_le (by decide)

/-- The leaves of the forest are the present symbols (42_tree_builder R189 (d)). -/
theorem State.Forest.present_iff {s : State} (h : s.Forest) (b : Byte) :
    s.freqAt b ≠ 0 ↔ ∃ i : NodeIdx, i.toNat < s.symCount ∧ (s.nodeAt i).symbol = b := by
  constructor
  · intro hb
    have hrank := s.rank_lt b hb
    have hk := s.symCount_le
    have hi : (BitVec.ofNat 9 (s.rank b)).toNat = s.rank b := by
      rw [BitVec.toNat_ofNat, Nat.mod_eq_of_lt (by omega)]
    obtain ⟨active, hnode⟩ := h.leaf (BitVec.ofNat 9 (s.rank b)) b (by rw [hi]; exact s.getElem?_rank b hb)
    exact ⟨BitVec.ofNat 9 (s.rank b), by rw [hi]; exact hrank, by rw [hnode]; rfl⟩
  · rintro ⟨i, hi, rfl⟩
    obtain ⟨b, active, hb, -, hnode⟩ := h.leaf_of_lt hi
    rw [hnode]
    exact (s.mem_presentSymbols b).mp hb

/-- A parent has a higher index than its child (42_tree_builder R189 (e)). -/
theorem State.Forest.parent_lt {s : State} (h : s.Forest) {p i : NodeIdx} (hp : s.parent p i) : i.toNat < p.toNat := by
  obtain ⟨hin, hchild⟩ := hp
  obtain ⟨-, -, hzero, hone, -⟩ := h.internal p hin
  rcases hchild with rfl | rfl
  · exact hzero
  · exact hone

/-- ROOT is the one active node of a complete tree (42_tree_builder R189 (f)). -/
theorem State.TreeInv.isActive_iff {s : State} (h : s.TreeInv) (hd : s.bstate = .done) (i : NodeIdx) :
    s.isActive i ↔ i = s.root := by
  have hF := h.forest (by rw [hd]; simp)
  obtain ⟨-, hroot⟩ := h.done hd
  constructor
  · rintro ⟨hi, hact⟩
    have horphan := (hF.active_iff i hi).mp hact
    by_contra hne
    obtain ⟨p, hp⟩ := h.has_parent hd i hi hne
    exact horphan p hp
  · rintro rfl
    have hlt : s.root.toNat < s.nodeCount.toNat := by omega
    refine ⟨hlt, (hF.active_iff _ hlt).mpr fun p hp => ?_⟩
    have := hF.parent_lt hp
    have := hp.1.2
    omega

/-- Settles O36: the forest of a complete build, with ROOT as its only orphan. -/
theorem completeTree : Obligations.CompleteTree := by
  unfold Obligations.CompleteTree
  intro s hinv hvalid
  have hd : s.bstate = .done := of_decide_eq_true hvalid
  have hT := hinv.tree
  have hF := hT.forest (by rw [hd]; simp)
  obtain ⟨hcount, -, hactive, hk⟩ := hT.complete hd
  have hsize : s.nodeCount.toNat + 1 = 2 * s.symCount := by omega
  have hsum : ∀ i : NodeIdx, s.symCount ≤ i.toNat → i.toNat < s.nodeCount.toNat → (s.nodeAt i).weight.toNat =
      (s.nodeAt (s.nodeAt i).zero).weight.toNat + (s.nodeAt (s.nodeAt i).one).weight.toNat := by
    intro i hle hlt
    obtain ⟨-, -, -, -, -, hw⟩ := hF.internal i ⟨hle, hlt⟩
    exact hw
  have hparent : ∀ i : NodeIdx, i.toNat < s.nodeCount.toNat → i ≠ s.root → ∃! p, s.parent p i := by
    intro i hi hne
    obtain ⟨p, hp⟩ := hT.has_parent hd i hi hne
    exact ⟨p, hp, fun q hq => hF.parent_unique q p i hq hp⟩
  exact ⟨⟨hsize, fun i hi => (hF.kind i hi).1⟩, fun i => hF.leaf_weight, hsum, hF.present_iff,
    ⟨hparent, fun p i => hF.parent_lt⟩, hactive, hT.isActive_iff hd⟩

end Sys2Proof.Machine
end

section
/-!
SUPPORT. The code table family (43_codec_table): what a code says about its symbol and its length, what ASSIGN writes for
each symbol, and that the codes of a state with CODES_VALID = 1 are those of its tree.
-/

namespace Sys2Proof.Machine

/-! ### The codes of a complete tree (43_codec_table R213, R214) -/

/-- A code that begins another code is the code of the same symbol: at most one leaf stands on a way down, and a single-leaf
tree has one symbol (43_codec_table R214, R215). -/
theorem State.isCodeOf.eq_of_prefix {s : State} {a b : Byte} {p q : List Bool} (hp : s.isCodeOf a p) (hq : s.isCodeOf b q)
    (h : p <+: q) : a = b := by
  rcases hp with ⟨hs, -, ha⟩ | ⟨hs, hp, -⟩ <;> rcases hq with ⟨hs', -, hb⟩ | ⟨hs', hq, -⟩
  · exact ha.symm.trans hb
  · exact absurd (hs.symm.trans hs') (by decide)
  · exact absurd (hs'.symm.trans hs) (by decide)
  · obtain rfl := hp.prefix_eq hq h
    exact BitVec.eq_of_toNat_eq (hp.symbol.symm.trans hq.symbol)

/-- A complete tree has k - 1 internal nodes for a path to pass through (43_codec_table R213). -/
theorem State.isCodeOf.length_le {s : State} (h : s.TreeInv) (hd : s.bstate = .done) {b : Byte} {p : List Bool}
    (hp : s.isCodeOf b p) : p.length ≤ max 1 (s.symCount - 1) := by
  rcases hp with ⟨-, rfl, -⟩ | ⟨-, hp, hne⟩
  · exact Nat.le_max_left 1 _
  · obtain ⟨hcount, hroot, -, hk⟩ := h.complete hd
    have hF := h.forest (by rw [hd]; simp)
    have hdepth := hF.ends_length s.root (by omega) p _ hp hne
    omega

/-! ### The entries that ASSIGN writes (43_codec_table R210, R212, R215) -/

theorem codeOfPath_len {p : List Bool} (h : p.length ≤ 255) : (codeOfPath p).len.toNat = p.length :=
  Nat.mod_eq_of_lt (Nat.lt_succ_of_le h)

/-- The entry of the code "0" (43_codec_table R215). -/
theorem codeOfPath_zero : codeOfPath [false] = ⟨1, 0⟩ := by decide

section
variable {s : State} (h : s.TreeInv) (hd : s.bstate = .done) {u : Cells Code} (hu : s.codeTable = some u) (b : Byte)
include h hd hu

theorem State.coded_codeAt_absent (hb : s.freqAt b = 0) : (s.coded u).codeAt b = ⟨0, 0⟩ := by
  obtain ⟨habsent, -, -⟩ := h.codeTable_spec hd hu b
  exact s.coded_codeAt u b _ (habsent hb)

theorem State.coded_codeAt_single (hb : s.freqAt b ≠ 0) (hk : s.symCount = 1) : (s.coded u).codeAt b = ⟨1, 0⟩ := by
  obtain ⟨-, hsingle, -⟩ := h.codeTable_spec hd hu b
  rw [s.coded_codeAt u b _ (hsingle hb hk), codeOfPath_zero]

/-- With two leaves or more, the entry of a present symbol is the path to its leaf (43_codec_table R212), the 256 bits of
CODE_BITS filled up with 0 (10_state R54). -/
theorem State.coded_codeAt_path (hb : s.freqAt b ≠ 0) (hk : s.symCount ≠ 1) :
    ∃ p, s.IsPath p b ∧ ((s.coded u).codeAt b).len.toNat = p.length ∧
      ∀ j < 256, ((s.coded u).codeAt b).bits.getMsbD j = p.getD j false := by
  obtain ⟨-, -, hpath⟩ := h.codeTable_spec hd hu b
  obtain ⟨p, hends, hpos, hle, hget⟩ := hpath hb hk
  rw [s.coded_codeAt u b _ hget]
  exact ⟨p, (s.isPath_iff p b).mpr ⟨List.ne_nil_of_length_pos hpos, hends⟩, codeOfPath_len hle, getMsbD_bitsOfPath p⟩

/-- After ASSIGN the symbols with a code are the present ones (43_codec_table R210). -/
theorem State.coded_hasCode_iff : (s.coded u).hasCode b ↔ s.freqAt b ≠ 0 := by
  refine ⟨fun hcode hb => hcode ?_, fun hb => ?_⟩
  · rw [State.coded_codeAt_absent h hd hu b hb]
  · obtain ⟨-, -, hlen⟩ := State.coded_isCodeOf h hd hu b hb
    exact hlen

end

/-! ### ASSIGN (43_codec_table R210, R211) -/

theorem exec_assign_noTree {s : State} (hd : s.bstate ≠ .done) : exec .assign s = .next (s.failed 6 1 0) := by
  have hbody : assignBody s = .raised .noTree 0 s := if_neg hd
  rw [exec_eq, show Instr.body .assign s = assignBody s from rfl, hbody]
  rfl

/-- ASSIGN writes the code table of the tree and sets CODES_VALID (43_codec_table R210, R211). -/
theorem exec_assign {s : State} (hd : s.bstate = .done) {u : Cells Code} (hu : s.codeTable = some u) :
    exec .assign s = .next (s.coded u).succeeded := by
  refine exec_of_body_ok (show assignBody s = _ from ?_)
  unfold assignBody
  rw [if_pos hd]
  simp only [hu]
  rfl

/-- ASSIGN leaves the tree as it is, so a second one makes the same table (43_codec_table R210). -/
theorem State.codeTable_assigned (s : State) (u : Cells Code) : (s.coded u).succeeded.codeTable = s.codeTable :=
  State.codeTable_congr rfl rfl rfl rfl

/-- Settles O38: the entry of each symbol is read off the code table of the tree, which ASSIGN leaves unchanged. -/
theorem assignWritesPaths : Obligations.AssignWritesPaths := by
  unfold Obligations.AssignWritesPaths
  refine fun s => ⟨exec_assign_noTree, fun hinv hd => ?_⟩
  have hT := hinv.tree
  obtain ⟨u, hu⟩ := hT.codeTable_some hd
  have hagain : exec .assign (s.coded u).succeeded = .next ((s.coded u).succeeded.coded u).succeeded :=
    exec_assign (s := (s.coded u).succeeded) hd ((s.codeTable_assigned u).trans hu)
  exact ⟨(s.coded u).succeeded, _, exec_assign hd hu, rfl, State.coded_codeAt_absent hT hd hu,
    State.coded_codeAt_single hT hd hu, State.coded_codeAt_path hT hd hu, hagain, rfl⟩

/-! ### While CODES_VALID = 1 (43_codec_table R213, R214, R216) -/

theorem State.coded_code {s : State} (hv : s.codesValid = true) : s.coded s.code = s := by
  unfold State.coded
  rw [← hv]

section
variable {s : State} (hinv : s.Inv) (hv : s.codesValid = true) {b : Byte}
include hinv hv

/-- The table in CODE_LEN and CODE_BITS is the current tree's (43_codec_table R216), so the symbols with a code are the
present ones. -/
theorem State.Inv.hasCode_iff : s.hasCode b ↔ s.freqAt b ≠ 0 := by
  obtain ⟨hd, hu⟩ := hinv.codes hv
  have hiff := State.coded_hasCode_iff hinv.tree hd hu b
  rwa [State.coded_code hv] at hiff

/-- The string in the code table is the symbol's code under the current tree, and CODE_LEN is its length. -/
theorem State.Inv.isCodeOf_codeString (hb : s.hasCode b) :
    s.isCodeOf b (s.codeString b) ∧ (s.codeAt b).len.toNat = (s.codeString b).length := by
  obtain ⟨hd, hu⟩ := hinv.codes hv
  have hcode := State.coded_isCodeOf hinv.tree hd hu b ((hinv.hasCode_iff hv).mp hb)
  rw [State.coded_code hv] at hcode
  obtain ⟨hcode, hlen, -⟩ := hcode
  exact ⟨hcode, hlen⟩

end

/-- Settles O39: CODE_LEN is the length of a path of the tree, and of a symbol with a code it is not 0. -/
theorem codeLengthBound : Obligations.CodeLengthBound := by
  unfold Obligations.CodeLengthBound
  intro s b hinv hv hb
  obtain ⟨hcode, hlen⟩ := hinv.isCodeOf_codeString hv hb
  obtain ⟨hd, -⟩ := hinv.codes hv
  have hpos : (s.codeAt b).len.toNat ≠ 0 := fun e => hb (BitVec.eq_of_toNat_eq e)
  exact ⟨Nat.one_le_iff_ne_zero.mpr hpos, hlen ▸ hcode.length_le hinv.tree hd⟩

/-- Settles O40: both strings are codes of the current tree, where a code that begins another is of the same symbol. -/
theorem prefixFree : Obligations.PrefixFree := by
  unfold Obligations.PrefixFree
  intro s a b hinv hv hne ha hb hprefix
  obtain ⟨hcodeA, -⟩ := hinv.isCodeOf_codeString hv ha
  obtain ⟨hcodeB, -⟩ := hinv.isCodeOf_codeString hv hb
  exact hne (hcodeA.eq_of_prefix hcodeB hprefix)

end Sys2Proof.Machine
end

section
/-!
SUPPORT. The PACK family (44_bitstream_pack): the state that a successful PACK leaves, and its container read back from OUT_BUF.
-/

namespace Sys2Proof.Machine

/-! ### The container's numbers (44_bitstream_pack R231, R240) -/

theorem State.symCount_eq_alphabetSize (s : State) : s.symCount = s.alphabetSize :=
  s.symCount_eq_nonZero.trans s.alphabetSize_eq_nonZero.symm

/-- Payload and padding fill ceil(n / 8) bytes, so PACK computes the size of R240. -/
theorem containerSize_eq_sizeOfContainer (k n : Nat) : containerSize k n = sizeOfContainer k n :=
  congrArg (headerSize k + ·) (padded_div n)

/-- The encoded payload of the input (44_bitstream_pack R231), offset by offset of IN_BUF. -/
def State.payload (s : State) : List Bool := (List.range s.inLen.toNat).flatMap fun j => s.codeString (s.inByte j)

theorem State.payloadOf_inBytes (s : State) : s.payloadOf s.inBytes = s.payload := List.flatMap_map ..

theorem State.length_payload (s : State) : s.payload.length = s.payloadLength := by
  rw [← s.payloadOf_inBytes, s.length_payloadOf]
  unfold State.inBytes State.payloadLength
  rw [List.map_map]
  rfl

theorem State.length_container_payload (s : State) :
    (s.container s.payload).length = sizeOfContainer s.alphabetSize s.payloadLength := by
  rw [s.length_container, s.symCount_eq_alphabetSize, s.length_payload, containerSize_eq_sizeOfContainer]

/-! ### A successful PACK (44_bitstream_pack R235, R240) -/

/-- The state after the body of a PACK that raises nothing. -/
def State.packed (s : State) : State := { s with
  outBuf := Cells.ofList 0 (s.container s.payload)
  outLen := BitVec.ofNat 32 (sizeOfContainer s.alphabetSize s.payloadLength)
  padding := BitVec.ofNat 3 (padCount s.payloadLength)
  payloadOff := BitVec.ofNat 32 (headerSize s.alphabetSize)
  payloadBits := BitVec.ofNat 64 s.payloadLength }

theorem State.firstWithoutCode_inBytes {s : State} (h : ∀ j < s.inLen.toNat, s.hasCode (s.inByte j)) :
    s.firstWithoutCode s.inBytes 0 = none := by
  refine (s.firstWithoutCode_none _ 0).mpr fun b hb => ?_
  obtain ⟨j, hj, rfl⟩ := List.mem_map.mp hb
  exact h j (List.mem_range.mp hj)

section
variable {s : State} (hfit : sizeOfContainer s.alphabetSize s.payloadLength ≤ s.capOut.toNat)
include hfit

/-- PACK of an input whose bytes all have codes and whose container fits OUT_CAP (44_bitstream_pack R230). -/
theorem exec_pack (hv : s.codesValid = true) (hcodes : ∀ j < s.inLen.toNat, s.hasCode (s.inByte j)) :
    exec .pack s = .next s.packed.succeeded := by
  refine exec_of_body_ok (show packBody s = _ from ?_)
  unfold packBody
  rw [if_neg (ne_false_of_eq_true hv), State.firstWithoutCode_inBytes hcodes]
  simp only [s.payloadOf_inBytes, s.length_payload, s.symCount_eq_alphabetSize, containerSize_eq_sizeOfContainer]
  exact if_neg (Nat.not_lt.mpr hfit)

theorem State.packed_outLen : s.packed.outLen.toNat = sizeOfContainer s.alphabetSize s.payloadLength :=
  Nat.mod_eq_of_lt (hfit.trans_lt s.capOut.isLt)

/-- A payload that fits in OUT_CAP bytes has fewer than 2^35 bits. -/
theorem State.packed_payloadBits : s.packed.payloadBits.toNat = s.payloadLength := by
  have hcap := s.capOut.isLt
  unfold sizeOfContainer at hfit
  exact Nat.mod_eq_of_lt (by omega)

/-- After PACK, OUT_BUF reads as the container (44_bitstream_pack R235). -/
theorem State.packed_outByte {j : Nat} {b : Byte} (hb : (s.container s.payload)[j]? = some b) :
    s.packed.succeeded.outByte j = b := by
  obtain ⟨hj, -⟩ := List.getElem?_eq_some_iff.mp hb
  rw [s.length_container_payload, ← State.packed_outLen hfit] at hj
  have hget : Cells.get? s.packed.outBuf j = some b := by
    rw [show s.packed.outBuf = Cells.ofList 0 (s.container s.payload) from rfl, Cells.get?_ofList, if_pos (Nat.zero_le j)]
    exact hb
  calc s.packed.succeeded.outByte j
      = (Cells.get? s.packed.outBuf j).getD (Config.outByte s.packed.succeeded.draw j) := if_pos hj
    _ = b := by rw [hget, Option.getD_some]

/-! ### The container read back from OUT_BUF (44_bitstream_pack R233) -/

theorem State.packed_count :
    (s.packed.succeeded.outByte 0).toNat * 2 ^ 8 + (s.packed.succeeded.outByte 1).toNat = s.alphabetSize := by
  obtain ⟨hhigh, hlow⟩ := s.container_count s.payload
  rw [State.packed_outByte hfit hhigh, State.packed_outByte hfit hlow,
    bytes16_value _ (s.symCount_le.trans_lt (by decide)), s.symCount_eq_alphabetSize]

/-- The entry of a present symbol stands at its rank (44_bitstream_pack R232). -/
theorem State.packed_entry (b : Byte) (hb : s.freqAt b ≠ 0) :
    s.packed.succeeded.outByte (2 + 5 * s.rank b) = b ∧
      s.packed.succeeded.outByte (3 + 5 * s.rank b) ++ s.packed.succeeded.outByte (4 + 5 * s.rank b) ++
          s.packed.succeeded.outByte (5 + 5 * s.rank b) ++ s.packed.succeeded.outByte (6 + 5 * s.rank b) =
        s.freqAt b := by
  have hbyte : ∀ r < 5, ∀ v, (b :: bytes32 (s.freqAt b))[r]? = some v →
      s.packed.succeeded.outByte (r + 2 + 5 * s.rank b) = v := fun r hr v hv => by
    rw [show r + 2 + 5 * s.rank b = 2 + 5 * s.rank b + r by omega]
    exact State.packed_outByte hfit ((s.container_entry _ _ r hr b (s.getElem?_rank b hb)).trans hv)
  refine ⟨hbyte 0 (by decide) _ rfl, ?_⟩
  rw [hbyte 1 (by decide) _ rfl, hbyte 2 (by decide) _ rfl, hbyte 3 (by decide) _ rfl, hbyte 4 (by decide) _ rfl]
  exact bytes32_append (s.freqAt b)

theorem State.packed_padding :
    (s.packed.succeeded.outByte (2 + 5 * s.alphabetSize)).toNat = padCount s.payloadLength := by
  have hpad := s.container_padding s.payload
  rw [s.symCount_eq_alphabetSize, s.length_payload] at hpad
  rw [State.packed_outByte hfit hpad]
  exact Nat.mod_eq_of_lt ((padCount_lt _).trans (by decide))

/-- The payload bits in OUT_BUF are those of the padded payload (44_bitstream_pack R236, R237). -/
theorem State.packed_outBit {q : Nat} (hq : q < s.payloadLength + padCount s.payloadLength) :
    (padded s.payload)[q]? = some (s.packed.succeeded.outBit (headerSize s.alphabetSize) q) := by
  have hlen : (padded s.payload).length = s.payloadLength + padCount s.payloadLength := by
    rw [length_padded, s.length_payload]
  have hwhole := padded_dvd s.payloadLength
  have hbyte : q / 8 < (padded s.payload).length / 8 := by omega
  have hget := (s.container_payload s.payload (q / 8)).trans
    (List.getElem?_eq_getElem ((length_bytesOfBits _).symm ▸ hbyte))
  rw [s.symCount_eq_alphabetSize] at hget
  unfold State.outBit
  rw [State.packed_outByte hfit hget, getElem_bytesOfBits _ q hbyte, List.getElem?_eq_getElem (hlen ▸ hq),
    List.getD_eq_getElem]

theorem State.packed_payload_bit {q : Nat} (hq : q < s.payloadLength) :
    s.payload[q]? = some (s.packed.succeeded.outBit (headerSize s.alphabetSize) q) := by
  rw [← State.packed_outBit hfit (hq.trans_le (Nat.le_add_right _ _))]
  exact (List.getElem?_append_left (by rwa [s.length_payload])).symm

theorem State.packed_padding_bit {q : Nat} (hle : s.payloadLength ≤ q)
    (hq : q < s.payloadLength + padCount s.payloadLength) :
    s.packed.succeeded.outBit (headerSize s.alphabetSize) q = false := by
  have hbit := State.packed_outBit hfit hq
  unfold padded at hbit
  rw [List.getElem?_append_right (by rwa [s.length_payload]), List.getElem?_replicate, s.length_payload,
    if_pos (by omega)] at hbit
  exact (Option.some.inj hbit).symm

end

/-- Settles O43: the bytes that PACK writes are the container's, each read back at its offset. -/
theorem packWritesContainer : Obligations.PackWritesContainer := by
  unfold Obligations.PackWritesContainer
  rintro s k n rfl rfl hv hcodes hfit
  exact ⟨s.packed.succeeded, exec_pack hfit hv hcodes, rfl, State.packed_outLen hfit, State.packed_payloadBits hfit,
    State.packed_count hfit, State.packed_entry hfit, State.packed_padding hfit, s.length_payload,
    fun _ => State.packed_payload_bit hfit, fun _ => State.packed_padding_bit hfit⟩

end Sys2Proof.Machine
end

section
/-!
SUPPORT. The composite family (46_composite): what COMPRESS leaves in OUT_BUF, and DECOMPRESS of the same bytes in IN_BUF.
-/

namespace Sys2Proof.Machine

/-! ### The bytes of OUT_BUF (10_state R56) -/

/-- OUT_BUF[0 .. OUT_LEN-1] is a list of bytes. -/
def State.outputs (t : State) (bs : List Byte) : Prop :=
  t.outLen.toNat = bs.length ∧ ∀ (j : Nat) (b : Byte), bs[j]? = some b → t.outByte j = b

theorem State.outputs_of_ofList {t : State} {bs : List Byte} (hbuf : t.outBuf = Cells.ofList 0 bs)
    (hlen : t.outLen.toNat = bs.length) : t.outputs bs := by
  refine ⟨hlen, fun j b hb => ?_⟩
  obtain ⟨hj, -⟩ := List.getElem?_eq_some_iff.mp hb
  have hget : Cells.get? t.outBuf j = some b := by
    rw [hbuf, Cells.get?_ofList, if_pos (Nat.zero_le j)]
    exact hb
  unfold State.outByte
  rw [if_pos (hlen ▸ hj), hget, Option.getD_some]

/-- A host that copies the output of one block to the input of another hands over the same bytes. -/
theorem State.outputs.holds {c r : State} {bs : List Byte} (h : c.outputs bs) (hlen : r.inLen = c.outLen)
    (hcopy : ∀ j < c.outLen.toNat, r.inByte j = c.outByte j) : r.holds bs := by
  obtain ⟨hout, hbytes⟩ := h
  refine ⟨hlen ▸ hout, fun j b hb => ?_⟩
  obtain ⟨hj, -⟩ := List.getElem?_eq_some_iff.mp hb
  rw [hcopy j (hout ▸ hj), hbytes j b hb]

theorem State.length_inBytes (s : State) : s.inBytes.length = s.inLen.toNat := by
  unfold State.inBytes
  rw [List.length_map, List.length_range]

theorem State.getElem?_inBytes {s : State} {j : Nat} (hj : j < s.inLen.toNat) : s.inBytes[j]? = some (s.inByte j) := by
  unfold State.inBytes
  rw [List.getElem?_map, List.getElem?_range hj, Option.map_some]

/-! ### COMPRESS (46_composite R290) -/

/-- COMPRESS of the empty input raises InvalidInput 1 (90_conflicts C3). -/
theorem exec_compress_empty {s : State} (h0 : s.inLen = 0) :
    exec .compress s = .next ((scanBody s).takeError true .emptyMap 0) := by
  rw [exec_eq, show Instr.body .compress s = compressBody s from rfl, compressBody_empty s h0]
  rfl

/-- A COMPRESS without error leaves the container of the input's counts and codes in OUT_BUF: its size fits OUT_CAP, so
OUT_LEN holds it. -/
theorem exec_compress_outputs {s c : State} (h0 : s.inLen ≠ 0) (h : exec .compress s = .next c) (hc : c.err = false) :
    ∃ u, (scanBody s).tree.codeTable = some u ∧
      c.outputs ((s.compressed u).container ((s.compressed u).payloadOf s.inBytes)) := by
  obtain ⟨u, hu, hbody⟩ := compressBody_eq s h0
  rw [compress_pack s h0 hu] at hbody
  rw [exec_eq, show Instr.body .compress s = compressBody s from rfl, hbody] at h
  refine ⟨u, hu, ?_⟩
  by_cases hfit : s.capOut.toNat < s.compressedSize u
  · rw [if_pos hfit] at h
    obtain rfl := Host.Outcome.next.inj h
    cases hc
  · rw [if_neg hfit] at h
    obtain rfl := Host.Outcome.next.inj h
    have hsize : ((s.compressed u).container ((s.compressed u).payloadOf s.inBytes)).length = s.compressedSize u := by
      have hfreq : (s.compressed u).freq = (scanBody s).freq := by rw [s.compressed_frame]; rfl
      rw [State.length_container, State.symCount_congr hfreq]
      rfl
    refine State.outputs_of_ofList rfl ?_
    rw [hsize]
    exact Nat.mod_eq_of_lt ((Nat.not_lt.mp hfit).trans_lt s.capOut.isLt)

/-! ### DECOMPRESS (46_composite R291, R292) -/

/-- DECOMPRESS of the container of an input that fits OUT_CAP leaves that input in OUT_BUF, and no error of its own. -/
theorem exec_decompress_outputs {s r : State} (h0 : s.inLen ≠ 0) {u : Cells Code}
    (hu : (scanBody s).tree.codeTable = some u)
    (hr : r.holds ((s.compressed u).container ((s.compressed u).payloadOf s.inBytes)))
    (hcap : s.inLen.toNat ≤ r.capOut.toNat) :
    ∃ d : State, exec .decompress r = .next d ∧ d.err = r.err ∧ d.outLen = s.inLen ∧ d.outputs s.inBytes := by
  obtain ⟨t, hbody, -, -, -, -, herr⟩ := decompressBody_container s r h0 hu hr hcap
  exact ⟨_, exec_of_body_ok (i := .decompress) hbody, herr, rfl, State.outputs_of_ofList rfl s.length_inBytes.symm⟩

/-- Settles O52: COMPRESS leaves the container in OUT_BUF, the host copies it to IN_BUF, and DECOMPRESS rebuilds the same
tree from its header and walks the payload's codes back to the input. -/
theorem roundTrip : Obligations.RoundTrip := by
  unfold Obligations.RoundTrip
  refine ⟨fun s c r h0 _ hcompress hc hlen hcopy hcap hr => ?_, fun s h0 => ?_⟩
  · obtain ⟨u, hu, hcontainer⟩ := exec_compress_outputs h0 hcompress hc
    obtain ⟨d, hdecompress, herr, hout, -, hbytes⟩ :=
      exec_decompress_outputs h0 hu (hcontainer.holds hlen hcopy) hcap
    exact ⟨d, hdecompress, herr.trans hr, hout, fun j hj => hbytes j _ (State.getElem?_inBytes hj)⟩
  · exact ⟨_, exec_compress_empty h0, rfl, rfl, rfl⟩

end Sys2Proof.Machine
end

section
/-!
SUPPORT. The interrupt line (60_exceptions R316, R317): what each part of a step does to irq.
-/

namespace Sys2Proof.Machine

/-! ### What an access reaches (20_memory R80) -/

theorem csrPlace_eq_csr {a : Nat} {r : Csr} (h : csrPlace a = .csr r) : a = r.offset := by
  unfold csrPlace at h
  split at h
  · rename_i q hq
    obtain rfl := Place.csr.inj h
    exact (of_decide_eq_true (List.find?_some (p := fun r : Csr => decide (r.offset = a)) hq)).symm
  · cases h

/-- Only a word access at its offset reaches a CSR (10_state R31). -/
theorem State.place_eq_csr {s : State} {size : Size} {addr : Word} {r : Csr} (h : s.place size addr = some (.csr r)) :
    size = .word ∧ addr = BitVec.ofNat 32 r.offset := by
  unfold State.place at h
  dsimp only at h
  split at h
  · split at h
    · rename_i hsize
      split at h
      · exact ⟨hsize.1, by rw [← csrPlace_eq_csr (Option.some.inj h), BitVec.ofNat_toNat, BitVec.setWidth_eq]⟩
      · repeat' split at h
        all_goals cases h
    · cases h
  · repeat' split at h
    all_goals cases h

/-! ### The line (60_exceptions R316) -/

/-- irq is the conjunction of DONE and IRQ_EN (60_exceptions R316). -/
theorem State.irq_iff (s : State) : s.irq = true ↔ s.done = true ∧ s.irqEn = true := Bool.and_eq_true_iff

/-- irq after a write to STATUS: the write can clear DONE and leaves IRQ_EN alone (10_state R33). -/
theorem State.writeStatus_irq (s : State) (data : Word) : (s.writeStatus data).irq = (s.irq && !data.getLsbD 1) :=
  Bool.and_right_comm s.done (!data.getLsbD 1) s.irqEn

theorem State.hostRead_irq (s : State) (size : Size) (addr : Word) : (s.hostRead size addr).irq = s.irq := by
  cases h : s.place size addr with
  | none => rw [State.hostRead_of_none h]; rfl
  | some p =>
    rw [State.hostRead_of_place h]
    split <;> rfl

theorem State.writeInLen_irq (s : State) (data : Word) : (s.writeInLen data).irq = s.irq := by
  unfold State.writeInLen
  split <;> rfl

/-- An idle write that raises irq sets IRQ_EN in CONFIG while DONE is 1 (60_exceptions R317). -/
theorem State.idleWrite_raises_irq {s : State} {data : Word} {p : Place} (h0 : s.irq = false)
    (h1 : (s.idleWrite data p).irq = true) : p = .csr .config ∧ s.done = true ∧ data.getLsbD 1 = true := by
  have raised : (s.idleWrite data p).irq ≠ s.irq := by rw [h0, h1]; decide
  cases p with
  | csr r =>
    cases r with
    | config => exact ⟨rfl, (s.writeConfig data).irq_iff.mp h1⟩
    | cmd => exact absurd h1 Bool.false_ne_true
    | status =>
      have h : (s.writeStatus data).irq = true := h1
      rw [State.writeStatus_irq, h0] at h
      cases h
    | inLen => exact absurd (s.writeInLen_irq data) raised
    | _ => exact absurd rfl raised
  | _ => exact absurd rfl raised

/-- A host write that raises irq is an idle one to CONFIG (60_exceptions R317). -/
theorem State.hostWrite_raises_irq {s : State} {size : Size} {addr data : Word} (h0 : s.irq = false)
    (h1 : (s.hostWrite size addr data).irq = true) :
    s.busy = false ∧ s.done = true ∧ size = .word ∧ addr = 0x014 ∧ data.getLsbD 1 = true := by
  rcases s.hostWrite_cases size addr data with h | ⟨hb, p, hp, h⟩ <;> rw [h] at h1
  · exact absurd (h0.symm.trans h1) Bool.false_ne_true
  · obtain ⟨rfl, hdone, hbit⟩ := State.idleWrite_raises_irq h0 h1
    obtain ⟨hsize, haddr⟩ := State.place_eq_csr hp
    exact ⟨hb, hdone, hsize, haddr, hbit⟩

/-! ### Completion (40_control R141) -/

/-- No command body writes CONFIG (10_state R37). -/
theorem Keeps.irqEn_eq {s t : State} (h : Keeps s t) : t.irqEn = s.irqEn := by
  unfold Keeps at h
  rw [h]

/-- No command changes IRQ_EN (10_state R37). -/
theorem exec_irqEn {i : Instr} {s t : State} (h : exec i s = .next t) : t.irqEn = s.irqEn := by
  rcases exec_next h with ⟨u, -, ⟨hk, -⟩, rfl⟩ | ⟨c, info, u, -, ⟨hk, -⟩, rfl⟩
  · exact hk.irqEn_eq
  · exact hk.irqEn_eq

/-- A completed command leaves DONE set, so irq shows IRQ_EN (60_exceptions R316). -/
theorem exec_irq {i : Instr} {s t : State} (h : exec i s = .next t) : t.irq = s.irqEn := by
  obtain ⟨-, hdone, -⟩ := exec_flags h
  rw [State.irq, hdone, exec_irqEn h, Bool.true_and]

/-- The same for every word that completes, the illegal ones among them (30_encoding R114). -/
theorem complete_irq {s t : State} (h : s.complete = .next t) : t.irq = s.irqEn := by
  rcases complete_cases h with ⟨i, -, he⟩ | ⟨e, rfl⟩
  · exact exec_irq he
  · exact Bool.true_and s.irqEn

/-- Settles O23: a completion sets DONE and keeps IRQ_EN, and of the turns that are no completion only an idle write to
CONFIG can raise the line. -/
theorem irqLine : Obligations.IrqLine := by
  unfold Obligations.IrqLine
  refine ⟨State.irq_iff, fun s data hb => ⟨?_, ?_, ?_⟩, fun _ _ _ h => exec_irq h, fun s t h h0 h1 => ?_⟩
  · exact congrArg State.irq (State.hostWrite_csr hb .config data)
  · exact (congrArg State.irq (State.hostWrite_csr hb .status data)).trans (s.writeStatus_irq data)
  · exact congrArg State.irq (State.hostWrite_cmd hb data)
  · have raised : t.irq ≠ s.irq := by rw [h0, h1]; decide
    rcases step_cases h with
      ⟨hm, ⟨hb, hc⟩ | ⟨-, rfl⟩⟩ | ⟨size, addr, -, -, rfl⟩ | ⟨size, addr, data, rest, hw, rfl⟩ | ⟨-, rfl⟩
    · exact .inl ⟨hb, hm, (complete_irq hc).symm.trans h1⟩
    · exact absurd rfl raised
    · exact absurd (s.popTurn.hostRead_irq size addr) raised
    · obtain ⟨hb, hdone, rfl, rfl, hbit⟩ := State.hostWrite_raises_irq (s := s.popTurn) h0 h1
      exact .inr ⟨hb, hdone, data, congrArg List.head? hw, hbit⟩
    · exact absurd h1 Bool.false_ne_true

end Sys2Proof.Machine
end

section
/-!
SUPPORT. The sequence of commands right after reset (70_reset_and_hazards R342): which command raises without its
prerequisite.
-/

namespace Sys2Proof.Machine

/-! ### A raise, run whole (60_exceptions R313) -/

/-- A body that raises completes on error; of the commands that do not spoil OUT_BUF. -/
theorem exec_of_body_raised {i : Instr} {s t : State} {c : Cause} {info : Word} (hi : Instr.spoils i = false)
    (h : Instr.body i s = .raised c info t) : exec i s = .next (t.failed c.code c.sub info) := by
  rw [exec_eq, h, hi]
  rfl

/-- A body that raises completes on error; of the commands that leave OUT_BUF unspecified then. -/
theorem exec_of_body_raised_spoils {i : Instr} {s t : State} {c : Cause} {info : Word} (hi : Instr.spoils i = true)
    (h : Instr.body i s = .raised c info t) : exec i s = .next (t.spoiled c.code c.sub info) := by
  rw [exec_eq, h, hi]
  rfl

/-! ### The prerequisites of the commands (60_exceptions R310) -/

/-- PACK without code tables raises SequenceError 2 (44_bitstream_pack R230). -/
theorem exec_pack_noCodes {s : State} (h : s.codesValid = false) : exec .pack s = .next (s.spoiled 6 2 0) :=
  exec_of_body_raised_spoils (c := .noCodes) rfl (show packBody s = _ from if_pos h)

/-- DECODE without a parsed header raises SequenceError 3 (45_container_decode R270). -/
theorem exec_decode_noHeader {s : State} (h : s.hdrValid = false) : exec .decode s = .next (s.spoiled 6 3 0) :=
  exec_of_body_raised_spoils (c := .noHeader) rfl (show decodeBody s = _ from if_pos h)

/-- BUILD_STEP outside MERGE raises SequenceError 4 (42_tree_builder R186). -/
theorem exec_buildStep_notMerging {s : State} (h : s.bstate ≠ .merge) (n : Nat) :
    exec (.buildStep n) s = .next (s.failed 6 4 0) :=
  exec_of_body_raised (c := .notMerging) rfl (show buildStepBody n s = _ from if_neg h)

/-! ### The commands after reset (70_reset_and_hazards R342) -/

/-- Settles O26: accept keeps the reset state's empty map, flags and BSTATE, so each command meets its missing prerequisite;
BUILD has no tree to drop when it raises. -/
theorem commandsAfterReset : Obligations.CommandsAfterReset := by
  unfold Obligations.CommandsAfterReset
  intro cin cout w
  have haccept := State.hostWrite_cmd (s := State.resetOf cin cout) rfl w
  have hfreq := State.freqAt_resetOf cin cout
  have hsym : ((State.resetOf cin cout).accept w).symCount = 0 := (State.symCount_eq_zero_iff _).mpr hfreq
  have hdrop : ((State.resetOf cin cout).accept w).dropTree = (State.resetOf cin cout).accept w := rfl
  have hbuild := exec_build_of_symCount_eq_zero hsym
  rw [hdrop] at hbuild
  have hidle : ((State.resetOf cin cout).accept w).bstate = .idle := rfl
  have hassign := exec_assign_noTree (s := (State.resetOf cin cout).accept w) (by rw [hidle]; decide)
  have hstep := exec_buildStep_notMerging (s := (State.resetOf cin cout).accept w) (by rw [hidle]; decide)
  exact ⟨_, _, rfl, haccept, rfl, rfl, hfreq, rfl, rfl, rfl, rfl, hbuild, hassign, exec_pack_noCodes rfl,
    exec_decode_noHeader rfl, hstep⟩

end Sys2Proof.Machine
end

section
/-!
SUPPORT. The command word read both ways (30_encoding R110 to R114), and words written out bit by bit.
-/

namespace Sys2Proof

/-- Settles O1: the word of a well-formed command is the one word that decodes to it. -/
theorem decodeOfEncode : Obligations.DecodeOfEncode := by
  unfold Obligations.DecodeOfEncode
  exact fun i hi => (decode_ok_iff_eq_encode hi _).mpr rfl

/-- The decoder gives well-formed commands only (30_encoding R111). -/
theorem wf_of_decode {w : Word} {i : Instr} (h : decode w = .ok i) : i.wf = true := by
  obtain ⟨hcommand, -, -⟩ := (decode_ok_iff w i).mp h
  obtain ⟨-, hwf, -, -⟩ := commandOf_some hcommand
  exact hwf

/-- Settles O2: a decoded command is well formed, so its word is the one that decodes to it. -/
theorem encodeOfDecode : Obligations.EncodeOfDecode := by
  unfold Obligations.EncodeOfDecode
  intro w i h
  have hwf := wf_of_decode h
  exact ⟨hwf, ((decode_ok_iff_eq_encode hwf w).mp h).symm⟩

/-- OP of a word that decodes to a command is the command's opcode (30_encoding R113). -/
theorem opField_of_decode {w : Word} {i : Instr} (h : decode w = .ok i) : opField w = i.opcode := by
  rw [(decode_ok_iff_eq_encode (wf_of_decode h) w).mp h, opField_encode]

/-- A word of the opcode table reads as a command exactly when the decoder gives that command. -/
theorem decodeTableWord_iff (nbits w : Nat) (i : Instr) :
    decodeTableWord nbits w = some i ↔ decode (tableWord nbits w) = .ok i := by
  unfold decodeTableWord
  cases decode (tableWord nbits w) with
  | error e => exact ⟨(nomatch ·), (nomatch ·)⟩
  | ok j => exact ⟨fun h => congrArg Except.ok (Option.some.inj h), fun h => congrArg some (Except.ok.inj h)⟩

/-- Settles O4: the decoder evaluated on each word. -/
theorem writtenOutWords : Obligations.WrittenOutWords := by
  unfold Obligations.WrittenOutWords
  decide

end Sys2Proof
end

section
/-!
SUPPORT. Whole steps and runs (20_memory R89, 70_reset_and_hazards): what a step does, that it keeps the invariant and never
stops, and that the listed turns run out.
-/

namespace Sys2Proof.Machine

/-! ### The invariant (70_reset_and_hazards R340, R353) -/

/-- Settles O57: the reset state is one of those that a reset leaves, with no turn listed and both counters 0. -/
theorem invAtReset : Obligations.InvAtReset := by
  unfold Obligations.InvAtReset
  exact fun cin cout h1 h2 h3 h4 => reset_like_inv cin cout h1 h2 h3 h4 [] 0 0

/-- Settles O58: each kind of turn keeps the invariant, and taking the turn off the list does not touch it. -/
theorem stepKeepsInv : Obligations.StepKeepsInv := by
  unfold Obligations.StepKeepsInv
  intro s t hs h
  have hpop := popTurn_inv hs
  rcases step_cases h with
    ⟨-, ⟨hb, hc⟩ | ⟨-, rfl⟩⟩ | ⟨size, addr, -, -, rfl⟩ | ⟨size, addr, data, -, -, rfl⟩ | ⟨-, rfl⟩
  · exact complete_inv hpop hb hc
  · exact hpop
  · exact hostRead_inv hpop size addr
  · exact hostWrite_inv hpop size addr data
  · exact rst_inv hpop

/-- Settles O59: only the controller's turn can stop, and under the invariant its command completes. -/
theorem stepNeverStops : Obligations.StepNeverStops := by
  unfold Obligations.StepNeverStops
  intro s hs
  unfold step
  split
  · exact controllerTurn_completes hs
  · exact controllerTurn_completes (popTurn_inv hs)
  · exact ⟨_, rfl⟩
  · exact ⟨_, rfl⟩
  · exact ⟨_, rfl⟩

/-! ### Runs through the listed turns (70_reset_and_hazards R353) -/

theorem runSteps_of_step {s t : State} (h : step s = .next t) (n : Nat) : runSteps (n + 1) s = runSteps n t := by
  simp only [runSteps, h]

/-- The listed turns run out without a stop, and what every step from a listed turn keeps holds at their end. -/
theorem runSteps_turns {P : State → Prop} (hstep : ∀ a b, P a → a.turns ≠ [] → step a = .next b → P b) {s : State}
    (hs : s.Inv) (hP : P s) : ∃ t, runSteps s.turns.length s = .next t ∧ t.Inv ∧ t.turns = [] ∧ P t := by
  generalize hn : s.turns.length = n
  induction n generalizing s with
  | zero => exact ⟨s, rfl, hs, List.length_eq_zero_iff.mp hn, hP⟩
  | succ n ih =>
    obtain ⟨t, ht⟩ := stepNeverStops s hs
    have hne : s.turns ≠ [] := List.ne_nil_of_length_eq_add_one hn
    obtain ⟨u, hu⟩ := ih (stepKeepsInv s t hs ht) (hstep s t hP hne ht)
      (by rw [step_turns ht, List.length_tail, hn, Nat.add_sub_cancel])
    exact ⟨u, (runSteps_of_step ht n).trans hu.1, hu.2⟩

/-- The controller's turn leaves the block idle (40_control R141). -/
theorem controllerTurn_busy {s t : State} (h : s.controllerTurn = .next t) : t.busy = false := by
  unfold State.controllerTurn at h
  split at h
  · obtain ⟨hbusy, -⟩ := complete_flags h
    exact hbusy
  · rename_i hb
    obtain rfl := Host.Outcome.next.inj h
    exact Bool.eq_false_iff.mpr hb

/-- With no turn listed the controller moves. -/
theorem step_of_turns_nil {s : State} (h : s.turns = []) : step s = s.controllerTurn := by
  unfold step
  rw [h]

/-- What a read can change: HOST_VIOL, the read data and the model's own counter (20_memory R84, R87, R88). -/
theorem State.hostRead_frame (s : State) (size : Size) (addr : Word) : s.hostRead size addr = { s with
    hostViol := (s.hostRead size addr).hostViol, rdata := (s.hostRead size addr).rdata,
    draw := (s.hostRead size addr).draw } := by
  cases h : s.place size addr with
  | none => rw [State.hostRead_of_none h]
  | some p =>
    rw [State.hostRead_of_place h]
    split <;> rfl

/-- The command in CMD runs, and no listed turn resets the block or lets the controller move. -/
def State.heldBusy (s : State) (w : Word) : Prop :=
  s.busy = true ∧ s.cmd = w ∧ ∀ u ∈ s.turns, u ≠ .rst ∧ u ≠ .controller

/-- A host access leaves the running command running (20_memory R86, R87). -/
theorem State.heldBusy.step {a b : State} {w : Word} (h : a.heldBusy w) (hne : a.turns ≠ [])
    (hab : Machine.step a = .next b) : b.heldBusy w := by
  obtain ⟨hb, hcmd, hturns⟩ := h
  have htail : ∀ u ∈ b.turns, u ≠ .rst ∧ u ≠ .controller := by
    rw [step_turns hab]
    exact fun u hu => hturns u (List.mem_of_mem_tail hu)
  have hhead : ∀ u, a.turns.head? = some u → u ≠ .rst ∧ u ≠ .controller := fun u hu => hturns u (List.mem_of_mem_head? hu)
  rcases step_cases hab with ⟨hnil | hc, -⟩ | ⟨size, addr, -, -, rfl⟩ | ⟨size, addr, data, -, -, rfl⟩ | ⟨hr, -⟩
  · exact absurd hnil hne
  · exact absurd rfl (hhead _ hc).2
  · rw [State.hostRead_frame]
    rw [State.hostRead_frame] at htail
    exact ⟨hb, hcmd, htail⟩
  · rw [State.hostWrite_of_busy (s := a.popTurn) hb] at htail ⊢
    exact ⟨hb, hcmd, htail⟩
  · exact absurd rfl (hhead _ hr).1

/-- Settles O60: the listed turns run out, the command still running where only the host moved, and the controller's turn
after them completes it. -/
theorem commandsComplete : Obligations.CommandsComplete := by
  unfold Obligations.CommandsComplete
  intro s hs
  constructor
  · obtain ⟨u, hrun, hu, hnil, -⟩ := runSteps_turns (P := fun _ => True) (fun _ _ _ _ _ => trivial) hs trivial
    obtain ⟨t, ht⟩ := controllerTurn_completes hu
    exact ⟨t, (runSteps_succ _ hrun).trans ((step_of_turns_nil hnil).trans ht), controllerTurn_busy ht⟩
  · intro hb hturns
    obtain ⟨u, hrun, hu, hnil, hbusy, hcmd, -⟩ :=
      runSteps_turns (P := fun a => a.heldBusy s.cmd) (fun _ _ h => h.step) hs ⟨hb, rfl, hturns⟩
    obtain ⟨t, ht⟩ := complete_completes hu
    obtain ⟨hidle, hdone, -, -, hsame⟩ := complete_flags ht
    have hturn : u.controllerTurn = .next t := (if_pos hbusy).trans ht
    exact ⟨t, (runSteps_succ _ hrun).trans ((step_of_turns_nil hnil).trans hturn), hidle, hdone, hsame.trans hcmd⟩

/-! ### Single steps (20_memory R89, 40_control R140, R141, 70_reset_and_hazards R340) -/

/-- A step that is a host read (20_memory R89). -/
theorem step_read {s : State} {size : Size} {addr : Word} {rest : List Turn} (h : s.turns = .read size addr :: rest) :
    step s = .next (State.hostRead { s with turns := rest } size addr) := by
  unfold step State.popTurn
  rw [h]
  rfl

/-- The controller's step while the block is idle (60_exceptions R323). -/
theorem step_idle {s : State} (hm : s.controllerMoves) (hb : s.busy = false) :
    step s = .next { s with turns := s.turns.tail } := by
  rw [step_controller hm]
  unfold State.controllerTurn
  rw [if_neg (Bool.eq_false_iff.mp hb)]

/-- Settles O6: one lemma for each kind of turn. -/
theorem stepRunsDecodedCommand : Obligations.StepRunsDecodedCommand := by
  unfold Obligations.StepRunsDecodedCommand
  intro s
  exact ⟨fun i hb hm hi => State.completes.step_eq ⟨hb, hm, hi⟩, fun hb hm => step_idle hm hb,
    fun size addr rest => step_read, fun size addr data rest => step_write⟩

/-- Settles O7: the placed word is accepted, and the controller moves next. -/
theorem placedWordRuns : Obligations.PlacedWordRuns := by
  unfold Obligations.PlacedWordRuns
  intro s nbits w i h
  exact step_withAccepted ((decodeTableWord_iff nbits w i).mp h) s

/-- Settles O25: reset, whatever else the state holds. -/
theorem resetTurn : Obligations.ResetTurn := by
  unfold Obligations.ResetTurn
  intro s rest h
  unfold step State.popTurn
  rw [h]
  rfl

end Sys2Proof.Machine
end

section
/-!
SUPPORT. What every completion leaves unchanged (40_control R141), what the commands that do not write OUT_BUF do to it
(20_memory R81), and the rows of the error table (60_exceptions R310).
-/

namespace Sys2Proof.Machine

/-! ### The frame of a completion (20_memory R81, 40_control R141) -/

/-- t is s after a completion: the flags of 40_control R141, and of the rest only what command bodies and completion on error
write. -/
def Completed (s t : State) : Prop := t = { s with
  busy := false, done := true, phase := 0, draw := s.draw + 1, err := t.err, errCode := t.errCode, errSub := t.errSub,
  errOp := t.errOp, errInfo := t.errInfo, codesValid := t.codesValid, hdrValid := t.hdrValid, single := t.single,
  bstate := t.bstate, outLen := t.outLen, nodeCount := t.nodeCount, activeCount := t.activeCount, root := t.root,
  padding := t.padding, payloadOff := t.payloadOff, payloadBits := t.payloadBits, freq := t.freq, node := t.node,
  code := t.code, outBuf := t.outBuf }

theorem Keeps.completed {s u : State} (h : Keeps s u) : Completed s u.completed := by
  unfold Keeps at h
  unfold Completed
  rw [h]
  rfl

theorem Keeps.takeError {s u : State} (h : Keeps s u) (spoils : Bool) (c : Cause) (info : Word) :
    Completed s (u.takeError spoils c info) := by
  unfold Keeps at h
  unfold Completed
  rw [h]
  rfl

theorem exec_frame {i : Instr} {s t : State} (h : exec i s = .next t) : Completed s t := by
  rcases exec_next h with ⟨u, -, ⟨hk, -⟩, rfl⟩ | ⟨c, info, u, -, ⟨hk, -⟩, rfl⟩
  · exact hk.completed
  · exact hk.takeError _ c info

/-- The same for every word that completes, the illegal ones among them (30_encoding R114). -/
theorem complete_frame {s t : State} (h : s.complete = .next t) : Completed s t := by
  rcases complete_cases h with ⟨i, -, he⟩ | ⟨e, rfl⟩
  · exact exec_frame he
  · exact (Keeps.refl s).takeError _ _ 0

/-! ### What the builder's bodies write (42_tree_builder) -/

/-- t differs from s only in the builder's own state and CODES_VALID (42_tree_builder R183, R185, R188). -/
def BuilderOnly (s t : State) : Prop := t = { s with
  codesValid := t.codesValid, single := t.single, bstate := t.bstate, nodeCount := t.nodeCount,
  activeCount := t.activeCount, root := t.root, node := t.node }

theorem mergeSteps_builderOnly (n : Nat) (s : State) : BuilderOnly s (mergeSteps n s) := by
  unfold BuilderOnly
  rw [mergeSteps_frame]

theorem buildInitBody_builderOnly (s : State) : (buildInitBody s).All (BuilderOnly s) := by
  by_cases hk : s.symCount = 0
  · rw [buildInitBody_empty s hk]
    rfl
  · rw [buildInitBody_ok s hk]
    show BuilderOnly s s.built
    unfold BuilderOnly
    rw [s.built_frame]

theorem buildBody_builderOnly (s : State) : (buildBody s).All (BuilderOnly s) := by
  by_cases hk : s.symCount = 0
  · rw [buildBody_empty s hk]
    rfl
  · rw [buildBody_ok s hk]
    show BuilderOnly s s.tree
    unfold BuilderOnly
    rw [s.tree_frame]

theorem buildStepBody_builderOnly (n : Nat) (s : State) : (buildStepBody n s).All (BuilderOnly s) := by
  unfold buildStepBody
  split
  · exact mergeSteps_builderOnly n s
  · rfl

theorem BuilderOnly.outBuf_eq {s t : State} (h : BuilderOnly s t) : t.outBuf = s.outBuf := by
  unfold BuilderOnly at h
  rw [h]

theorem BuilderOnly.code_eq {s t : State} (h : BuilderOnly s t) : t.code = s.code := by
  unfold BuilderOnly at h
  rw [h]

theorem Result.All.mono {P Q : State → Prop} {r : Result} (h : r.All P) (hPQ : ∀ t, P t → Q t) : r.All Q := by
  cases r with
  | ok t => exact hPQ t h
  | raised c info t => exact hPQ t h
  | stuck e => trivial

/-! ### OUT_BUF (20_memory R81) -/

/-- A command other than PACK, DECODE, COMPRESS and DECOMPRESS writes no byte of OUT_BUF. -/
theorem body_outBuf {i : Instr} (hi : Instr.spoils i = false) (s : State) : (Instr.body i s).All (·.outBuf = s.outBuf) := by
  cases i with
  | nop | clear | scan => rfl
  | build => exact (buildBody_builderOnly s).mono fun _ => BuilderOnly.outBuf_eq
  | buildInit => exact (buildInitBody_builderOnly s).mono fun _ => BuilderOnly.outBuf_eq
  | buildStep n => exact (buildStepBody_builderOnly n s).mono fun _ => BuilderOnly.outBuf_eq
  | assign =>
    show (assignBody s).All _
    unfold assignBody
    split
    · split
      · rfl
      · trivial
    · rfl
  | parse =>
    show (parseBody s).All _
    unfold parseBody
    split <;> rfl
  | pack | decode | compress | decompress => cases hi

theorem exec_outBuf {i : Instr} {s t : State} (hi : Instr.spoils i = false) (h : exec i s = .next t) :
    t.outBuf = s.outBuf := by
  have hbody := body_outBuf hi s
  rcases exec_next h with ⟨u, hu, -, rfl⟩ | ⟨c, info, u, hu, -, rfl⟩ <;> rw [hu] at hbody
  · exact hbody
  · rw [State.takeError_outBuf, hi]
    exact hbody

/-- Such a command leaves OUT_LEN alone or makes it 0 (10_state R39). -/
theorem exec_outLen_of_not_spoils {i : Instr} {s t : State} (hi : Instr.spoils i = false) (h : exec i s = .next t) :
    t.outLen = 0 ∨ t.outLen = s.outLen := by
  rcases exec_outLen h with ⟨-, h0⟩ | hw | hsame
  · exact .inl h0
  · cases i with
    | clear => exact .inl (exec_clear_outLen h)
    | pack | decode | compress | decompress => cases hi
    | _ => cases hw
  · exact .inr hsame

/-- A byte of OUT_BUF with a specified content that stays below OUT_LEN is as before (20_memory R81). -/
theorem exec_outByte {i : Instr} {s t : State} (hi : Instr.spoils i = false) (h : exec i s = .next t) {j : Nat}
    (hj : j < t.outLen.toNat) (hlisted : (Cells.get? s.outBuf j).isSome = true) : t.outByte j = s.outByte j := by
  obtain ⟨b, hb⟩ := Option.isSome_iff_exists.mp hlisted
  have hlen : t.outLen = s.outLen := by
    refine (exec_outLen_of_not_spoils hi h).resolve_left fun h0 => ?_
    rw [h0] at hj
    exact absurd hj (Nat.not_lt_zero j)
  unfold State.outByte
  rw [exec_outBuf hi h, if_pos hj, if_pos (hlen ▸ hj), hb, Option.getD_some, Option.getD_some]

/-- Settles O9: the frame of a completion, and the bytes that a command without output leaves in OUT_BUF. -/
theorem commandFrame : Obligations.CommandFrame := by
  unfold Obligations.CommandFrame
  intro i s t h
  have hframe : Completed s t := exec_frame h
  have houtput : i ≠ .pack → i ≠ .decode → i ≠ .compress → i ≠ .decompress →
      ∀ j < t.outLen.toNat, (Cells.get? s.outBuf j).isSome = true → t.outByte j = s.outByte j := by
    intro hpack hdecode hcompress hdecompress j
    refine exec_outByte ?_ h
    cases i with
    | pack => exact absurd rfl hpack
    | decode => exact absurd rfl hdecode
    | compress => exact absurd rfl hcompress
    | decompress => exact absurd rfl hdecompress
    | _ => rfl
  clear h
  unfold Completed at hframe
  rw [hframe] at houtput ⊢
  exact ⟨rfl, rfl, rfl, rfl, rfl, rfl, rfl, rfl, rfl, rfl, rfl, rfl, rfl, rfl, rfl, fun _ => rfl, houtput⟩

/-! ### The error table (60_exceptions R310) -/

/-- Each sub-cause a command can raise has a row of the error table that names the command. -/
theorem causes_errorRows (i : Instr) :
    ∀ c ∈ Instr.causes i, ∃ row ∈ errorRows, c.code = row.1 ∧ c.sub = row.2.1 ∧ i.opcode ∈ row.2.2 := by
  cases i with
  | buildStep n =>
    show ∀ c ∈ [Cause.notMerging], ∃ row ∈ errorRows, c.code = row.1 ∧ c.sub = row.2.1 ∧ (0x22 : Byte) ∈ row.2.2
    decide
  | _ => decide

theorem Keeps.error_eq {s t : State} (h : Keeps s t) : t.err = s.err ∧ t.errCode = s.errCode ∧ t.errSub = s.errSub ∧
    t.errOp = s.errOp ∧ t.errInfo = s.errInfo ∧ t.cmd = s.cmd := by
  unfold Keeps at h
  rw [h]
  exact ⟨rfl, rfl, rfl, rfl, rfl, rfl⟩

/-- Settles O10: a body's raise is one of its command's sub-causes, and a completion without a raise writes no error
register. -/
theorem errorRowsOnly : Obligations.ErrorRowsOnly := by
  unfold Obligations.ErrorRowsOnly
  intro i s t hi herr h
  rcases exec_next h with ⟨u, -, ⟨hk, -⟩, rfl⟩ | ⟨c, info, u, hu, ⟨hk, -⟩, rfl⟩
  · obtain ⟨he, hcode, hsub, hop, hinfo, -⟩ := hk.error_eq
    refine ⟨fun h1 => ?_, fun _ => ⟨hcode, hsub, hop, hinfo⟩⟩
    exact absurd (herr.symm.trans (he.symm.trans h1)) Bool.false_ne_true
  · obtain ⟨-, -, -, -, -, hcmd⟩ := hk.error_eq
    have hop : s.cmd.extractLsb' 0 8 = i.opcode := opField_of_decode hi
    have hraise := body_raises i s
    rw [hu] at hraise
    obtain ⟨row, hrow, hcode, hsub, hmem⟩ := causes_errorRows i c hraise
    exact ⟨fun _ => ⟨row, hrow, hcode, hsub, hop ▸ hmem, congrArg opField hcmd, rfl⟩, fun h0 => nomatch h0⟩

end Sys2Proof.Machine
end

section
/-!
SUPPORT. The host's side (20_memory, 10_state): the address map entry by entry, what stands in the read data, what a write at a
place does, and host violations.
-/

namespace Sys2Proof.Machine

/-! ### The address map (20_memory R80) -/

theorem State.place_freq (s : State) (b : Byte) : s.place .word (BitVec.ofNat 32 (0x400 + 4 * b.toNat)) = some (.freq b) := by
  have hb := b.isLt
  rw [s.place_word _ (by omega) (by omega), if_neg (by omega), if_neg (by omega), if_pos (by omega),
    show (0x400 + 4 * b.toNat - 0x400) / 4 = b.toNat by omega, BitVec.ofNat_toNat, BitVec.setWidth_eq]

theorem State.place_codeLen (s : State) (b : Byte) :
    s.place .word (BitVec.ofNat 32 (0x800 + 4 * b.toNat)) = some (.codeLen b) := by
  have hb := b.isLt
  rw [s.place_word _ (by omega) (by omega), if_neg (by omega), if_neg (by omega), if_neg (by omega), if_pos (by omega),
    show (0x800 + 4 * b.toNat - 0x800) / 4 = b.toNat by omega, BitVec.ofNat_toNat, BitVec.setWidth_eq]

theorem State.place_node (s : State) (i : NodeIdx) (w : BitVec 2) :
    s.place .word (BitVec.ofNat 32 (0x2000 + 16 * i.toNat + 4 * w.toNat)) = some (.node i w) := by
  have hi := i.isLt
  have hw := w.isLt
  rw [s.place_word _ (by omega) (by omega), if_neg (by omega), if_neg (by omega), if_neg (by omega), if_neg (by omega),
    if_neg (by omega), if_pos (by omega), show (0x2000 + 16 * i.toNat + 4 * w.toNat - 0x2000) / 16 = i.toNat by omega,
    show (0x2000 + 16 * i.toNat + 4 * w.toNat) / 4 % 4 = w.toNat by omega]
  simp only [BitVec.ofNat_toNat, BitVec.setWidth_eq]

theorem State.place_codeBits (s : State) (b : Byte) (w : BitVec 3) :
    s.place .word (BitVec.ofNat 32 (0x4000 + 32 * b.toNat + 4 * w.toNat)) = some (.codeBits b w) := by
  have hb := b.isLt
  have hw := w.isLt
  rw [s.place_word _ (by omega) (by omega), if_neg (by omega), if_neg (by omega), if_neg (by omega), if_neg (by omega),
    if_neg (by omega), if_neg (by omega), show (0x4000 + 32 * b.toNat + 4 * w.toNat - 0x4000) / 32 = b.toNat by omega,
    show (0x4000 + 32 * b.toNat + 4 * w.toNat) / 4 % 8 = w.toNat by omega]
  simp only [BitVec.ofNat_toNat, BitVec.setWidth_eq]

theorem State.place_reserved (s : State) {a : Nat} (h1 : 0x048 ≤ a) (h2 : a ≤ 0x0FC) (h4 : a % 4 = 0) :
    s.place .word (BitVec.ofNat 32 a) = some .reserved := by
  rw [s.place_word a (by omega) h4, if_pos (by omega), csrPlace_reserved a h1]

theorem State.place_inBuf_of_lt {s : State} {j : Nat} (hj : j < s.capIn.toNat) (hin : s.capIn.toNat ≤ 2 ^ 28) :
    s.place .byte (BitVec.ofNat 32 (0x10000000 + j)) = some (.inBuf j) := by
  have ha : (BitVec.ofNat 32 (0x10000000 + j)).toNat = inBase + j := Nat.mod_eq_of_lt (by omega)
  unfold State.place
  rw [ha, if_neg (by unfold inBase; omega), if_pos (by omega), if_pos rfl, Nat.add_sub_cancel_left]

theorem State.place_outBuf_of_lt {s : State} {j : Nat} (hj : j < s.capOut.toNat) (hout : s.capOut.toNat ≤ 2 ^ 28)
    (hin : s.capIn.toNat ≤ 2 ^ 28) : s.place .byte (BitVec.ofNat 32 (0x20000000 + j)) = some (.outBuf j) := by
  have ha : (BitVec.ofNat 32 (0x20000000 + j)).toNat = outBase + j := Nat.mod_eq_of_lt (by omega)
  unfold State.place
  rw [ha, if_neg (by unfold outBase; omega), if_neg (by unfold inBase outBase; omega), if_pos (by omega), if_pos rfl,
    Nat.add_sub_cancel_left]

/-- Settles O11: one lemma for each window. -/
theorem addressMap : Obligations.AddressMap := by
  unfold Obligations.AddressMap
  intro s
  exact ⟨s.place_freq, s.place_codeLen, s.place_node, s.place_codeBits, fun _ => State.place_inBuf_of_lt,
    fun _ => State.place_outBuf_of_lt, fun _ => s.place_reserved⟩

/-! ### The words of the read data (10_state R33 to R54) -/

/-- Fields side by side as numbers. -/
theorem toNat_append_eq_add {m n : Nat} (x : BitVec m) (y : BitVec n) : (x ++ y).toNat = x.toNat * 2 ^ n + y.toNat := by
  rw [BitVec.toNat_append, ← Nat.shiftLeft_add_eq_or_of_lt y.isLt, Nat.shiftLeft_eq]

theorem eq_ofNat_of_toNat {w : Word} {n : Nat} (h : w.toNat = n) : w = BitVec.ofNat 32 n := by
  rw [← h, BitVec.ofNat_toNat, BitVec.setWidth_eq]

theorem State.configWord_toNat (s : State) :
    s.configWord.toNat = (if s.strict then 1 else 0) + (if s.irqEn then 2 else 0) := by
  unfold State.configWord
  cases s.strict <;> cases s.irqEn <;> rfl

theorem State.errcodeWord_toNat (s : State) :
    s.errcodeWord.toNat = s.errCode.toNat + 2 ^ 8 * s.errSub.toNat + 2 ^ 16 * s.errOp.toNat := by
  unfold State.errcodeWord
  simp only [toNat_append_eq_add, BitVec.ofNat_eq_ofNat, BitVec.toNat_ofNat, Nat.zero_mod]
  omega

theorem low_word_eq_ofNat (x : BitVec 64) : x.extractLsb' 0 32 = BitVec.ofNat 32 (x.toNat % 2 ^ 32) :=
  eq_ofNat_of_toNat (by rw [BitVec.extractLsb'_toNat, Nat.shiftRight_zero])

theorem high_word_eq_ofNat (x : BitVec 64) : x.extractLsb' 32 32 = BitVec.ofNat 32 (x.toNat / 2 ^ 32) := by
  have hx := x.isLt
  refine eq_ofNat_of_toNat ?_
  rw [BitVec.extractLsb'_toNat, Nat.shiftRight_eq_div_pow]
  omega

/-- The words of a node slot (10_state R52). -/
theorem NodeSlot.word_weight (n : NodeSlot) : n.word 0 = BitVec.ofNat 32 (n.weight.toNat % 2 ^ 32) := by
  rw [show n.word 0 = n.weight.setWidth 32 from rfl]
  exact eq_ofNat_of_toNat (BitVec.toNat_setWidth _ _)

theorem NodeSlot.word_flags (n : NodeSlot) : n.word 1 = BitVec.ofNat 32 (n.weight.toNat / 2 ^ 32 +
    (if n.kind = .internal then 2 ^ 8 else 0) + (if n.active then 2 ^ 9 else 0) + 2 ^ 16 * n.symbol.toNat) := by
  have hw := n.weight.isLt
  refine eq_ofNat_of_toNat ?_
  rw [show n.word 1 = (0 : Byte) ++ n.symbol ++ (0 : BitVec 6) ++ BitVec.ofBool n.active ++
    BitVec.ofBool (n.kind = .internal) ++ n.weight.extractLsb' 32 8 from rfl]
  simp only [toNat_append_eq_add, BitVec.ofNat_eq_ofNat, BitVec.toNat_ofNat, Nat.zero_mod,
    BitVec.extractLsb'_toNat, Nat.shiftRight_eq_div_pow, BitVec.toNat_ofBool]
  cases n.active <;> cases n.kind <;> simp <;> omega

theorem NodeSlot.word_children (n : NodeSlot) : n.word 2 = BitVec.ofNat 32 (n.zero.toNat + 2 ^ 16 * n.one.toNat) := by
  refine eq_ofNat_of_toNat ?_
  rw [show n.word 2 = (0 : BitVec 7) ++ n.one ++ (0 : BitVec 7) ++ n.zero from rfl]
  simp only [toNat_append_eq_add, BitVec.ofNat_eq_ofNat, BitVec.toNat_ofNat, Nat.zero_mod]
  omega

/-- Bit 31 - j of word w of CODE_BITS is c[32 w + j] (10_state R54). -/
theorem Code.getLsbD_word (c : Code) (w : BitVec 3) {j : Nat} (hj : j < 32) :
    (c.word w).getLsbD (31 - j) = c.bits.getMsbD (32 * w.toNat + j) := by
  have hw := w.isLt
  unfold Code.word
  rw [BitVec.getLsbD_extractLsb', BitVec.getMsbD_eq_getLsbD, decide_eq_true (by omega : 31 - j < 32),
    decide_eq_true (by omega : 32 * w.toNat + j < 256), Bool.true_and, Bool.true_and]
  congr 1
  omega

/-! ### Reads while idle (20_memory R88) -/

/-- A read of what the map names, while idle. -/
theorem State.hostRead_idle {s : State} (hb : s.busy = false) {size : Size} {addr : Word} {p : Place}
    (h : s.place size addr = some p) : s.hostRead size addr = { s with rdata := s.idleValue p } := by
  rw [State.hostRead_of_place h, if_neg (Bool.eq_false_iff.mp hb)]

/-- The same, with the value in other words. -/
theorem State.hostRead_idle_eq {s : State} (hb : s.busy = false) {size : Size} {addr : Word} {p : Place}
    (h : s.place size addr = some p) {v : Word} (hv : s.idleValue p = v) : s.hostRead size addr = { s with rdata := v } :=
  hv ▸ State.hostRead_idle hb h

/-- Settles O15: each CSR at its offset, its value as a number. -/
theorem idleCsrReads : Obligations.IdleCsrReads := by
  unfold Obligations.IdleCsrReads
  intro s hb
  have read : ∀ (r : Csr) {v : Word}, s.csrValue r = v →
      s.hostRead .word (BitVec.ofNat 32 r.offset) = { s with rdata := v } :=
    fun r _ hv => State.hostRead_idle_eq hb (s.place_csr r) hv
  exact ⟨read .id rfl, read .cmd rfl, read .errcode (eq_ofNat_of_toNat s.errcodeWord_toNat), read .errInfo rfl,
    read .config (eq_ofNat_of_toNat s.configWord_toNat), read .inLen rfl, read .outLen rfl,
    read .symCount (congrArg (BitVec.ofNat 32) s.symCount_eq_alphabetSize), read .nodeCount (BitVec.ofNat_toNat 32 _).symm,
    read .activeCount (BitVec.ofNat_toNat 32 _).symm, read .root (BitVec.ofNat_toNat 32 _).symm,
    read .padding (BitVec.ofNat_toNat 32 _).symm,
    read .payloadOff rfl, read .payloadBitsLo (low_word_eq_ofNat _), read .payloadBitsHi (high_word_eq_ofNat _), read .capIn rfl,
    read .capOut rfl⟩

/-- Settles O17: each window's word or byte. -/
theorem idleTableReads : Obligations.IdleTableReads := by
  unfold Obligations.IdleTableReads
  intro s hb
  have node : ∀ (i : NodeIdx) (w : BitVec 2) {v : Word}, (s.nodeAt i).word w = v →
      s.hostRead .word (BitVec.ofNat 32 (0x2000 + 16 * i.toNat + 4 * w.toNat)) = { s with rdata := v } :=
    fun i w _ hv => State.hostRead_idle_eq hb (s.place_node i w) hv
  have addr : ∀ (i : NodeIdx) (n : Nat), 0x2000 + n + 16 * i.toNat = 0x2000 + 16 * i.toNat + n :=
    fun i n => Nat.add_right_comm _ _ _
  refine ⟨fun b => State.hostRead_idle hb (s.place_freq b),
    fun b => State.hostRead_idle_eq hb (s.place_codeLen b) (BitVec.ofNat_toNat 32 _).symm,
    fun i => ⟨?_, ?_, ?_, ?_⟩, s.nodeAt_511, fun b w j hj => ?_,
    fun j hj hin => State.hostRead_idle_eq hb (State.place_inBuf_of_lt hj hin) (BitVec.ofNat_toNat 32 _).symm,
    fun j hj hout hin => State.hostRead_idle_eq hb (State.place_outBuf_of_lt hj hout hin) (BitVec.ofNat_toNat 32 _).symm⟩
  · exact node i 0 (s.nodeAt i).word_weight
  · rw [addr i 4]
    exact node i 1 (s.nodeAt i).word_flags
  · rw [addr i 8]
    exact node i 2 (s.nodeAt i).word_children
  · rw [addr i 12]
    exact node i 3 rfl
  · rw [State.hostRead_idle hb (s.place_codeBits b w)]
    exact (s.codeAt b).getLsbD_word w hj

/-! ### Reads while a command runs (20_memory R87, 10_state R34) -/

/-- A read of what the map names, while a command runs: a draw of its own. -/
theorem State.hostRead_busy {s : State} (hb : s.busy = true) {size : Size} {addr : Word} {p : Place}
    (h : s.place size addr = some p) :
    s.hostRead size addr = { s with rdata := s.busyValue p, draw := s.draw + 1 } := by
  rw [State.hostRead_of_place h, if_pos hb]

theorem State.runningPhases_of_decode {s : State} {i : Instr} (h : decode s.cmd = .ok i) :
    s.runningPhases = Instr.phases i := by
  unfold State.runningPhases State.command
  simp only [h]

theorem Instr.phases_ne_nil (i : Instr) : Instr.phases i ≠ [] := by
  cases i <;> exact List.cons_ne_nil _ _

/-- Settles O14: the exact CSRs, the fields of the busy STATUS word, and one of the running command's phases. -/
theorem busyReads : Obligations.BusyReads := by
  unfold Obligations.BusyReads
  intro s hb
  have read : ∀ r : Csr, (s.hostRead .word (BitVec.ofNat 32 r.offset)).rdata = s.busyValue (.csr r) :=
    fun r => congrArg State.rdata (State.hostRead_busy hb (s.place_csr r))
  obtain ⟨hbusy, hdone, herr, -, -, -, -, hviol⟩ := statusLayout_bits _ _ _ _ _ _ _ _ _ _ _ (read .status)
  obtain ⟨-, -, hphase, -⟩ := statusLayout_fields _ _ _ _ _ _ _ _ _ _ _ (read .status)
  refine ⟨read .id, read .cmd, (congrArg BitVec.toNat (read .config)).trans s.configWord_toNat, read .inLen, read .capIn,
    read .capOut, hbusy, hdone, herr, hviol, fun i hi => ?_, fun size addr hp => ?_⟩
  · have hmem : (s.hostRead .word 0x008).rdata.extractLsb' 12 3 ∈ Instr.phases i := by
      rw [← State.runningPhases_of_decode hi]
      exact hphase ▸ pickPhase_mem _ _ (State.runningPhases_of_decode hi ▸ Instr.phases_ne_nil i)
    cases i <;> exact hmem
  · obtain ⟨p, hp⟩ := Option.isSome_iff_exists.mp hp
    rw [State.hostRead_busy hb hp]

/-! ### Writes while idle (10_state R37, R48, R51, R55) -/

/-- CONFIG keeps the two low bits of what is written (10_state R37). -/
theorem State.writeConfig_configWord (s : State) (data : Word) :
    (s.writeConfig data).configWord = data &&& 0x00000003 := by
  refine BitVec.eq_of_toNat_eq ?_
  rw [State.configWord_toNat, BitVec.toNat_and, show (0x00000003 : Word).toNat = 2 ^ 2 - 1 from rfl,
    Nat.and_two_pow_sub_one_eq_mod]
  unfold State.writeConfig
  simp only [BitVec.getLsbD, Nat.testBit_eq_decide_div_mod_eq, decide_eq_true_eq]
  split <;> split <;> omega

/-- Settles O18: the write reaches CONFIG, and the read after it shows the two stored bits. -/
theorem configWrite : Obligations.ConfigWrite := by
  unfold Obligations.ConfigWrite
  intro s data hb
  have hwrite : s.hostWrite .word 0x014 data = s.writeConfig data := State.hostWrite_csr hb .config data
  have hread : (s.writeConfig data).hostRead .word 0x014 =
      { s.writeConfig data with rdata := (s.writeConfig data).configWord } :=
    State.hostRead_csr (s := s.writeConfig data) hb .config
  exact ⟨hwrite, by rw [hwrite, hread]; exact s.writeConfig_configWord data⟩

theorem State.freqAt_writeFreq (s : State) (b c : Byte) (v : Word) :
    (s.writeFreq b v).freqAt c = if b = c then v else s.freqAt c :=
  getElem_setFreqEntry s.freq b c v

/-- Settles O20: the write sets one entry of FREQ and drops the tree and the codes. -/
theorem freqWrite : Obligations.FreqWrite := by
  unfold Obligations.FreqWrite
  intro s b v hb
  refine ⟨s.writeFreq b v, State.hostWrite_of_place hb (s.place_freq b) v, rfl, ?_, fun c hc => ?_⟩
  · rw [State.freqAt_writeFreq, if_pos rfl]
  · rw [State.freqAt_writeFreq, if_neg hc.symm]

theorem State.inByte_writeInBuf (s : State) (j n : Nat) (b : Byte) :
    (s.writeInBuf j b).inByte n = if j = n then b else s.inByte n := by
  unfold State.inByte
  rw [show (s.writeInBuf j b).inBuf = Cells.set s.inBuf j b from rfl, Cells.get?_set]
  split <;> rfl

/-- Settles O21: the write sets one byte of IN_BUF and drops the parsed header. -/
theorem inBufWrite : Obligations.InBufWrite := by
  unfold Obligations.InBufWrite
  intro s j data hb hj hin
  refine ⟨s.writeInBuf j (data.extractLsb' 0 8), State.hostWrite_of_place hb (State.place_inBuf_of_lt hj hin) data, rfl, ?_,
    fun n hn => ?_⟩
  · rw [State.inByte_writeInBuf, if_pos rfl]
  · rw [State.inByte_writeInBuf, if_neg hn.symm]

/-- Settles O22: a reserved offset reads 0 and ignores writes while idle, and is a draw while a command runs. -/
theorem reservedCsrs : Obligations.ReservedCsrs := by
  unfold Obligations.ReservedCsrs
  intro s a data h1 h2 h4
  have hp := s.place_reserved h1 h2 h4
  exact ⟨fun hb => ⟨State.hostRead_idle hb hp, State.hostWrite_of_place hb hp data⟩,
    fun hb => ⟨_, State.hostRead_busy hb hp⟩⟩

/-! ### Host violations (20_memory R84, R86) -/

/-- The places that the host can only read (20_memory R84 (d)). -/
def Place.readOnly : Place → Bool
  | .csr .cmd | .csr .status | .csr .config | .csr .inLen | .reserved | .freq _ | .inBuf _ => false
  | .csr _ | .codeLen _ | .node _ _ | .codeBits _ _ | .outBuf _ => true

/-- A word-aligned CSR offset below 0x048 is a CSR's, any other is reserved (10_state R31, R48). -/
theorem csrPlace_cases {a : Nat} (h4 : a % 4 = 0) :
    (∃ r : Csr, csrPlace a = .csr r ∧ a = r.offset) ∨ (csrPlace a = .reserved ∧ 0x48 ≤ a) := by
  rcases Nat.lt_or_ge a 0x48 with hlt | hge
  · have hcsr : ∀ m < 0x48, m % 4 = 0 → ∃ r ∈ allCsrs, csrPlace m = .csr r := by decide
    obtain ⟨r, -, hr⟩ := hcsr a hlt h4
    exact .inl ⟨r, hr, csrPlace_eq_csr hr⟩
  · exact .inr ⟨csrPlace_reserved a hge, hge⟩

theorem readOnlyAddr_offset (r : Csr) : readOnlyAddr r.offset ↔ (Place.csr r).readOnly = true := by
  unfold readOnlyAddr
  cases r <;> simp [Csr.offset, Place.readOnly]

/-- The read-only addresses are those that name a read-only place (20_memory R84 (d)). -/
theorem State.place_readOnly {s : State} (hin : s.capIn.toNat ≤ 2 ^ 28) {size : Size} {addr : Word} {p : Place}
    (h : s.place size addr = some p) : readOnlyAddr addr.toNat ↔ p.readOnly = true := by
  unfold State.place at h
  dsimp only at h
  generalize addr.toNat = a at *
  split at h
  · split at h
    · rename_i hword
      split at h
      · obtain rfl := Option.some.inj h
        rcases csrPlace_cases hword.2 with ⟨r, hr, rfl⟩ | ⟨hr, hge⟩ <;> rw [hr]
        · exact readOnlyAddr_offset r
        · unfold readOnlyAddr
          simp only [Place.readOnly, Bool.false_eq_true, iff_false]
          omega
      · repeat' split at h
        all_goals cases h
        all_goals
          unfold readOnlyAddr
          simp only [Place.readOnly, Bool.false_eq_true, iff_false, iff_true]
          omega
    · cases h
  · unfold inBase outBase at h
    repeat' split at h
    all_goals cases h
    all_goals
      unfold readOnlyAddr
      simp only [Place.readOnly, Bool.false_eq_true, iff_false, iff_true]
      omega

/-- A write to a read-only place is a violation and nothing else (20_memory R84 (d)). -/
theorem State.idleWrite_readOnly (s : State) (data : Word) {p : Place} (h : p.readOnly = true) :
    s.idleWrite data p = s.violate := by
  cases p with
  | csr r =>
    cases r with
    | cmd | status | config | inLen => cases h
    | _ => rfl
  | reserved | freq | inBuf => cases h
  | _ => rfl

/-- A write to a place that takes it sets no HOST_VIOL (20_memory R84). -/
theorem State.idleWrite_hostViol {s : State} {data : Word} {p : Place} (h : p.readOnly = false)
    (hlen : p = .csr .inLen → data.toNat ≤ s.capIn.toNat) (hv : (s.idleWrite data p).hostViol = true) :
    s.hostViol = true := by
  cases p with
  | csr r =>
    cases r with
    | cmd | config => exact hv
    | status => exact (Bool.and_eq_true_iff.mp hv).1
    | inLen =>
      have hv : (s.writeInLen data).hostViol = true := hv
      rw [State.writeInLen_of_le (hlen rfl)] at hv
      exact hv
    | _ => cases h
  | reserved | freq | inBuf => exact hv
  | _ => cases h

theorem State.hostWrite_of_none {s : State} {size : Size} {addr : Word} (h : s.place size addr = none) (data : Word) :
    s.hostWrite size addr data = s.violate := by
  unfold State.hostWrite
  rw [h]
  exact ite_self _

/-- The access of a CSR's offset that the map takes names that CSR (10_state R31). -/
theorem State.place_of_offset {s : State} {size : Size} {addr : Word} {p : Place} (h : s.place size addr = some p) (r : Csr)
    (ha : addr.toNat = r.offset) : p = .csr r := by
  have hoff : addr = BitVec.ofNat 32 r.offset := eq_ofNat_of_toNat ha
  cases size with
  | word =>
    rw [hoff, s.place_csr r] at h
    exact (Option.some.inj h).symm
  | byte =>
    have hlt : addr.toNat < 0x6000 := by rw [ha]; cases r <;> decide
    unfold State.place at h
    rw [if_pos hlt, if_neg (fun hw => nomatch hw.1)] at h
    cases h

/-- A violating write does nothing but set HOST_VIOL (20_memory R84, R86). -/
theorem State.hostWrite_bad {s : State} {size : Size} {addr data : Word} (hin : s.capIn.toNat ≤ 2 ^ 28)
    (hout : s.capOut.toNat ≤ 2 ^ 28) (h : s.badWrite size addr.toNat data) : s.hostWrite size addr data = s.violate := by
  cases hb : s.busy with
  | true => exact State.hostWrite_of_busy hb size addr data
  | false =>
    cases hp : s.place size addr with
    | none => exact State.hostWrite_of_none hp data
    | some p =>
      rw [State.hostWrite_of_place hb hp]
      rcases h with hbad | hro | hbusy | ⟨haddr, hlt⟩
      · exact nomatch ((s.place_none_iff hin hout size addr).mpr hbad).symm.trans hp
      · exact s.idleWrite_readOnly data ((State.place_readOnly hin hp).mp hro)
      · exact nomatch hb.symm.trans hbusy
      · rw [State.place_of_offset hp .inLen haddr]
        exact State.writeInLen_of_lt hlt

/-- Settles O12: an access is bad exactly when the map names nothing for it; a write is bad also at a read-only place, while a
command runs, and at IN_LEN above IN_CAP. -/
theorem hostViolations : Obligations.HostViolations := by
  unfold Obligations.HostViolations
  intro s size addr data hin hout
  have hnone := s.place_none_iff hin hout size addr
  refine ⟨fun h => State.hostRead_of_none (hnone.mpr h), State.hostWrite_bad hin hout, fun h => ?_, fun h hv => ?_⟩
  · obtain ⟨p, hp⟩ := Option.ne_none_iff_exists'.mp (mt hnone.mp h)
    rw [State.hostRead_of_place hp]
    split <;> rfl
  · unfold State.badWrite at h
    simp only [not_or] at h
    obtain ⟨haccess, hro, hbusy, hlen⟩ := h
    obtain ⟨p, hp⟩ := Option.ne_none_iff_exists'.mp (mt hnone.mp haccess)
    rw [State.hostWrite_of_place (Bool.eq_false_iff.mpr hbusy) hp] at hv
    refine State.idleWrite_hostViol (Bool.eq_false_iff.mpr (mt (State.place_readOnly hin hp).mpr hro)) (fun he => ?_) hv
    obtain ⟨-, rfl⟩ := State.place_eq_csr (he ▸ hp)
    exact Nat.not_lt.mp fun hlt => hlen ⟨rfl, hlt⟩

/-! ### HOST_VIOL is sticky (10_state R33) -/

theorem State.hostRead_hostViol {s : State} (h : s.hostViol = true) (size : Size) (addr : Word) :
    (s.hostRead size addr).hostViol = true := by
  cases hp : s.place size addr with
  | none => rw [State.hostRead_of_none hp]
  | some p =>
    rw [State.hostRead_of_place hp]
    split <;> exact h

/-- An idle write that clears HOST_VIOL writes 1 to bit 7 of STATUS (10_state R33). -/
theorem State.idleWrite_clears_hostViol {s : State} {data : Word} {p : Place} (h1 : s.hostViol = true)
    (h0 : (s.idleWrite data p).hostViol = false) : p = .csr .status ∧ data.getLsbD 7 = true := by
  have cleared : (s.idleWrite data p).hostViol ≠ s.hostViol := by rw [h0, h1]; decide
  cases p with
  | csr r =>
    cases r with
    | status =>
      refine ⟨rfl, ?_⟩
      have h0 : (s.hostViol && !data.getLsbD 7) = false := h0
      rwa [h1, Bool.true_and, Bool.not_eq_false'] at h0
    | inLen =>
      have h0 : (s.writeInLen data).hostViol = false := h0
      unfold State.writeInLen at h0
      split at h0
      · exact nomatch h1.symm.trans h0
      · cases h0
    | cmd | config => exact absurd rfl cleared
    | _ => cases h0
  | reserved | freq | inBuf => exact absurd rfl cleared
  | _ => cases h0

theorem State.hostWrite_clears_hostViol {s : State} {size : Size} {addr data : Word} (h1 : s.hostViol = true)
    (h0 : (s.hostWrite size addr data).hostViol = false) :
    s.busy = false ∧ size = .word ∧ addr = 0x008 ∧ data.getLsbD 7 = true := by
  rcases s.hostWrite_cases size addr data with h | ⟨hb, p, hp, h⟩ <;> rw [h] at h0
  · cases h0
  · obtain ⟨rfl, hbit⟩ := State.idleWrite_clears_hostViol h1 h0
    obtain ⟨hsize, haddr⟩ := State.place_eq_csr hp
    exact ⟨hb, hsize, haddr, hbit⟩

theorem Completed.hostViol_eq {s t : State} (h : Completed s t) : t.hostViol = s.hostViol := by
  unfold Completed at h
  rw [h]

/-- Settles O13: a completion and a read leave HOST_VIOL set, so only reset and an idle write are left. -/
theorem hostViolSticky : Obligations.HostViolSticky := by
  unfold Obligations.HostViolSticky
  intro s t h h1 h0
  have cleared : t.hostViol ≠ s.hostViol := by rw [h0, h1]; decide
  rcases step_cases h with
    ⟨-, ⟨-, hc⟩ | ⟨-, rfl⟩⟩ | ⟨size, addr, -, -, rfl⟩ | ⟨size, addr, data, rest, hw, rfl⟩ | ⟨hr, -⟩
  · exact absurd (complete_frame hc).hostViol_eq cleared
  · exact absurd rfl cleared
  · exact nomatch h0.symm.trans (State.hostRead_hostViol (s := s.popTurn) h1 size addr)
  · obtain ⟨hb, rfl, rfl, hbit⟩ := State.hostWrite_clears_hostViol (s := s.popTurn) h1 h0
    exact .inr ⟨hb, data, congrArg List.head? hw, hbit⟩
  · exact .inl hr

end Sys2Proof.Machine
end

section
/-!
SUPPORT. SCAN (41_frequency_scan) and the tree builder's commands (42_tree_builder): what each leaves, how far BUILD_STEP gets,
and BUILD against its stages.
-/

namespace Sys2Proof.Machine

/-! ### SCAN and SYM_COUNT (41_frequency_scan R160, 10_state R40) -/

theorem exec_scan (s : State) : exec .scan s = .next (scanBody s).succeeded := exec_of_body_ok rfl

/-- The occurrences of a byte, counted offset by offset (41_frequency_scan R160). -/
theorem State.count_inBytes (s : State) (b : Byte) :
    s.inBytes.count b = (List.range s.inLen.toNat).countP fun j => s.inByte j = b := by
  unfold State.inBytes List.count
  rw [List.countP_map]
  rfl

/-- Settles O29: SCAN's body cannot raise, and its serial count is the number of occurrences. -/
theorem scanCounts : Obligations.ScanCounts := by
  unfold Obligations.ScanCounts
  exact fun s => ⟨(scanBody s).succeeded, exec_scan s, rfl, fun b => (scanBody_freqAt s b).trans (s.count_inBytes b)⟩

/-- Settles O30: the present symbols are as many as the non-zero counts. -/
theorem symCountCounts : Obligations.SymCountCounts := by
  unfold Obligations.SymCountCounts
  exact fun s => ⟨s.symCount_eq_alphabetSize, s.symCount_le⟩

/-! ### BUILD_INIT (42_tree_builder R183) -/

theorem exec_buildInit {s : State} (hk : s.symCount ≠ 0) : exec .buildInit s = .next s.built.succeeded :=
  exec_of_body_ok (show buildInitBody s = _ from buildInitBody_ok s hk)

theorem exec_buildInit_empty {s : State} (hk : s.symCount = 0) : exec .buildInit s = .next (s.dropTree.failed 1 1 0) :=
  exec_of_body_raised (c := .emptyMap) rfl (show buildInitBody s = _ from buildInitBody_empty s hk)

theorem toNat_ofNat_rank (s : State) {b : Byte} (hb : s.freqAt b ≠ 0) : (BitVec.ofNat 9 (s.rank b)).toNat = s.rank b := by
  have hlt := s.rank_lt b hb
  have hk := s.symCount_le
  exact Nat.mod_eq_of_lt (by omega)

/-- The slots past the leaves keep their contents (42_tree_builder R183). -/
theorem State.built_nodeAt_of_le (s : State) {i : NodeIdx} (hi : s.symCount ≤ i.toNat) : s.built.nodeAt i = s.nodeAt i := by
  by_cases h511 : i = 511
  · rw [h511, State.nodeAt_511, State.nodeAt_511]
  · rw [s.built_nodeAt i h511, List.getElem?_eq_none hi]

/-- Settles O31: the leaf of a symbol stands at its rank, and loading the leaves writes no other slot. -/
theorem buildInitLoadsLeaves : Obligations.BuildInitLoadsLeaves := by
  unfold Obligations.BuildInitLoadsLeaves
  intro s
  rw [← s.symCount_eq_alphabetSize]
  refine ⟨exec_buildInit_empty, fun hk => ⟨s.built.succeeded, exec_buildInit hk, ?_, fun b hb => ?_,
    fun i => s.built_nodeAt_of_le⟩⟩
  · exact congrArg State.succeeded s.built_frame
  · exact s.built_leaf _ b (by rw [toNat_ofNat_rank s hb]; exact s.getElem?_rank b hb)

/-! ### BUILD_STEP (42_tree_builder R186) -/

/-- How far n merge steps get: at least one node stays active, and the last step sets ROOT and BSTATE. -/
structure Merged (s : State) (n : Nat) (t : State) : Prop where
  nodeCount : t.nodeCount.toNat = s.nodeCount.toNat + min n (s.activeCount.toNat - 1)
  activeCount : t.activeCount.toNat = s.activeCount.toNat - min n (s.activeCount.toNat - 1)
  bstate : t.bstate = if s.activeCount.toNat ≤ n + 1 then .done else .merge
  root : t.root = if s.activeCount.toNat ≤ n + 1 then t.nodeCount - 1 else s.root

/-- The counters after n merge steps from MERGE (42_tree_builder R185, R186). -/
theorem mergeSteps_merged (n : Nat) {s : State} (h : s.TreeInv) (hm : s.bstate = .merge) : Merged s n (mergeSteps n s) := by
  induction n generalizing s with
  | zero =>
    have h2 := h.merge hm
    have hmore : ¬ s.activeCount.toNat ≤ 0 + 1 := by omega
    exact ⟨by rw [Nat.zero_min]; rfl, by rw [Nat.zero_min]; rfl, by rw [if_neg hmore]; exact hm, (if_neg hmore).symm⟩
  | succ n ih =>
    have h2 := h.merge hm
    have hF := h.forest (by rw [hm]; simp)
    have hnode : (mergeStep s).nodeCount.toNat = s.nodeCount.toNat + 1 := by
      rw [mergeStep_nodeCount, toNat_add_one (hF.nodeCount_lt h2)]
    have hactive := h.mergeStep_active hm
    rw [mergeSteps_succ, if_pos hm]
    by_cases hlast : s.activeCount - 1 = 1
    · have hdone : (mergeStep s).bstate = .done := by rw [mergeStep_bstate, if_pos hlast]
      have hcount : s.activeCount.toNat - 1 = 1 := by
        rw [← toNat_sub_one (n := s.activeCount) (by omega), hlast]
        rfl
      rw [mergeSteps_of_ne n _ (by rw [hdone]; decide)]
      refine ⟨by omega, by omega, ?_, ?_⟩
      · rw [hdone, if_pos (by omega)]
      · rw [if_pos (by omega), mergeStep_root, if_pos hlast, mergeStep_nodeCount]
        exact (add_sub_cancel_right _ _).symm
    · have hmerge : (mergeStep s).bstate = .merge := by rw [mergeStep_bstate, if_neg hlast, hm]
      obtain ⟨ihnode, ihactive, ihbstate, ihroot⟩ := ih (h.mergeStep hm) hmerge
      have h2' := (h.mergeStep hm).merge hmerge
      have hiff : (mergeStep s).activeCount.toNat ≤ n + 1 ↔ s.activeCount.toNat ≤ n + 1 + 1 := by omega
      rw [mergeStep_root, if_neg hlast] at ihroot
      simp only [hiff] at ihbstate ihroot
      exact ⟨by omega, by omega, ihbstate, ihroot⟩

/-- Settles O33: NOT_MERGING, no step, and the counters after n steps. -/
theorem buildStepCounts : Obligations.BuildStepCounts := by
  unfold Obligations.BuildStepCounts
  refine fun s n => ⟨fun h => exec_buildStep_notMerging h n, fun hm => exec_buildStep hm 0, fun hinv hm => ?_⟩
  obtain ⟨hnode, hactive, hbstate, hroot⟩ := mergeSteps_merged n hinv.tree hm
  refine ⟨(mergeSteps n s).succeeded, exec_buildStep hm n, congrArg State.succeeded ?_, hroot⟩
  rw [← hnode, ← hactive, ← hbstate, BitVec.ofNat_toNat, BitVec.ofNat_toNat, BitVec.setWidth_eq, BitVec.setWidth_eq]
  exact mergeSteps_frame n s

/-- Settles O34: the merge loop splits, and a completion between its parts changes nothing that it reads. -/
theorem buildStepSplits : Obligations.BuildStepSplits := by
  unfold Obligations.BuildStepSplits
  intro s m n hinv hm
  refine ⟨_, _, exec_buildStep hm (m + n), exec_buildStep hm m, fun hmerge => ?_, fun hne => ?_⟩ <;> rw [mergeSteps_add]
  · have hsecond : mergeSteps n (mergeSteps m s).succeeded = (mergeSteps n (mergeSteps m s)).succeeded :=
      mergeSteps_completed n _ (mergeSteps_treeInv m s hinv.tree)
    rw [exec_buildStep hmerge, hsecond]
    rfl
  · exact congrArg State.succeeded (mergeSteps_of_ne n (mergeSteps m s) hne)

/-! ### BUILD (42_tree_builder R188, R190) -/

theorem exec_build {s : State} (hk : s.symCount ≠ 0) : exec .build s = .next s.tree.succeeded :=
  exec_of_body_ok (show buildBody s = _ from buildBody_ok s hk)

/-- What BUILD of k > 0 symbols leaves: a complete tree of 2k - 1 nodes with its root last (42_tree_builder R188). -/
theorem State.tree_complete {s : State} (hk : s.symCount ≠ 0) : s.tree = { s with
    node := s.tree.node, codesValid := false, nodeCount := BitVec.ofNat 9 (2 * s.symCount - 1), activeCount := 1,
    root := BitVec.ofNat 9 (2 * s.symCount - 2), single := decide (s.symCount = 1), bstate := .done } := by
  have hdone := s.tree_done hk
  obtain ⟨hnode, hroot, hactive, -⟩ := (s.tree_treeInv hk).complete hdone
  rw [State.symCount_congr s.tree_freq] at hnode hroot
  have hframe := s.tree_frame
  rw [hactive, hdone] at hframe
  rwa [← hnode, ← hroot, BitVec.ofNat_toNat, BitVec.ofNat_toNat, BitVec.setWidth_eq, BitVec.setWidth_eq]

/-- Settles O35: BUILD is BUILD_INIT and k - 1 merge steps, with or without a completion between them. -/
theorem buildMakesTree : Obligations.BuildMakesTree := by
  unfold Obligations.BuildMakesTree
  intro s
  rw [← s.symCount_eq_alphabetSize]
  refine ⟨exec_build_of_symCount_eq_zero, fun hk => ⟨s.tree.succeeded, s.built.succeeded, exec_build hk,
    congrArg State.succeeded (State.tree_complete hk), exec_buildInit hk, fun h1 => ?_, fun h1 => ?_⟩⟩
  · have hnone : s.tree = s.built := by
      unfold State.tree
      rw [h1]
      rfl
    rw [hnone]
  · have hmerge : s.built.succeeded.bstate = .merge := if_neg h1
    have hsteps : mergeSteps (s.symCount - 1) s.built.succeeded = s.tree.succeeded :=
      mergeSteps_completed _ _ (s.built_treeInv hk)
    rw [exec_buildStep hmerge, hsteps]
    rfl

/-- Settles O37: two builders that start from the same counts stand at the same point after every merge step. -/
theorem treeDependsOnFreqOnly : Obligations.TreeDependsOnFreqOnly := by
  unfold Obligations.TreeDependsOnFreqOnly
  intro s r t u hfreq hsize ht hu
  have hk : s.symCount ≠ 0 := s.symCount_eq_alphabetSize ▸ hsize
  rw [exec_build hk] at ht
  rw [exec_build (State.symCount_congr hfreq ▸ hk)] at hu
  obtain rfl := Host.Outcome.next.inj ht
  obtain rfl := Host.Outcome.next.inj hu
  obtain ⟨-, hnodeCount, hactive, hbstate, hsingle, hroot, hnode⟩ := SameTree.tree hfreq.symm hk
  exact ⟨hnodeCount.symm, (hroot (s.tree_done hk)).symm, hsingle.symm, hbstate.symm, hactive.symm,
    fun i hi => (hnode i hi).symm⟩

/-! ### The codes while CODES_VALID = 1 (43_codec_table R216) -/

/-- Settles O41: CODES_VALID stands over a complete tree, whose codes are those of the present symbols. -/
theorem validCodesMatchFreq : Obligations.ValidCodesMatchFreq := by
  unfold Obligations.ValidCodesMatchFreq
  intro s hinv hv
  obtain ⟨hd, -⟩ := hinv.codes hv
  obtain ⟨-, -, -, hk⟩ := hinv.tree.complete hd
  exact ⟨decide_eq_true hd, hk, fun b => hinv.hasCode_iff hv⟩

end Sys2Proof.Machine
end

section
/-!
SUPPORT. The errors of PACK (44_bitstream_pack R230), PARSE defect by defect (45_container_decode R260), and DECODE on every
payload (45_container_decode R270 to R277).
-/

namespace Sys2Proof.Machine

/-! ### PACK's errors (44_bitstream_pack R230) -/

/-- The first byte of the input without a code is the one that PACK's search reports (60_exceptions R312). -/
theorem State.firstWithoutCode_inBytes_some {s : State} {j : Nat} (hj : j < s.inLen.toNat) (hno : ¬ s.hasCode (s.inByte j))
    (hbefore : ∀ i < j, s.hasCode (s.inByte i)) : s.firstWithoutCode s.inBytes 0 = some j := by
  refine (s.firstWithoutCode_some _ 0 j).mpr
    ⟨j, s.inByte j, (Nat.zero_add j).symm, State.getElem?_inBytes hj, not_not.mp hno, fun c hc => ?_⟩
  obtain ⟨i, hi, hget⟩ := List.mem_take_iff_getElem.mp hc
  have hin : s.inBytes[i] = s.inByte i := by simp [State.inBytes]
  rw [← hget, hin]
  exact hbefore i (lt_of_lt_of_le hi (Nat.min_le_left _ _))

theorem exec_pack_noCode {s : State} (hv : s.codesValid = true) {j : Nat} (hj : s.firstWithoutCode s.inBytes 0 = some j) :
    exec .pack s = .next (s.spoiled 1 2 (BitVec.ofNat 32 j)) := by
  refine exec_of_body_raised_spoils (c := .noCode) rfl (show packBody s = _ from ?_)
  unfold packBody
  rw [if_neg (ne_false_of_eq_true hv), hj]

theorem exec_pack_overflow {s : State} (hv : s.codesValid = true) (hcodes : ∀ j < s.inLen.toNat, s.hasCode (s.inByte j))
    (hbig : s.capOut.toNat < sizeOfContainer s.alphabetSize s.payloadLength) :
    exec .pack s = .next (s.spoiled 5 1 0) := by
  refine exec_of_body_raised_spoils (c := .outputOverflow) rfl (show packBody s = _ from ?_)
  unfold packBody
  rw [if_neg (ne_false_of_eq_true hv), State.firstWithoutCode_inBytes hcodes]
  simp only [s.payloadOf_inBytes, s.length_payload, s.symCount_eq_alphabetSize, containerSize_eq_sizeOfContainer]
  exact if_pos hbig

/-- Settles O42: one lemma for each error. -/
theorem packErrors : Obligations.PackErrors := by
  unfold Obligations.PackErrors
  exact fun s => ⟨exec_pack_noCodes,
    fun hv j hj hno hbefore => exec_pack_noCode hv (State.firstWithoutCode_inBytes_some hj hno hbefore), exec_pack_overflow⟩

/-! ### PARSE (45_container_decode R260) -/

theorem exec_parse_error {s : State} {c : Cause} {info : Nat} (h : s.parseHeader = .error (c, info)) :
    exec .parse s = .next (State.failed { s with hdrValid := false } c.code c.sub (BitVec.ofNat 32 info)) := by
  refine exec_of_body_raised rfl (show parseBody s = _ from ?_)
  unfold parseBody
  rw [h]

theorem State.parseHeader_shortCount {s : State} (h2 : s.inLen.toNat < 2) :
    s.parseHeader = .error (.shortCount, s.inLen.toNat) := by
  unfold State.parseHeader
  exact if_pos h2

section
variable {s : State} (h2 : 2 ≤ s.inLen.toNat)
include h2

theorem State.parseHeader_zeroCount (hk : s.headerCount = 0) : s.parseHeader = .error (.zeroCount, 0) := by
  unfold State.parseHeader
  dsimp only
  rw [State.be16_zero, if_neg (Nat.not_lt.mpr h2), if_pos hk]

theorem State.parseHeader_countRange (hk : 256 < s.headerCount) : s.parseHeader = .error (.countRange, 0) := by
  unfold State.parseHeader
  dsimp only
  rw [State.be16_zero, if_neg (Nat.not_lt.mpr h2), if_neg (by omega), if_pos hk]

theorem State.parseHeader_shortHeader (h1 : 1 ≤ s.headerCount) (hk : s.headerCount ≤ 256)
    (hn : s.inLen.toNat < headerSize s.headerCount) : s.parseHeader = .error (.shortHeader, s.inLen.toNat) := by
  unfold State.parseHeader
  dsimp only
  rw [State.be16_zero, if_neg (Nat.not_lt.mpr h2), if_neg (by omega), if_neg (by omega), if_pos hn]

end

section
variable {s : State} (h1 : 1 ≤ s.headerCount) (hk : s.headerCount ≤ 256) (hn : headerSize s.headerCount ≤ s.inLen.toNat)
include h1 hk hn

/-- A header whose count is in range and whose table is in the input, with a defect in its table. -/
theorem State.parseHeader_badTable {d : Cause × Nat} (hd : s.parseEntries s.headerCount 0 [] = .error d) :
    s.parseHeader = .error d := by
  have h2 : 2 ≤ s.inLen.toNat := by unfold headerSize at hn; omega
  unfold State.parseHeader
  dsimp only
  rw [State.be16_zero, if_neg (Nat.not_lt.mpr h2), if_neg (by omega), if_neg (by omega), if_neg (Nat.not_lt.mpr hn), hd]

/-- The same, with a good table: the padding byte decides. -/
theorem State.parseHeader_goodTable (hgood : ∀ i < s.headerCount, s.entryOk i) {pad : Nat}
    (hpad : pad = (s.inByte (2 + 5 * s.headerCount)).toNat) : s.parseHeader =
      if 7 < pad then .error (.padRange, 2 + 5 * s.headerCount)
      else if s.inLen.toNat = headerSize s.headerCount ∧ pad ≠ 0 then .error (.padEmpty, 2 + 5 * s.headerCount)
      else .ok (s.entriesTo s.headerCount, pad) := by
  have h2 : 2 ≤ s.inLen.toNat := by unfold headerSize at hn; omega
  unfold State.parseHeader
  dsimp only
  rw [State.be16_zero, if_neg (Nat.not_lt.mpr h2), if_neg (by omega), if_neg (by omega), if_neg (Nat.not_lt.mpr hn),
    s.parseEntries_good _ hgood, ← hpad]

end

/-- Settles O44: PARSE's checks in their order, each with the checks before it passed. -/
theorem parseErrors : Obligations.ParseErrors := by
  unfold Obligations.ParseErrors
  rintro s n k r rfl rfl hr
  simp only [hr]
  refine ⟨fun h => exec_parse_error (State.parseHeader_shortCount h),
    fun h2 hk => exec_parse_error (State.parseHeader_zeroCount h2 hk),
    fun h2 hk => exec_parse_error (State.parseHeader_countRange h2 hk),
    fun h2 h1 hk hn => exec_parse_error (State.parseHeader_shortHeader h2 h1 hk hn), fun h1 hk hn => ⟨?_, ?_, ?_, ?_⟩⟩
  · intro i hi hbefore h0
    exact exec_parse_error (State.parseHeader_badTable h1 hk hn ((s.parseEntries_bad _ i hi hbefore).1 h0))
  · intro i hi hbefore h0 hrep
    exact exec_parse_error (State.parseHeader_badTable h1 hk hn ((s.parseEntries_bad _ i hi hbefore).2 h0 hrep))
  · intro hgood hpad
    exact exec_parse_error ((State.parseHeader_goodTable h1 hk hn hgood rfl).trans (if_pos hpad))
  · intro hgood hpad hne hsize
    have h0 : (s.inByte (2 + 5 * s.headerCount)).toNat ≠ 0 := fun h => hne (BitVec.eq_of_toNat_eq h)
    refine exec_parse_error (c := .padEmpty) ((State.parseHeader_goodTable h1 hk hn hgood rfl).trans ?_)
    rw [if_neg (Nat.not_lt.mpr hpad), if_pos ⟨hsize, h0⟩]

/-- PARSE of a header that it accepts writes the header's map and the payload registers (45_container_decode R260). -/
theorem parseBody_ok {s : State} {es : List (Byte × Word)} {pad : Nat} (h : s.parseHeader = .ok (es, pad)) :
    parseBody s = .ok { s.dropTree with
      freq := freqOfEntries es, padding := BitVec.ofNat 3 pad, payloadOff := BitVec.ofNat 32 (headerSize s.headerCount),
      payloadBits := BitVec.ofNat 64 (8 * (s.inLen.toNat - headerSize s.headerCount) - pad), hdrValid := true } := by
  unfold parseBody
  rw [h]
  rfl

/-- Settles O45: a good header's map, read symbol by symbol. -/
theorem parseReadsHeader : Obligations.ParseReadsHeader := by
  unfold Obligations.ParseReadsHeader
  rintro s n k pad rfl rfl hpad h1 hk hn hgood hpad7 hpad0
  have hheader : s.parseHeader = .ok (s.entriesTo s.headerCount, pad) := by
    rw [State.parseHeader_goodTable h1 hk hn hgood hpad, if_neg (Nat.not_lt.mpr hpad7),
      if_neg fun ⟨hsize, hne⟩ => hne (hpad0 hsize)]
  obtain ⟨hlisted, habsent⟩ := s.freqOfEntries_entriesTo s.headerCount hgood
  refine ⟨_, exec_of_body_ok (i := .parse) (parseBody_ok hheader), rfl, fun i hi => ?_, habsent⟩
  exact (congrArg BitVec.toNat (hlisted i hi)).trans (s.be32_entry i)

/-! ### DECODE's body, given its walk (45_container_decode R270) -/

/-- DECODE with a header and no tree raises SequenceError 1 (45_container_decode R270). -/
theorem exec_decode_noTree {s : State} (hh : s.hdrValid = true) (hd : s.bstate ≠ .done) :
    exec .decode s = .next (s.spoiled 6 1 0) := by
  refine exec_of_body_raised_spoils (c := .noTree) rfl (show decodeBody s = _ from ?_)
  unfold decodeBody
  rw [if_neg (ne_false_of_eq_true hh), if_pos hd]

/-- Settles O46: the header is asked for first. -/
theorem decodeNeedsHeaderAndTree : Obligations.DecodeNeedsHeaderAndTree := by
  unfold Obligations.DecodeNeedsHeaderAndTree
  exact fun s => ⟨exec_decode_noHeader, exec_decode_noTree⟩

/-- The state after the body of a DECODE that emits the given symbols. -/
def State.decoded (s : State) (out : List Byte) : State :=
  { s with outBuf := Cells.ofList 0 out, outLen := BitVec.ofNat 32 out.length }

/-- Symbols that fit OUT_CAP read back in order (45_container_decode R277). -/
theorem State.decoded_outputs {s : State} {out : List Byte} (h : out.length ≤ s.capOut.toNat) :
    (s.decoded out).succeeded.outputs out :=
  State.outputs_of_ofList rfl (Nat.mod_eq_of_lt (h.trans_lt s.capOut.isLt))

section
variable {s : State} (hh : s.hdrValid = true) (hd : s.bstate = .done)
include hh hd

theorem exec_decode_overflow (hw : s.payloadBitList.foldlM s.decodeBit ⟨s.root, 0, []⟩ = .error .outputOverflow) :
    exec .decode s = .next (s.spoiled 5 1 0) := by
  refine exec_of_body_raised_spoils (c := .outputOverflow) rfl (show decodeBody s = _ from ?_)
  unfold decodeBody
  rw [if_neg (ne_false_of_eq_true hh), if_neg (not_not.mpr hd), hw]

theorem decodeBody_of_walk {c : Cursor} (hw : s.payloadBitList.foldlM s.decodeBit ⟨s.root, 0, []⟩ = .ok c) :
    decodeBody s = if c.cur ≠ s.root ∧ s.strict then .raised .midWalk (BitVec.ofNat 32 c.pending) s
      else .ok (s.decoded c.out) := by
  unfold decodeBody
  rw [if_neg (ne_false_of_eq_true hh), if_neg (not_not.mpr hd), hw]
  rfl

/-- A walk that ends inside a code raises Truncated under STRICT (45_container_decode R275). -/
theorem exec_decode_truncated {c : Cursor} (hw : s.payloadBitList.foldlM s.decodeBit ⟨s.root, 0, []⟩ = .ok c)
    (hcur : c.cur ≠ s.root) (hstrict : s.strict = true) :
    exec .decode s = .next (s.spoiled 3 1 (BitVec.ofNat 32 c.pending)) :=
  exec_of_body_raised_spoils (c := .midWalk) rfl
    (show decodeBody s = _ from (decodeBody_of_walk hh hd hw).trans (if_pos ⟨hcur, hstrict⟩))

/-- A walk that ends at ROOT, or inside a code without STRICT, succeeds (45_container_decode R275, R277). -/
theorem exec_decode_ok {c : Cursor} (hw : s.payloadBitList.foldlM s.decodeBit ⟨s.root, 0, []⟩ = .ok c)
    (hend : c.cur = s.root ∨ s.strict = false) : exec .decode s = .next (s.decoded c.out).succeeded := by
  refine exec_of_body_ok (show decodeBody s = _ from (decodeBody_of_walk hh hd hw).trans (if_neg ?_))
  rintro ⟨hcur, hstrict⟩
  exact hend.elim hcur fun hs => nomatch hs.symm.trans hstrict

end

/-! ### A tree of two or more symbols (45_container_decode R271) -/

/-- With two symbols or more, ROOT is an internal node (42_tree_builder R189). -/
theorem State.TreeInv.root_internal {s : State} (h : s.TreeInv) (hd : s.bstate = .done) (hs : s.single = false) :
    s.root.toNat < s.nodeCount.toNat ∧ (s.nodeAt s.root).kind = .internal := by
  have hidle : s.bstate ≠ .idle := by rw [hd]; decide
  obtain ⟨hnode, hroot, -, hk⟩ := h.complete hd
  have hk1 : s.symCount ≠ 1 := of_decide_eq_false ((h.single hidle).symm.trans hs)
  have hlt : s.root.toNat < s.nodeCount.toNat := by omega
  exact ⟨hlt, ((h.forest hidle).kind s.root hlt).2.mpr (by omega)⟩

/-- A non-empty string that stays at internal nodes does not lead back to ROOT: the indices fall on the way down. -/
theorem State.TreeInv.follow_root_iff {s : State} (h : s.TreeInv) (hd : s.bstate = .done) (hs : s.single = false)
    {rest : List Bool} (hin : s.Inner s.root rest) : s.follow s.root rest = s.root ↔ rest = [] := by
  obtain ⟨hlt, hkind⟩ := h.root_internal hd hs
  constructor
  · intro he
    have hinner : ∀ m < rest.length, (s.nodeAt (s.follow s.root (rest.take m))).kind = .internal := by
      intro m hm
      rcases Nat.eq_zero_or_pos m with rfl | hpos
      · exact hkind
      · exact hin m hpos hm.le
    have hfall := (h.forest (by rw [hd]; decide)).follow_lt s.root rest hlt hinner
    rw [he] at hfall
    exact List.length_eq_zero_iff.mp (by omega)
  · rintro rfl
    rfl

/-- The walk along whole codes and an incomplete one (45_container_decode R270, R274, R275). -/
theorem State.foldlM_decodeBit_split {s : State} (hs : s.single = false) {codes : List (Byte × List Bool)}
    {rest : List Bool} (hcodes : ∀ c ∈ codes, s.IsPath c.2 c.1) (hin : s.Inner s.root rest) :
    (codes.length ≤ s.capOut.toNat → (codes.flatMap Prod.snd ++ rest).foldlM s.decodeBit ⟨s.root, 0, []⟩ =
      .ok ⟨s.follow s.root rest, rest.length, codes.map Prod.fst⟩) ∧
    (s.capOut.toNat < codes.length → (codes.flatMap Prod.snd ++ rest).foldlM s.decodeBit ⟨s.root, 0, []⟩ =
      .error .outputOverflow) := by
  obtain ⟨hfit, hover⟩ := s.foldlM_decodeBit_paths hs codes [] hcodes (Nat.zero_le _)
  rw [List.length_nil, Nat.zero_add] at hfit hover
  refine ⟨fun h => ?_, fun h => ?_⟩ <;> rw [List.foldlM_append]
  · rw [hfit h]
    exact (s.foldlM_decodeBit_inner hs rest s.root 0 _ hin).trans (by rw [Nat.zero_add]; rfl)
  · rw [hover h]
    rfl

/-- Settles O47: the walk along the split payload, and where it ends. -/
theorem decodeWalksTree : Obligations.DecodeWalksTree := by
  unfold Obligations.DecodeWalksTree
  intro s codes rest hinv hh hd hs hcodes hin hsplit
  have hbits : s.payloadBitList = codes.flatMap Prod.snd ++ rest := hsplit.symm
  obtain ⟨hfit, hover⟩ := State.foldlM_decodeBit_split hs hcodes hin
  rw [← hbits] at hfit hover
  have hroot := hinv.tree.follow_root_iff hd hs hin
  refine ⟨fun h => exec_decode_overflow hh hd (hover h),
    fun h hrest hstrict => exec_decode_truncated hh hd (hfit h) (mt hroot.mp hrest) hstrict, fun h hend => ?_⟩
  have hlen : (codes.map Prod.fst).length = codes.length := List.length_map _
  obtain ⟨houtLen, hbytes⟩ := State.decoded_outputs (s := s) (out := codes.map Prod.fst) (hlen ▸ h)
  refine ⟨_, exec_decode_ok hh hd (hfit h) (hend.imp_left hroot.mpr), ?_, houtLen.trans hlen, fun j c hc => ?_⟩
  · rw [← hlen]
    rfl
  · exact hbytes j c.1 (by rw [List.getElem?_map, hc]; rfl)

/-- Settles O48: as long as the string meets a leaf a code is split off; what stays at internal nodes is no longer than these
are many. -/
theorem everyPayloadSplits : Obligations.EveryPayloadSplits := by
  unfold Obligations.EveryPayloadSplits
  intro s bits hinv hd hs
  have hF := hinv.tree.forest (by rw [hd]; decide)
  obtain ⟨hlt, hkind⟩ := hinv.tree.root_internal hd hs
  induction hn : bits.length using Nat.strong_induction_on generalizing bits with
  | _ n ih =>
    rcases hF.inner_or_ends s.root hlt hkind bits with hin | ⟨q, r, b, rfl, hq, hends⟩
    · have hdepth := hF.inner_length s.root hlt hkind bits hin
      obtain ⟨-, hroot, -, -⟩ := hinv.tree.complete hd
      have hk := s.symCount_le
      exact ⟨[], bits, rfl, (fun c hc => nomatch hc), by omega, hin⟩
    · have hshorter : r.length < n := by
        have := List.length_pos_iff.mpr hq
        rw [List.length_append] at hn
        omega
      obtain ⟨codes, rest, rfl, hcodes, hrest⟩ := ih r.length hshorter r rfl
      refine ⟨(b, q) :: codes, rest, by rw [List.flatMap_cons, List.append_assoc], ?_, hrest⟩
      exact List.forall_mem_cons.mpr ⟨(s.isPath_iff q b).mpr ⟨hq, hends⟩, hcodes⟩

/-! ### A single-leaf tree (45_container_decode R272) -/

theorem State.length_payloadBitList (s : State) : s.payloadBitList.length = s.payloadBits.toNat := by
  unfold State.payloadBitList
  rw [List.length_map, List.length_range]

/-- Settles O49: the walk emits one symbol for each bit and always stands at ROOT. -/
theorem decodeSingleLeaf : Obligations.DecodeSingleLeaf := by
  unfold Obligations.DecodeSingleLeaf
  intro s hh hd hs
  obtain ⟨hfit, hover⟩ := s.foldlM_decodeBit_single hs s.payloadBitList ⟨s.root, 0, []⟩ (Nat.zero_le _)
  rw [List.length_nil, Nat.zero_add, s.length_payloadBitList] at hfit hover
  refine ⟨fun h => exec_decode_overflow hh hd (hover h), fun h => ?_⟩
  have hwalk := hfit h rfl rfl
  rw [List.nil_append] at hwalk
  have hlen : (List.replicate s.payloadBits.toNat (s.nodeAt s.root).symbol).length = s.payloadBits.toNat :=
    List.length_replicate
  obtain ⟨houtLen, hbytes⟩ := State.decoded_outputs (s := s) (out := List.replicate s.payloadBits.toNat _) (hlen ▸ h)
  refine ⟨_, exec_decode_ok hh hd hwalk (.inl rfl), ?_, houtLen.trans hlen, fun j hj => hbytes j _ ?_⟩
  · unfold State.decoded
    rw [hlen]
    rfl
  · rw [List.getElem?_replicate, if_pos hj]

end Sys2Proof.Machine
end

section
/-!
SUPPORT. The composite commands against their stages (46_composite R290, R291, R293).
-/

namespace Sys2Proof.Machine

/-! ### A command after a completion (40_control R141) -/

/-- A body that reads nothing a completion writes gives the same next state right after one, but for the draws. -/
theorem exec_succeeded {i : Instr} {s t : State}
    (hbody : Instr.body i s.completed = (Instr.body i s).map State.completed) (h : exec i s = .next t) :
    exec i s.succeeded = .next { t with draw := t.draw + 1 } := by
  rw [exec_eq] at h
  rw [show s.succeeded = s.completed from rfl, exec_eq, hbody]
  cases hr : Instr.body i s with
  | ok u =>
    rw [hr] at h
    obtain rfl := Host.Outcome.next.inj h
    rfl
  | raised c info u =>
    rw [hr] at h
    obtain rfl := Host.Outcome.next.inj h
    rfl
  | stuck e => rw [hr] at h; cases h

theorem exec_pack_succeeded {s t : State} (h : exec .pack s = .next t) :
    exec .pack s.succeeded = .next { t with draw := t.draw + 1 } :=
  exec_succeeded (packBody_completed s) h

theorem exec_decode_succeeded {s t : State} (h : exec .decode s = .next t) :
    exec .decode s.succeeded = .next { t with draw := t.draw + 1 } :=
  exec_succeeded (decodeBody_completed s) h

/-- BUILD right after a completion makes the same tree. -/
theorem exec_build_succeeded {s : State} (hk : s.symCount ≠ 0) :
    exec .build s.succeeded = .next s.tree.succeeded.succeeded := by
  rw [exec_build (s := s.succeeded) hk, show s.succeeded.tree = s.tree.succeeded from s.tree_completed hk]

theorem Completed.draw_eq {s t : State} (h : Completed s t) : t.draw = s.draw + 1 := by
  unfold Completed at h
  rw [h]

theorem State.alphabetSize_succeeded (s : State) : s.succeeded.alphabetSize = s.alphabetSize := rfl

theorem State.payloadLength_succeeded (s : State) : s.succeeded.payloadLength = s.payloadLength := rfl

/-! ### COMPRESS (46_composite R290) -/

/-- SCAN of the empty input leaves the empty map (41_frequency_scan R160). -/
theorem scanBody_empty {s : State} (h0 : s.inLen = 0) : scanBody s =
    { s with freq := Vector.replicate 256 0, bstate := .idle, single := false, codesValid := false } := by
  have hnil : s.inBytes = [] := by
    rw [← List.length_eq_zero_iff, s.length_inBytes, h0]
    rfl
  unfold scanBody
  rw [hnil]
  rfl

/-- COMPRESS of a non-empty input ends as PACK does in the state of its PACK stage. -/
theorem exec_compress_eq {s : State} (h0 : s.inLen ≠ 0) :
    ∃ u, (scanBody s).tree.codeTable = some u ∧ exec .compress s = exec .pack (s.compressed u) := by
  obtain ⟨u, hu, hbody⟩ := compressBody_eq s h0
  refine ⟨u, hu, ?_⟩
  rw [exec_eq, exec_eq]
  exact congrArg (Result.finish true) hbody

section
variable {s : State} (h0 : s.inLen ≠ 0) {u : Cells Code} (hu : (scanBody s).tree.codeTable = some u)
include h0 hu

/-- The PACK stage of COMPRESS does not stop. -/
theorem exec_pack_compressed : ∃ t, exec .pack (s.compressed u) = .next t := by
  rw [exec_eq, show Instr.body .pack (s.compressed u) = packBody (s.compressed u) from rfl, compress_pack s h0 hu]
  split <;> exact ⟨_, rfl⟩

theorem State.compressed_hasCode {j : Nat} (hj : j < s.inLen.toNat) : (s.compressed u).hasCode (s.inByte j) := by
  refine ((s.compressed u).firstWithoutCode_none _ 0).mp (s.compressed_all h0 hu) _ ?_
  rw [s.compressed_inBytes]
  exact List.mem_of_getElem? (State.getElem?_inBytes hj)

/-- Where the container fits OUT_CAP, the PACK stage succeeds (44_bitstream_pack R240). -/
theorem exec_pack_compressed_fit {t : State} (ht : exec .pack (s.compressed u) = .next t)
    (hfit : sizeOfContainer (s.compressed u).alphabetSize (s.compressed u).payloadLength ≤ s.capOut.toNat) :
    t.err = s.err ∧ t.outLen.toNat = sizeOfContainer (s.compressed u).alphabetSize (s.compressed u).payloadLength := by
  have hframe := s.compressed_frame u
  have herr : (s.compressed u).err = s.err := by rw [hframe]
  have hcap : (s.compressed u).capOut = s.capOut := by rw [hframe]
  have hlen : (s.compressed u).inLen = s.inLen := by rw [hframe]
  have hbyte : ∀ j, (s.compressed u).inByte j = s.inByte j := fun j => by rw [hframe]; rfl
  rw [← hcap] at hfit
  have hok := exec_pack hfit rfl fun j hj => by
    rw [hbyte]
    exact State.compressed_hasCode h0 hu (hlen ▸ hj)
  obtain rfl := Host.Outcome.next.inj (hok.symm.trans ht)
  exact ⟨herr, State.packed_outLen hfit⟩

end

/-- Settles O50: each stage as a command of its own differs from the stage within COMPRESS only in the completions between
them, which no body sees. -/
theorem compressRunsStages : Obligations.CompressRunsStages := by
  unfold Obligations.CompressRunsStages
  refine fun s => ⟨fun h0 => ?_, fun h0 => ?_⟩
  · rw [exec_compress_empty h0, scanBody_empty h0]
    rfl
  · have hk : (scanBody s).symCount ≠ 0 := mt (scanBody_symCount s).mp h0
    obtain ⟨u, hu, hcompress⟩ := exec_compress_eq h0
    obtain ⟨t, ht⟩ := exec_pack_compressed h0 hu
    have htable : (scanBody s).tree.succeeded.succeeded.codeTable = some u :=
      ((scanBody s).tree.completed.codeTable_completed.trans (scanBody s).tree.codeTable_completed).trans hu
    have hassign : exec .assign (scanBody s).tree.succeeded.succeeded =
        .next (s.compressed u).succeeded.succeeded.succeeded :=
      exec_assign (s := (scanBody s).tree.succeeded.succeeded) ((scanBody s).tree_done hk) htable
    have hpack := exec_pack_succeeded (exec_pack_succeeded (exec_pack_succeeded ht))
    have hdraw := (exec_frame (hcompress.trans ht)).draw_eq
    refine ⟨_, _, _, _, exec_scan s, exec_build_succeeded hk, hassign, hpack, ?_, (scanBody s).tree_done hk, rfl,
      fun j hj => State.compressed_hasCode h0 hu hj, fun herr hfit => ?_⟩
    · rw [hcompress, ht, ← hdraw]
    · simp only [State.alphabetSize_succeeded, State.payloadLength_succeeded] at hfit ⊢
      obtain ⟨hterr, hout⟩ := exec_pack_compressed_fit h0 hu ht hfit
      exact ⟨hterr.trans herr, hout⟩

/-! ### DECOMPRESS (46_composite R291) -/

theorem parseBody_hdrValid {s r : State} (h : parseBody s = .ok r) : r.hdrValid = true := by
  unfold parseBody at h
  split at h
  · cases h
  · rw [← Result.ok.inj h]

/-- What a PARSE that raises has changed: HDR_VALID is 0 (45_container_decode R260). -/
theorem parseBody_raised {s r : State} {c : Cause} {info : Word} (h : parseBody s = .raised c info r) :
    r = { s with hdrValid := false } := by
  unfold parseBody at h
  split at h
  · exact (Result.raised.inj h).2.2.symm
  · cases h

theorem parseBody_not_stuck {s : State} {f : Fault} : parseBody s ≠ .stuck f := by
  unfold parseBody
  split <;> exact Result.noConfusion

/-- After a PARSE that does not raise, DECOMPRESS builds the tree and decodes (46_composite R291). -/
theorem decompressBody_of_parse {s r : State} (h : parseBody s = .ok r) : decompressBody s = decodeBody r.tree := by
  unfold decompressBody
  rw [h, show (Result.ok r).andThen buildBody = buildBody r from rfl, buildBody_ok r (parseBody_symCount h)]
  rfl

/-- A PARSE that raises ends DECOMPRESS (46_composite R293). -/
theorem decompressBody_of_raise {s r : State} {c : Cause} {info : Word} (h : parseBody s = .raised c info r) :
    decompressBody s = .raised c info r := by
  unfold decompressBody
  rw [h]
  rfl

/-- DECODE does not stop (60_exceptions R314). -/
theorem exec_decode_answers (s : State) : ∃ t, exec .decode s = .next t := by
  cases hh : s.hdrValid with
  | false => exact ⟨_, exec_decode_noHeader hh⟩
  | true =>
    by_cases hd : s.bstate = .done
    · cases hw : s.payloadBitList.foldlM s.decodeBit ⟨s.root, 0, []⟩ with
      | error e => exact ⟨_, exec_decode_overflow hh hd (s.foldlM_decodeBit_cause _ _ hw ▸ hw)⟩
      | ok c =>
        by_cases hend : c.cur = s.root ∨ s.strict = false
        · exact ⟨_, exec_decode_ok hh hd hw hend⟩
        · rw [not_or] at hend
          exact ⟨_, exec_decode_truncated hh hd hw hend.1 ((Bool.not_eq_false _).mp hend.2)⟩
    · exact ⟨_, exec_decode_noTree hh hd⟩

/-- Each payload bit emits at most one symbol, so a payload of no more bits than OUT_CAP has bytes does not overflow
(45_container_decode R274). -/
theorem State.foldlM_decodeBit_room (s : State) (bits : List Bool) (c : Cursor)
    (h : c.out.length + bits.length ≤ s.capOut.toNat) : ∃ d, bits.foldlM s.decodeBit c = .ok d := by
  have hemit : ∀ b, c.out.length ≠ s.capOut.toNat → s.emit c b = .ok ⟨s.root, 0, c.out ++ [b]⟩ :=
    fun b hne => if_neg hne
  induction bits generalizing c with
  | nil => exact ⟨c, rfl⟩
  | cons bit bits ih =>
    rw [List.length_cons] at h
    have hroom : c.out.length ≠ s.capOut.toNat := by omega
    obtain ⟨d, hd, hlen⟩ : ∃ d, s.decodeBit c bit = .ok d ∧ d.out.length ≤ c.out.length + 1 := by
      unfold State.decodeBit
      split
      · exact ⟨_, hemit _ hroom, by simp⟩
      · dsimp only
        split
        · exact ⟨_, hemit _ hroom, by simp⟩
        · exact ⟨_, rfl, Nat.le_succ _⟩
    rw [List.foldlM_cons, hd]
    exact ih d (by omega) fun b hne => if_neg hne

/-- With room for every bit and without STRICT, DECODE adds no error of its own. -/
theorem exec_decode_err {s t : State} (hh : s.hdrValid = true) (hd : s.bstate = .done) (hstrict : s.strict = false)
    (hroom : s.payloadBits.toNat ≤ s.capOut.toNat) (ht : exec .decode s = .next t) : t.err = s.err := by
  obtain ⟨c, hw⟩ := s.foldlM_decodeBit_room s.payloadBitList ⟨s.root, 0, []⟩
    (by rw [s.length_payloadBitList, List.length_nil, Nat.zero_add]; exact hroom)
  obtain rfl := Host.Outcome.next.inj ((exec_decode_ok hh hd hw (.inr hstrict)).symm.trans ht)
  rfl

theorem Keeps.strict_capOut_eq {s t : State} (h : Keeps s t) : t.strict = s.strict ∧ t.capOut = s.capOut := by
  unfold Keeps at h
  rw [h]
  exact ⟨rfl, rfl⟩

/-- Settles O51: a raise of PARSE ends both alike; after a good header the map is not empty, so BUILD makes a tree, and a
completion before DECODE changes nothing that it reads. -/
theorem decompressRunsStages : Obligations.DecompressRunsStages := by
  unfold Obligations.DecompressRunsStages
  intro s
  cases hp : parseBody s with
  | stuck f => exact absurd hp parseBody_not_stuck
  | raised c info r =>
    have hfalse : r.hdrValid = false := by rw [parseBody_raised hp]
    refine ⟨_, _, exec_of_body_raised (i := .parse) rfl hp,
      exec_of_body_raised_spoils (i := .decompress) rfl (decompressBody_of_raise hp), fun _ => rfl, fun htrue => ?_⟩
    exact nomatch hfalse.symm.trans htrue
  | ok r =>
    have hh := parseBody_hdrValid hp
    have hk := parseBody_symCount hp
    have hframe := r.tree_frame
    have hdone := r.tree_done hk
    have hhtree : r.tree.hdrValid = true := by rw [hframe]; exact hh
    have hdecompress : exec .decompress s = exec .decode r.tree := by
      rw [exec_eq, exec_eq]
      exact congrArg (Result.finish true) (decompressBody_of_parse hp)
    obtain ⟨t, ht⟩ := exec_decode_answers r.tree
    have hdraw := (exec_frame (hdecompress.trans ht)).draw_eq
    refine ⟨_, t, exec_of_body_ok (i := .parse) hp, hdecompress.trans ht,
      fun hfalse => absurd (hh.symm.trans hfalse) (by decide), fun _ => ⟨_, _, exec_build_succeeded hk, hdone, hhtree,
        exec_decode_succeeded (exec_decode_succeeded ht), ?_, fun herr hstrict hroom => ?_⟩⟩
    · rw [← hdraw]
    · have hkeep := parseBody_step s
      rw [hp] at hkeep
      have hkeep : Keeps s r.tree := hkeep.1.trans (r.tree_step hk).1
      have hbits : r.tree.payloadBits = r.payloadBits := by rw [hframe]
      obtain ⟨herr', -⟩ := hkeep.error_eq
      obtain ⟨hstrict', hcap⟩ := hkeep.strict_capOut_eq
      have hdecode := exec_decode_err hhtree hdone (hstrict'.trans hstrict) (by rw [hbits, hcap]; exact hroom) ht
      exact hdecode.trans (herr'.trans herr)

end Sys2Proof.Machine
end

section
/-!
SUPPORT. Who writes the code tables, IN_BUF and BSTATE (10_state R53 to R55, R58): what each command body and each host write
does to them, and from that what a step does.
-/

namespace Sys2Proof.Machine

/-! ### The bodies that write output (44_bitstream_pack R230, 45_container_decode R270) -/

/-- t differs from s only in OUT_BUF, OUT_LEN and the payload registers. -/
def OutputOnly (s t : State) : Prop := t = { s with
  outBuf := t.outBuf, outLen := t.outLen, padding := t.padding, payloadOff := t.payloadOff, payloadBits := t.payloadBits }

theorem packBody_outputOnly (s : State) : (packBody s).All (OutputOnly s) := by
  unfold packBody
  split
  · rfl
  · split
    · rfl
    · dsimp only
      split <;> rfl

theorem decodeBody_outputOnly (s : State) : (decodeBody s).All (OutputOnly s) := by
  unfold decodeBody
  split
  · rfl
  · split
    · rfl
    · split
      · rfl
      · split <;> rfl

theorem OutputOnly.code_eq {s t : State} (h : OutputOnly s t) : t.code = s.code := by
  unfold OutputOnly at h
  rw [h]

theorem OutputOnly.bstate_eq {s t : State} (h : OutputOnly s t) : t.bstate = s.bstate := by
  unfold OutputOnly at h
  rw [h]

/-- What holds of both ends of a body holds of the next state of its command, where a completion does not touch it. -/
theorem exec_of_All {i : Instr} {s t : State} {P : State → Prop} (hbody : (Instr.body i s).All P)
    (hok : ∀ u, P u → P u.completed) (hraise : ∀ u spoils c info, P u → P (u.takeError spoils c info))
    (h : exec i s = .next t) : P t := by
  rcases exec_next h with ⟨u, hu, -, rfl⟩ | ⟨c, info, u, hu, -, rfl⟩ <;> rw [hu] at hbody
  · exact hok u hbody
  · exact hraise u _ c info hbody

/-! ### The code tables (10_state R53, R54) -/

/-- Every entry of a code table is listed. -/
def listsAll (m : Cells Code) : Prop := ∀ b : Byte, (Cells.get? m b.toNat).isSome = true

/-- The table of ASSIGN begins with all 256 entries, and the walk only adds to it (43_codec_table R210). -/
theorem State.codeTable_listsAll {s : State} {u : Cells Code} (h : s.codeTable = some u) : listsAll u := by
  intro b
  have hempty : (Cells.get? emptyCodes b.toNat).isSome = true := by rw [get?_emptyCodes]; rfl
  unfold State.codeTable at h
  split at h
  · obtain rfl := Option.some.inj h
    rw [Cells.get?_set]
    split
    · rfl
    · exact hempty
  · rcases walk_spec s 256 s.root [] emptyCodes u h b.toNat with ⟨hget, -⟩ | ⟨q, -, -, hget⟩ <;> rw [hget]
    · exact hempty
    · rfl

/-- The tables are as before, or ASSIGN or COMPRESS has written all of them. -/
def CodeTablesFrom (i : Instr) (s t : State) : Prop :=
  t.code = s.code ∨ ((i = .assign ∨ i = .compress) ∧ listsAll t.code)

theorem assignBody_codeTables (s : State) : (assignBody s).All (CodeTablesFrom .assign s) := by
  unfold assignBody
  split
  · split
    · rename_i u hu
      exact .inr ⟨.inl rfl, State.codeTable_listsAll hu⟩
    · trivial
  · exact .inl rfl

theorem parseBody_code (s : State) : (parseBody s).All (·.code = s.code) := by
  unfold parseBody
  split <;> rfl

theorem compressBody_codeTables (s : State) : (compressBody s).All (CodeTablesFrom .compress s) := by
  by_cases h0 : s.inLen = 0
  · rw [compressBody_empty s h0]
    exact .inl rfl
  · obtain ⟨u, hu, hbody⟩ := compressBody_eq s h0
    rw [hbody]
    refine (packBody_outputOnly (s.compressed u)).mono fun t ht => .inr ⟨.inr rfl, ?_⟩
    rw [ht.code_eq]
    exact State.codeTable_listsAll hu

theorem decompressBody_code (s : State) : (decompressBody s).All (·.code = s.code) := by
  have keep : ∀ {P : State → State → Prop} {f : State → Result}, (∀ t, (f t).All (P t)) →
      (∀ t u, P t u → u.code = t.code) → ∀ t, t.code = s.code → (f t).All (·.code = s.code) :=
    fun hf hP t ht => (hf t).mono fun u hu => (hP t u hu).trans ht
  refine ((parseBody_code s).andThen (fun _ h => h) ?_).andThen (fun _ h => h) ?_
  · exact keep buildBody_builderOnly fun _ _ => BuilderOnly.code_eq
  · exact keep decodeBody_outputOnly fun _ _ => OutputOnly.code_eq

theorem body_codeTables (i : Instr) (s : State) : (Instr.body i s).All (CodeTablesFrom i s) := by
  cases i with
  | nop | clear | scan => exact .inl rfl
  | build => exact (buildBody_builderOnly s).mono fun _ h => .inl h.code_eq
  | buildInit => exact (buildInitBody_builderOnly s).mono fun _ h => .inl h.code_eq
  | buildStep n => exact (buildStepBody_builderOnly n s).mono fun _ h => .inl h.code_eq
  | assign => exact assignBody_codeTables s
  | pack => exact (packBody_outputOnly s).mono fun _ h => .inl h.code_eq
  | parse => exact (parseBody_code s).mono fun _ h => .inl h
  | decode => exact (decodeBody_outputOnly s).mono fun _ h => .inl h.code_eq
  | compress => exact compressBody_codeTables s
  | decompress => exact (decompressBody_code s).mono fun _ h => .inl h

theorem exec_codeTables {i : Instr} {s t : State} (h : exec i s = .next t) : CodeTablesFrom i s t :=
  exec_of_All (body_codeTables i s) (fun _ h => h) (fun _ _ _ _ h => h) h

theorem State.hostRead_code (s : State) (size : Size) (addr : Word) : (s.hostRead size addr).code = s.code := by
  rw [State.hostRead_frame]

theorem State.idleWrite_code (s : State) (data : Word) (p : Place) : (s.idleWrite data p).code = s.code := by
  cases p with
  | csr r =>
    cases r with
    | inLen =>
      show (s.writeInLen data).code = s.code
      unfold State.writeInLen
      split <;> rfl
    | _ => rfl
  | _ => rfl

theorem State.hostWrite_code (s : State) (size : Size) (addr data : Word) : (s.hostWrite size addr data).code = s.code := by
  rcases s.hostWrite_cases size addr data with h | ⟨-, p, -, h⟩ <;> rw [h]
  · rfl
  · exact s.idleWrite_code data p

/-- Settles O54: a completion that changes the tables is one of ASSIGN or COMPRESS and has written every entry. -/
theorem codeTableWriters : Obligations.CodeTableWriters := by
  unfold Obligations.CodeTableWriters
  intro s t h hne
  rcases step_cases h with
    ⟨hm, ⟨hb, hc⟩ | ⟨-, rfl⟩⟩ | ⟨size, addr, -, -, rfl⟩ | ⟨size, addr, data, -, -, rfl⟩ | ⟨hr, -⟩
  · rcases complete_cases hc with ⟨i, hi, he⟩ | ⟨e, rfl⟩
    · obtain ⟨hwriter, hall⟩ := (exec_codeTables he).resolve_left hne
      have hci : s.completes i := ⟨hb, hm, hi⟩
      rcases hwriter with rfl | rfl
      · exact .inr ⟨.inl hci, hall⟩
      · exact .inr ⟨.inr hci, hall⟩
    · exact absurd rfl hne
  · exact absurd rfl hne
  · exact absurd (s.popTurn.hostRead_code size addr) hne
  · exact absurd (s.popTurn.hostWrite_code size addr data) hne
  · exact .inl hr

/-! ### IN_BUF (10_state R55, 70_reset_and_hazards R343) -/

theorem State.hostRead_inBuf (s : State) (size : Size) (addr : Word) : (s.hostRead size addr).inBuf = s.inBuf := by
  rw [State.hostRead_frame]

/-- An idle write that changes IN_BUF is one to a byte of it, and clears HDR_VALID (10_state R55). -/
theorem State.idleWrite_changes_inBuf {s : State} {data : Word} {p : Place}
    (h : (s.idleWrite data p).inBuf ≠ s.inBuf) : (∃ j, p = .inBuf j) ∧ (s.idleWrite data p).hdrValid = false := by
  cases p with
  | csr r =>
    cases r with
    | inLen =>
      refine absurd (show (s.writeInLen data).inBuf = s.inBuf from ?_) h
      unfold State.writeInLen
      split <;> rfl
    | _ => exact absurd rfl h
  | inBuf j => exact ⟨⟨j, rfl⟩, rfl⟩
  | _ => exact absurd rfl h

theorem State.hostWrite_changes_inBuf {s : State} {size : Size} {addr data : Word}
    (h : (s.hostWrite size addr data).inBuf ≠ s.inBuf) : s.busy = false ∧ (s.hostWrite size addr data).hdrValid = false ∧
      size = .byte ∧ inBase ≤ addr.toNat ∧ addr.toNat < inBase + s.capIn.toNat := by
  rcases s.hostWrite_cases size addr data with hw | ⟨hb, p, hp, hw⟩ <;> rw [hw] at h ⊢
  · exact absurd rfl h
  · obtain ⟨⟨j, rfl⟩, hhdr⟩ := State.idleWrite_changes_inBuf h
    obtain ⟨hsize, haddr, hj⟩ := State.place_inBuf hp
    exact ⟨hb, hhdr, hsize, by omega, by omega⟩

theorem Completed.inBuf_eq {s t : State} (h : Completed s t) : t.inBuf = s.inBuf := by
  unfold Completed at h
  rw [h]

/-- Settles O55: a completion and a read leave IN_BUF alone; and no command reads it past IN_LEN. -/
theorem inBufWriters : Obligations.InBufWriters := by
  unfold Obligations.InBufWriters
  refine ⟨fun s t h hne => ?_, fun i s t m hsame h => exec_withInput hsame h⟩
  rcases step_cases h with
    ⟨-, ⟨-, hc⟩ | ⟨-, rfl⟩⟩ | ⟨size, addr, -, -, rfl⟩ | ⟨size, addr, data, rest, hw, rfl⟩ | ⟨hr, -⟩
  · exact absurd (complete_frame hc).inBuf_eq hne
  · exact absurd rfl hne
  · exact absurd (s.popTurn.hostRead_inBuf size addr) hne
  · obtain ⟨hb, hhdr, rfl, hge, hlt⟩ := State.hostWrite_changes_inBuf (s := s.popTurn) hne
    exact .inr ⟨hb, hhdr, addr, data, congrArg List.head? hw, hge, hlt⟩
  · exact .inl hr

/-! ### BSTATE (10_state R58) -/

/-- The commands that can take the builder from s into a state (10_state R58). -/
def Instr.mayEnter (i : Instr) (s : State) : BState → Prop
  | .merge => i = .buildInit
  | .done => i = .buildInit ∨ i = .build ∨ i = .compress ∨ i = .decompress ∨
      (s.bstate = .merge ∧ ∃ n, i = .buildStep n)
  | .idle => i = .scan ∨ i = .parse ∨ i = .clear ∨ (s.alphabetSize = 0 ∧ (i = .buildInit ∨ i = .build)) ∨
      i = .compress

/-- BSTATE is as before, or the command has taken it where it may. -/
def BuilderMoves (i : Instr) (s t : State) : Prop := t.bstate = s.bstate ∨ Instr.mayEnter i s t.bstate

theorem BuilderMoves.of_enter {i : Instr} {s t : State} {b : BState} (hb : t.bstate = b) (h : Instr.mayEnter i s b) :
    BuilderMoves i s t := .inr (hb ▸ h)

theorem mergeSteps_bstate (n : Nat) (s : State) : (mergeSteps n s).bstate = s.bstate ∨ (mergeSteps n s).bstate = .done := by
  induction n generalizing s with
  | zero => exact .inl rfl
  | succ n ih =>
    rw [mergeSteps_succ]
    split
    · rcases ih (mergeStep s) with h | h
      · rw [h, mergeStep_bstate]
        split
        · exact .inr rfl
        · exact .inl rfl
      · exact .inr h
    · exact .inl rfl

theorem buildInitBody_bstate (s : State) : (buildInitBody s).All (BuilderMoves .buildInit s) := by
  by_cases hk : s.symCount = 0
  · rw [buildInitBody_empty s hk]
    exact .of_enter rfl (.inr (.inr (.inr (.inl ⟨s.symCount_eq_alphabetSize ▸ hk, .inl rfl⟩))))
  · rw [buildInitBody_ok s hk]
    by_cases h1 : s.symCount = 1
    · exact .of_enter (b := .done) (if_pos h1) (.inl rfl)
    · exact .of_enter (b := .merge) (if_neg h1) rfl

theorem buildBody_bstate (s : State) : (buildBody s).All (BuilderMoves .build s) := by
  by_cases hk : s.symCount = 0
  · rw [buildBody_empty s hk]
    exact .of_enter rfl (.inr (.inr (.inr (.inl ⟨s.symCount_eq_alphabetSize ▸ hk, .inr rfl⟩))))
  · rw [buildBody_ok s hk]
    exact .of_enter (s.tree_done hk) (.inr (.inl rfl))

theorem buildStepBody_bstate (n : Nat) (s : State) : (buildStepBody n s).All (BuilderMoves (.buildStep n) s) := by
  unfold buildStepBody
  split
  · rename_i hm
    rcases mergeSteps_bstate n s with h | h
    · exact .inl h
    · exact .of_enter h (.inr (.inr (.inr (.inr ⟨hm, n, rfl⟩))))
  · exact .inl rfl

theorem assignBody_bstate (s : State) : (assignBody s).All (BuilderMoves .assign s) := by
  unfold assignBody
  split
  · split
    · exact .inl rfl
    · trivial
  · exact .inl rfl

theorem parseBody_bstate (s : State) : (parseBody s).All (BuilderMoves .parse s) := by
  unfold parseBody
  split
  · exact .inl rfl
  · exact .of_enter (b := .idle) rfl (.inr (.inl rfl))

theorem compressBody_bstate (s : State) : (compressBody s).All (BuilderMoves .compress s) := by
  by_cases h0 : s.inLen = 0
  · rw [compressBody_empty s h0]
    exact .of_enter (b := .idle) rfl (.inr (.inr (.inr (.inr rfl))))
  · obtain ⟨u, -, hbody⟩ := compressBody_eq s h0
    have hdone : (s.compressed u).bstate = .done := (scanBody s).tree_done (mt (scanBody_symCount s).mp h0)
    rw [hbody]
    exact (packBody_outputOnly _).mono fun t ht => .of_enter (ht.bstate_eq.trans hdone) (.inr (.inr (.inl rfl)))

theorem decompressBody_bstate (s : State) : (decompressBody s).All (BuilderMoves .decompress s) := by
  cases hp : parseBody s with
  | ok r =>
    have hdone := r.tree_done (parseBody_symCount hp)
    rw [decompressBody_of_parse hp]
    exact (decodeBody_outputOnly _).mono fun t ht => .of_enter (ht.bstate_eq.trans hdone) (.inr (.inr (.inr (.inl rfl))))
  | raised c info r =>
    rw [decompressBody_of_raise hp, parseBody_raised hp]
    exact .inl rfl
  | stuck f => exact absurd hp parseBody_not_stuck

theorem body_bstate (i : Instr) (s : State) : (Instr.body i s).All (BuilderMoves i s) := by
  cases i with
  | nop => exact .inl rfl
  | clear => exact .of_enter (b := .idle) rfl (.inr (.inr (.inl rfl)))
  | scan => exact .of_enter (b := .idle) rfl (.inl rfl)
  | build => exact buildBody_bstate s
  | buildInit => exact buildInitBody_bstate s
  | buildStep n => exact buildStepBody_bstate n s
  | assign => exact assignBody_bstate s
  | pack => exact (packBody_outputOnly s).mono fun _ h => .inl h.bstate_eq
  | parse => exact parseBody_bstate s
  | decode => exact (decodeBody_outputOnly s).mono fun _ h => .inl h.bstate_eq
  | compress => exact compressBody_bstate s
  | decompress => exact decompressBody_bstate s

theorem exec_bstate {i : Instr} {s t : State} (h : exec i s = .next t) : BuilderMoves i s t :=
  exec_of_All (body_bstate i s) (fun _ h => h) (fun _ _ _ _ h => h) h

theorem State.hostRead_bstate (s : State) (size : Size) (addr : Word) : (s.hostRead size addr).bstate = s.bstate := by
  rw [State.hostRead_frame]

/-- Only a word access in the FREQ window reaches FREQ (20_memory R80). -/
theorem State.place_eq_freq {s : State} {size : Size} {addr : Word} {b : Byte} (h : s.place size addr = some (.freq b)) :
    size = .word ∧ addr = BitVec.ofNat 32 (0x400 + 4 * b.toNat) := by
  unfold State.place at h
  dsimp only at h
  split at h
  · split at h
    · rename_i hword
      split at h
      · exfalso
        rcases csrPlace_cases hword.2 with ⟨r, hr, -⟩ | ⟨hr, -⟩ <;> rw [hr] at h <;> cases h
      · split at h
        · cases h
        · split at h
          · obtain rfl := Place.freq.inj (Option.some.inj h)
            refine ⟨hword.1, eq_ofNat_of_toNat ?_⟩
            have haligned := hword.2
            rw [BitVec.toNat_ofNat]
            omega
          · repeat' split at h
            all_goals cases h
    · cases h
  · repeat' split at h
    all_goals cases h

/-- An idle write that changes BSTATE is one to FREQ, and drops the tree (10_state R51). -/
theorem State.idleWrite_changes_bstate {s : State} {data : Word} {p : Place}
    (h : (s.idleWrite data p).bstate ≠ s.bstate) : (∃ b, p = .freq b) ∧ (s.idleWrite data p).bstate = .idle := by
  cases p with
  | csr r =>
    cases r with
    | inLen =>
      refine absurd (show (s.writeInLen data).bstate = s.bstate from ?_) h
      unfold State.writeInLen
      split <;> rfl
    | _ => exact absurd rfl h
  | freq b => exact ⟨⟨b, rfl⟩, rfl⟩
  | _ => exact absurd rfl h

theorem State.hostWrite_changes_bstate {s : State} {size : Size} {addr data : Word}
    (h : (s.hostWrite size addr data).bstate ≠ s.bstate) : s.busy = false ∧ (s.hostWrite size addr data).bstate = .idle ∧
      size = .word ∧ ∃ b : Byte, addr = BitVec.ofNat 32 (0x400 + 4 * b.toNat) := by
  rcases s.hostWrite_cases size addr data with hw | ⟨hb, p, hp, hw⟩ <;> rw [hw] at h ⊢
  · exact absurd rfl h
  · obtain ⟨⟨b, rfl⟩, hidle⟩ := State.idleWrite_changes_bstate h
    obtain ⟨hsize, haddr⟩ := State.place_eq_freq hp
    exact ⟨hb, hidle, hsize, b, haddr⟩

/-- Settles O56: a completion takes BSTATE only where its command may; otherwise a write to FREQ or reset drops the tree. -/
theorem builderTransitions : Obligations.BuilderTransitions := by
  unfold Obligations.BuilderTransitions
  intro s t h hne
  have only_idle : ∀ {b : BState} {P : Prop}, t.bstate = .idle → b ≠ .idle → t.bstate = b → P :=
    fun hidle hb he => absurd (he.symm.trans hidle) hb
  rcases step_cases h with
    ⟨hm, ⟨hb, hc⟩ | ⟨-, rfl⟩⟩ | ⟨size, addr, -, -, rfl⟩ | ⟨size, addr, data, rest, hw, rfl⟩ | ⟨hr, rfl⟩
  · rcases complete_cases hc with ⟨i, hi, he⟩ | ⟨e, rfl⟩
    · have hci : s.completes i := ⟨hb, hm, hi⟩
      have henter : Instr.mayEnter i s.popTurn t.bstate := (exec_bstate he).resolve_left hne
      refine ⟨fun hmerge => ?_, fun hdone => ?_, fun hidle => ?_⟩
      · rw [hmerge] at henter
        obtain rfl : i = .buildInit := henter
        exact hci
      · rw [hdone] at henter
        rcases henter with rfl | rfl | rfl | rfl | ⟨hmerge, n, rfl⟩
        · exact .inl hci
        · exact .inr (.inl hci)
        · exact .inr (.inr (.inl hci))
        · exact .inr (.inr (.inr (.inl hci)))
        · exact .inr (.inr (.inr (.inr ⟨hmerge, n, hci⟩)))
      · rw [hidle] at henter
        refine .inr (.inr ?_)
        rcases henter with rfl | rfl | rfl | ⟨hempty, rfl | rfl⟩ | rfl
        · exact .inl hci
        · exact .inr (.inl hci)
        · exact .inr (.inr (.inl hci))
        · exact .inr (.inr (.inr (.inl ⟨hempty, .inl hci⟩)))
        · exact .inr (.inr (.inr (.inl ⟨hempty, .inr hci⟩)))
        · exact .inr (.inr (.inr (.inr hci)))
    · exact absurd rfl hne
  · exact absurd rfl hne
  · exact absurd (s.popTurn.hostRead_bstate size addr) hne
  · obtain ⟨hb, hidle, rfl, b, rfl⟩ := State.hostWrite_changes_bstate (s := s.popTurn) hne
    exact ⟨only_idle hidle (by decide), only_idle hidle (by decide),
      fun _ => .inr (.inl ⟨hb, b, data, congrArg List.head? hw⟩)⟩
  · exact ⟨only_idle rfl (by decide), only_idle rfl (by decide), fun _ => .inl hr⟩

end Sys2Proof.Machine
end
